-- ==== Sys2Proof/Word.lean ====
section
/-! DEFINITION. The word types of the FS-AEAD engine: bytes, byte strings and the 32-bit command word. -/

namespace Sys2Proof

/-- A byte is 8 bits, bit 0 least significant (00_scope.md R7). -/
abbrev Byte := BitVec 8

/-- A byte string, index 0 first: stream order (00_scope.md R7, 20_memory.md R68). -/
abbrev Bytes := List Byte

/-- The command word (30_encoding.md R98, R99). -/
abbrev CommandWord := BitVec 32

/-- The 64-bit word BLAKE2b computes with (41_blake2b.md R141). -/
abbrev Word64 := BitVec 64

end Sys2Proof
end

