-- ==== Sys2Proof/Syntax.lean ====
section
/-! DEFINITION. The command set as syntax: one constructor per row of spec/opcode_table.json, with the operands the rules name. -/

namespace Sys2Proof

/-- The six cipher methods, ids 0 to 5 in this order (30_encoding.md R96). -/
inductive Method where
  | aes128gcm
  | aes192gcm
  | aes256gcm
  | chacha20poly1305
  | chacha20ietfpoly1305
  | xchacha20ietfpoly1305
deriving DecidableEq, Repr, Inhabited

/-- The direction of a context: 0 encrypt, 1 decrypt (10_state.md R27, 30_encoding.md R99). -/
inductive Direction where
  | encrypt
  | decrypt
deriving DecidableEq, Repr, Inhabited

/-- The eight commands of 30_encoding.md R100 with their operands: `d` a descriptor slot, `c` a context slot, and the
command's input bytes where the command takes any. -/
inductive Instr where
  /-- `CIPHER_INIT d, method, in` (46_lifecycle.md R256). -/
  | cipherInit (d : Nat) (m : Method) (password : Bytes)
  /-- `CIPHER_FREE d` (46_lifecycle.md R259). -/
  | cipherFree (d : Nat)
  /-- `CTX_NEW d, c, dir` (46_lifecycle.md R261). -/
  | ctxNew (d c : Nat) (dir : Direction)
  /-- `CTX_FREE c` (46_lifecycle.md R264). -/
  | ctxFree (c : Nat)
  /-- `TCP_ENCRYPT c, in` (44_tcp.md R201). -/
  | tcpEncrypt (c : Nat) (plain : Bytes)
  /-- `TCP_DECRYPT c, in` (44_tcp.md R208). -/
  | tcpDecrypt (c : Nat) (arrived : Bytes)
  /-- `UDP_ENCRYPT d, in` (43_udp.md R181). -/
  | udpEncrypt (d : Nat) (plain : Bytes)
  /-- `UDP_DECRYPT d, in` (43_udp.md R183). -/
  | udpDecrypt (d : Nat) (datagram : Bytes)
deriving DecidableEq, Repr, Inhabited

end Sys2Proof
end

