-- ==== Sys2Proof/Machine/Method.lean ====
section
/-! DEFINITION. The method table of 30_encoding.md R96 and the fixed sizes of 00_scope.md R5. -/

namespace Sys2Proof.Machine

/-- The method id, stored in 3 bits (30_encoding.md R96, 10_state.md R22). -/
def methodId : Method → Nat
  | .aes128gcm => 0
  | .aes192gcm => 1
  | .aes256gcm => 2
  | .chacha20poly1305 => 3
  | .chacha20ietfpoly1305 => 4
  | .xchacha20ietfpoly1305 => 5

/-- The method with a given id; ids 6 and up name no method (30_encoding.md R96, R103). -/
def methodOfId : Nat → Option Method
  | 0 => some .aes128gcm
  | 1 => some .aes192gcm
  | 2 => some .aes256gcm
  | 3 => some .chacha20poly1305
  | 4 => some .chacha20ietfpoly1305
  | 5 => some .xchacha20ietfpoly1305
  | _ => none

/-- `key_len(m)` in bytes (30_encoding.md R96). -/
def keyLen : Method → Nat
  | .aes128gcm => 16
  | .aes192gcm => 24
  | .aes256gcm => 32
  | .chacha20poly1305 => 32
  | .chacha20ietfpoly1305 => 32
  | .xchacha20ietfpoly1305 => 32

/-- `nonce_len(m)` in bytes (30_encoding.md R96). -/
def nonceLen : Method → Nat
  | .aes128gcm => 12
  | .aes192gcm => 12
  | .aes256gcm => 12
  | .chacha20poly1305 => 8
  | .chacha20ietfpoly1305 => 12
  | .xchacha20ietfpoly1305 => 24

/-- `tag_len`, 16 for every method (00_scope.md R5, 10_state.md R24). -/
def tagLen : Nat := 16

/-- `CHUNK_MAX`, the ceiling of a chunk's payload (00_scope.md R5). -/
def chunkMax : Nat := 0x3FFF

/-- The direction bit of `CTX_NEW` (30_encoding.md R99). -/
def directionBit : Direction → Nat
  | .encrypt => 0
  | .decrypt => 1

/-- The direction that `ARG` of `CTX_NEW` names; values above 1 name none (30_encoding.md R99, R103). -/
def directionOfArg : Nat → Option Direction
  | 0 => some .encrypt
  | 1 => some .decrypt
  | _ => none

end Sys2Proof.Machine
end

