-- ==== Sys2Proof/WellFormed.lean ====
section
/-! DEFINITION. Which commands a command word can carry: every slot index fits its 8-bit field. -/

namespace Sys2Proof

/-- A slot index fits the 8-bit field `SD` or `SC` of the command word (30_encoding.md R99). -/
def slotFits (n : Nat) : Bool := decide (n < 256)

/-- The command can be written as a command word (30_encoding.md R99, R100). -/
def Instr.wellFormed : Instr → Bool
  | .cipherInit d _ _ => slotFits d
  | .cipherFree d => slotFits d
  | .ctxNew d c _ => slotFits d && slotFits c
  | .ctxFree c => slotFits c
  | .tcpEncrypt c _ => slotFits c
  | .tcpDecrypt c _ => slotFits c
  | .udpEncrypt d _ => slotFits d
  | .udpDecrypt d _ => slotFits d

end Sys2Proof
end

