-- ==== Sys2Proof/Decode.lean ====
section
/-! DEFINITION. Decoding of a command `(word, in)` (30_encoding.md R98 to R103), total and rejecting by name, and the encoder. -/

namespace Sys2Proof

/-- Why a command has no meaning as an encoding (30_encoding.md R103). Each is answered with the status `Refused`. -/
inductive DecodeError where
  /-- `OP` is 0x00 or 0x09..0xFF. -/
  | unknownOpcode
  /-- A field the command does not use is not zero. -/
  | unusedFieldNotZero
  /-- `ARG` of `CIPHER_INIT` is 6..255. -/
  | noSuchMethod
  /-- `ARG[7:1]` of `CTX_NEW` is not zero. -/
  | reservedDirection
  /-- `in` is not empty for a command that takes none. -/
  | inputNotEmpty
deriving DecidableEq, Repr

/-- `OP`, bits 31:24 (30_encoding.md R99). -/
def opField (w : CommandWord) : Nat := (w.extractLsb 31 24).toNat

/-- `SD`, bits 23:16 (30_encoding.md R99). -/
def sdField (w : CommandWord) : Nat := (w.extractLsb 23 16).toNat

/-- `SC`, bits 15:8 (30_encoding.md R99). -/
def scField (w : CommandWord) : Nat := (w.extractLsb 15 8).toNat

/-- `ARG`, bits 7:0 (30_encoding.md R99). -/
def argField (w : CommandWord) : Nat := (w.extractLsb 7 0).toNat

/-- Accept the command if the fields it does not use are zero (30_encoding.md R103). -/
def whenUnused (ok : Bool) (i : Instr) : Except DecodeError Instr :=
  if ok then .ok i else .error .unusedFieldNotZero

/-- Accept a command that takes no input if the unused fields are zero and `in` is empty (30_encoding.md R103). -/
def whenUnusedNoInput (ok : Bool) (input : Bytes) (i : Instr) : Except DecodeError Instr :=
  if !ok then .error .unusedFieldNotZero
  else if input.isEmpty then .ok i else .error .inputNotEmpty

/-- `CIPHER_INIT`: `SC = 0`, `ARG` a method id (46_lifecycle.md R256). -/
def decodeCipherInit (w : CommandWord) (input : Bytes) : Except DecodeError Instr :=
  match Machine.methodOfId (argField w) with
  | some m => whenUnused (scField w == 0) (.cipherInit (sdField w) m input)
  | none => .error .noSuchMethod

/-- `CTX_NEW`: `ARG` a direction (46_lifecycle.md R261). -/
def decodeCtxNew (w : CommandWord) (input : Bytes) : Except DecodeError Instr :=
  match Machine.directionOfArg (argField w) with
  | some dir => whenUnusedNoInput true input (.ctxNew (sdField w) (scField w) dir)
  | none => .error .reservedDirection

/-- The command that a word and its input select, or why there is none (30_encoding.md R99 to R103). -/
def decode (w : CommandWord) (input : Bytes) : Except DecodeError Instr :=
  match opField w with
  | 0x01 => decodeCipherInit w input
  | 0x02 => whenUnusedNoInput (scField w == 0 && argField w == 0) input (.cipherFree (sdField w))
  | 0x03 => decodeCtxNew w input
  | 0x04 => whenUnusedNoInput (sdField w == 0 && argField w == 0) input (.ctxFree (scField w))
  | 0x05 => whenUnused (sdField w == 0 && argField w == 0) (.tcpEncrypt (scField w) input)
  | 0x06 => whenUnused (sdField w == 0 && argField w == 0) (.tcpDecrypt (scField w) input)
  | 0x07 => whenUnused (scField w == 0 && argField w == 0) (.udpEncrypt (sdField w) input)
  | 0x08 => whenUnused (scField w == 0 && argField w == 0) (.udpDecrypt (sdField w) input)
  | _ => .error .unknownOpcode

/-- The command word with the given four fields (30_encoding.md R99). -/
def packWord (op sd sc arg : Nat) : CommandWord :=
  BitVec.ofNat 32 (op * 2 ^ 24 + sd * 2 ^ 16 + sc * 2 ^ 8 + arg)

/-- The word and the input of a command (30_encoding.md R100, R101). -/
def encode : Instr → CommandWord × Bytes
  | .cipherInit d m password => (packWord 0x01 d 0 (Machine.methodId m), password)
  | .cipherFree d => (packWord 0x02 d 0 0, [])
  | .ctxNew d c dir => (packWord 0x03 d c (Machine.directionBit dir), [])
  | .ctxFree c => (packWord 0x04 0 c 0, [])
  | .tcpEncrypt c plain => (packWord 0x05 0 c 0, plain)
  | .tcpDecrypt c arrived => (packWord 0x06 0 c 0, arrived)
  | .udpEncrypt d plain => (packWord 0x07 d 0 0, plain)
  | .udpDecrypt d datagram => (packWord 0x08 d 0 0, datagram)

/-- The command's `match` of 30_encoding.md R101. -/
def rowMatch : Instr → CommandWord
  | .cipherInit _ _ _ => 0x01000000
  | .cipherFree _ => 0x02000000
  | .ctxNew _ _ _ => 0x03000000
  | .ctxFree _ => 0x04000000
  | .tcpEncrypt _ _ => 0x05000000
  | .tcpDecrypt _ _ => 0x06000000
  | .udpEncrypt _ _ => 0x07000000
  | .udpDecrypt _ _ => 0x08000000

/-- The command's `mask` of 30_encoding.md R101. -/
def rowMask : Instr → CommandWord
  | .cipherInit _ _ _ => 0xFF00FFF8
  | .cipherFree _ => 0xFF00FFFF
  | .ctxNew _ _ _ => 0xFF0000FE
  | .ctxFree _ => 0xFFFF00FF
  | .tcpEncrypt _ _ => 0xFFFF00FF
  | .tcpDecrypt _ _ => 0xFFFF00FF
  | .udpEncrypt _ _ => 0xFF00FFFF
  | .udpDecrypt _ _ => 0xFF00FFFF

/-- The host's question: the command that the word `w` of `nbits` bits selects, with an empty input
(notes/assumptions/3.md). -/
def decodeTableWord (nbits w : Nat) : Option Instr :=
  (decode (BitVec.ofNat 32 (w % 2 ^ nbits)) []).toOption

end Sys2Proof
end

