-- ==== Sys2Proof/Machine/Bytes.lean ====
section
/-! DEFINITION. Integer conversions of byte strings (00_scope.md R7, R8). -/

namespace Sys2Proof.Machine

/-- `0^n`, n zero bytes. -/
def zeros (n : Nat) : Bytes := List.replicate n 0

/-- A string in a field of exactly `n` bytes: its first `n` bytes, then zeros. -/
def fit (n : Nat) (s : Bytes) : Bytes := s.take n ++ zeros (n - s.length)

/-- `be16(v)`, most significant byte first, for `v < 65536`. -/
def be16 (v : Nat) : Bytes := [BitVec.ofNat 8 (v / 256), BitVec.ofNat 8 v]

/-- `unbe16(s) = s[0]*256 + s[1]`. -/
def unbe16 (s : Bytes) : Nat := (s.getD 0 0).toNat * 256 + (s.getD 1 0).toNat

/-- `le(s)`, the sum of `s[i] * 256^i`. -/
def le (s : Bytes) : Nat := s.foldr (fun b n => b.toNat + 256 * n) 0

/-- `unle_n(v)`, the n-byte little-endian string of `v mod 256^n`. -/
def unle : Nat → Nat → Bytes
  | 0, _ => []
  | n + 1, v => BitVec.ofNat 8 v :: unle n (v / 256)

end Sys2Proof.Machine
end

