-- ==== Sys2Proof/Machine/Blake2b.lean ====
section
/-! DEFINITION. BLAKE2b as 41_blake2b.md gives it (R140 to R146; the file is general knowledge by its own words,
notes/assumptions/14.md). -/

namespace Sys2Proof.Machine

/-- The initialization vector (41_blake2b.md R142). -/
def blakeIV : List Word64 :=
  [0x6a09e667f3bcc908, 0xbb67ae8584caa73b, 0x3c6ef372fe94f82b, 0xa54ff53a5f1d36f1,
   0x510e527fade682d1, 0x9b05688c2b3e6c1f, 0x1f83d9abfb41bd6b, 0x5be0cd19137e2179]

/-- The message schedule, row `r mod 10` for round `r` (41_blake2b.md R142). -/
def blakeSigma : List (List Nat) :=
  [[0, 1, 2, 3, 4, 5, 6, 7, 8, 9, 10, 11, 12, 13, 14, 15],
   [14, 10, 4, 8, 9, 15, 13, 6, 1, 12, 0, 2, 11, 7, 5, 3],
   [11, 8, 12, 0, 5, 2, 15, 13, 10, 14, 3, 6, 7, 1, 9, 4],
   [7, 9, 3, 1, 13, 12, 11, 14, 2, 6, 5, 10, 4, 0, 15, 8],
   [9, 0, 5, 7, 2, 4, 10, 15, 14, 1, 11, 12, 6, 8, 3, 13],
   [2, 12, 6, 10, 0, 11, 8, 3, 4, 13, 7, 5, 15, 14, 1, 9],
   [12, 5, 1, 15, 14, 13, 4, 10, 0, 7, 6, 3, 9, 2, 8, 11],
   [13, 11, 7, 14, 12, 1, 3, 9, 5, 0, 15, 4, 8, 6, 2, 10],
   [6, 15, 14, 9, 11, 3, 0, 8, 12, 2, 13, 7, 1, 4, 10, 5],
   [10, 2, 8, 4, 7, 6, 1, 5, 15, 11, 9, 14, 3, 12, 13, 0]]

/-- `rotr(x, n)` for `0 < n < 64` (41_blake2b.md R141). -/
def rotr (x : Word64) (n : Nat) : Word64 := (x >>> n) ||| (x <<< (64 - n))

/-- The first `n` little-endian 64-bit words of a string (41_blake2b.md R141). -/
def blakeWords (n : Nat) (s : Bytes) : List Word64 :=
  (List.range n).map fun i => BitVec.ofNat 64 (le ((s.drop (8 * i)).take 8))

/-- The mixing function `G` on the 16-word vector `v` (41_blake2b.md R144). -/
def blakeG (a b c d : Nat) (x y : Word64) (v : List Word64) : List Word64 :=
  let va := v.getD a 0 + v.getD b 0 + x
  let vd := rotr (v.getD d 0 ^^^ va) 32
  let vc := v.getD c 0 + vd
  let vb := rotr (v.getD b 0 ^^^ vc) 24
  let va := va + vb + y
  let vd := rotr (vd ^^^ va) 16
  let vc := vc + vd
  let vb := rotr (vb ^^^ vc) 63
  (((v.set a va).set b vb).set c vc).set d vd

/-- One round: four column and four diagonal mixings with the message words that the row `s` picks (41_blake2b.md R145). -/
def blakeRound (m : List Word64) (s : List Nat) (v : List Word64) : List Word64 :=
  let w (i : Nat) := m.getD (s.getD i 0) 0
  let v := blakeG 0 4 8 12 (w 0) (w 1) v
  let v := blakeG 1 5 9 13 (w 2) (w 3) v
  let v := blakeG 2 6 10 14 (w 4) (w 5) v
  let v := blakeG 3 7 11 15 (w 6) (w 7) v
  let v := blakeG 0 5 10 15 (w 8) (w 9) v
  let v := blakeG 1 6 11 12 (w 10) (w 11) v
  let v := blakeG 2 7 8 13 (w 12) (w 13) v
  blakeG 3 4 9 14 (w 14) (w 15) v

/-- The compression function `F` (41_blake2b.md R145). -/
def blakeF (h : List Word64) (block : Bytes) (t : Nat) (last : Bool) : List Word64 :=
  let m := blakeWords 16 block
  let v := h ++ blakeIV
  let v := v.set 12 (v.getD 12 0 ^^^ BitVec.ofNat 64 t)
  let v := v.set 13 (v.getD 13 0 ^^^ BitVec.ofNat 64 (t / 2 ^ 64))
  let v := if last then v.set 14 (v.getD 14 0 ^^^ BitVec.allOnes 64) else v
  let v := (List.range 12).foldl (fun v r => blakeRound m (blakeSigma.getD (r % 10) []) v) v
  (List.range 8).map fun i => h.getD i 0 ^^^ v.getD i 0 ^^^ v.getD (i + 8) 0

/-- The parameter block `P`, 64 bytes (41_blake2b.md R143). -/
def blakeParams (outlen keylen : Nat) (salt personal : Bytes) : Bytes :=
  [BitVec.ofNat 8 outlen, BitVec.ofNat 8 keylen, 1, 1] ++ zeros 28 ++ fit 16 salt ++ fit 16 personal

/-- The initial chaining value (41_blake2b.md R143). -/
def blakeInit (outlen keylen : Nat) (salt personal : Bytes) : List Word64 :=
  List.zipWith (· ^^^ ·) blakeIV (blakeWords 8 (blakeParams outlen keylen salt personal))

/-- The keyed message: a key, when present, is the first block, padded with zeros (41_blake2b.md R146). -/
def blakeData (msg key : Bytes) : Bytes :=
  if key.isEmpty then msg else fit 128 key ++ msg

/-- The chaining value after all of `data` (41_blake2b.md R146). -/
def blakeAbsorb (h : List Word64) (data : Bytes) : List Word64 :=
  if data.isEmpty then blakeF h (zeros 128) 0 true
  else
    let n := (data.length + 127) / 128
    let h := (List.range (n - 1)).foldl
      (fun h i => blakeF h ((data.drop (128 * i)).take 128) (128 * (i + 1)) false) h
    blakeF h (fit 128 (data.drop (128 * (n - 1)))) data.length true

/-- `BLAKE2b(msg, outlen, key, salt, personal)`; an empty salt or personal stands for 16 zero bytes
(41_blake2b.md R140, R146). -/
def blake2b (msg : Bytes) (outlen : Nat) (key salt personal : Bytes) : Bytes :=
  let h := blakeAbsorb (blakeInit outlen key.length salt personal) (blakeData msg key)
  (h.flatMap fun w => unle 8 w.toNat).take outlen

end Sys2Proof.Machine
end

