-- ==== Sys2Proof/Machine/Keying.lean ====
section
/-! DEFINITION. The key-derivation engine (40_keying.md). -/

namespace Sys2Proof.Machine

/-- `DeriveMaster(password, out_len)` (40_keying.md R130). -/
def deriveMaster (password : Bytes) (outlen : Nat) : Bytes :=
  blake2b password outlen [] [] []

/-- `Salt16(salt)`: the first 16 bytes, zero-padded (40_keying.md R134). -/
def salt16 (salt : Bytes) : Bytes := fit 16 salt

/-- `Pers16(PERSONAL)`: the first 16 bytes, zero-padded (40_keying.md R135). -/
def pers16 (personal : Bytes) : Bytes := fit 16 personal

/-- `DeriveSubkey(master, salt)` under the personalization string `personal` (40_keying.md R133). -/
def deriveSubkey (personal master salt : Bytes) : Bytes :=
  blake2b [] master.length master (salt16 salt) (pers16 personal)

end Sys2Proof.Machine
end

