-- ==== Sys2Proof/Config.lean ====
section
/-! DEFINITION. What an implementation fixes (the configuration record of 00_scope.md R6) and the free values: the AEAD
functions and the answers of the oracles. -/

namespace Sys2Proof

/-- `ROLE`, constant from reset (10_state.md R38). -/
inductive Role where
  | client
  | server
deriving DecidableEq, Repr, Inhabited

/-- The configuration inputs of 00_scope.md R6 that are data. `N_DESC` and `N_CTX` are the lengths of the slot arrays of
the state. A bound of `none` is "unbounded" (92_eei_decisions.md D15). -/
structure Params where
  role : Role
  personal : Bytes
  maxIn : Option Nat
  maxPw : Option Nat
  maxDgram : Option Nat
  /-- `F0`, the filter content after reset (70_reset_and_hazards.md R322). -/
  f0 : List Bytes
deriving DecidableEq, Repr, Inhabited

/-- The parameter values `State.reset` takes: the spec's defaults (`PERSONAL = ss-subkey`, unbounded sizes, `F0 = ∅`) and,
for `ROLE`, which is OPEN, client. DESIGN CHOICE, notes/assumptions/5.md, unsafe: no statement about every state rests on it. -/
def Params.atReset : Params where
  role := .client
  personal := [0x73, 0x73, 0x2d, 0x73, 0x75, 0x62, 0x6b, 0x65, 0x79]
  maxIn := none
  maxPw := none
  maxDgram := none
  f0 := []

/-- What the draw behind one `FilterCheck` decides (45_replay_filter.md R241, R243, R245). -/
inductive CheckDraw where
  /-- The answer tells whether the salt is in `F`. -/
  | faithful
  /-- `Present`, whether or not the salt is in `F`. -/
  | falsePositive
  | internalError
deriving DecidableEq, Repr, Inhabited

/-- What the draw behind one `FilterAdd` decides (45_replay_filter.md R242, R245; 93_implementation_defined.md U16). -/
inductive AddDraw where
  | ok
  /-- `InternalError`, and `F` is unchanged. -/
  | failedClean
  /-- `InternalError`, and `F` has gained the salt. -/
  | failedInserted
deriving DecidableEq, Repr, Inhabited

/-- The AEAD functions of one method: any two functions with the named properties of 42_aead_nonce.md. Determinism (R164) is
that they are functions. What `dec` answers outside the image of `enc` is left free (R165), and so is everything it answers on a
`ct` shorter than the tag, of which the spec states nothing (91_not_in_source.md N21) and which no command presents (R162).
DESIGN CHOICE: the two length laws are put on keys and nonces of every length, where R160 speaks of the method's lengths
(notes/assumptions/6.md). The default field values only show that the type has a member. -/
structure AeadSuite (m : Method) where
  /-- `AEAD_Enc[m](key, nonce, aad, plaintext)` (R160). -/
  enc : Bytes → Bytes → Bytes → Bytes → Bytes := fun _ _ _ p => p ++ List.replicate 16 0
  /-- `AEAD_Dec[m](key, nonce, aad, ct)`; `none` is `AuthFail` (R162). -/
  dec : Bytes → Bytes → Bytes → Bytes → Option Bytes :=
    fun _ _ _ c => if c.length < 16 then none else some (c.take (c.length - 16))
  /-- The length law (R161). -/
  enc_length : ∀ k n a p, (enc k n a p).length = p.length + Machine.tagLen := by simp [Machine.tagLen]
  /-- On success the plaintext has `|ct| - tag_len` bytes, for a `ct` of at least `tag_len` bytes (R162). -/
  dec_length : ∀ k n a c p, Machine.tagLen ≤ c.length → dec k n a c = some p → p.length + Machine.tagLen = c.length := by
    intro k n a c p hc h
    have hc' : ¬ c.length < 16 := by simpa [Machine.tagLen] using hc
    simp only [hc', if_false, Option.some.injEq] at h
    subst h
    simp only [List.length_take, Machine.tagLen]
    omega
  /-- `AEAD_RoundTrip` (R163). -/
  dec_enc : ∀ k n p, k.length = Machine.keyLen m → n.length = Machine.nonceLen m →
    dec k n [] (enc k n [] p) = some p := by simp
deriving Inhabited

namespace Config

/-- FREE VALUE. The AEAD primitives of each method, opaque with their named properties (00_scope.md R4, R6;
42_aead_nonce.md R160 to R165; 92_eei_decisions.md D25). notes/assumptions/6.md. -/
opaque aead : (m : Method) → AeadSuite m

/-- FREE VALUE. Whether `PrimFail` fires at the draw with this ticket (00_scope.md R6, D19). notes/assumptions/7.md. -/
opaque primFails : Nat → Bool

/-- FREE VALUE. Byte `i` of what `Rng` draws at this ticket (46_lifecycle.md R262, D18). notes/assumptions/8.md. -/
opaque rngByte : Nat → Nat → Byte

/-- FREE VALUE. The liberty `FilterCheck` takes at this ticket (45_replay_filter.md R241). notes/assumptions/9.md. -/
opaque checkDraw : Nat → CheckDraw

/-- FREE VALUE. The liberty `FilterAdd` takes at this ticket (45_replay_filter.md R242). notes/assumptions/9.md. -/
opaque addDraw : Nat → AddDraw

/-- FREE VALUE. Whether the filter forgets this salt at this ticket (45_replay_filter.md R244). notes/assumptions/10.md. -/
opaque forgets : Nat → Bytes → Bool

end Config

end Sys2Proof
end

