-- ==== Sys2Proof/Machine/SaltSet.lean ====
section
/-! DEFINITION. The replay filter's content `F` as plain data: a set of byte strings in one canonical form, a list with strictly
rising keys (10_state.md R40, 45_replay_filter.md R240; notes/assumptions/18.md). -/

namespace Sys2Proof.Machine

/-- A number for each byte string, different for different strings: the string's little-endian value under a leading 1. -/
def saltKey (s : Bytes) : Nat := s.foldr (fun b n => b.toNat + 256 * n) 1

/-- `F ∪ {s}` (45_replay_filter.md R242); a salt already present changes nothing. -/
def saltInsert (s : Bytes) : List Bytes → List Bytes
  | [] => [s]
  | t :: ts =>
    if s = t then t :: ts
    else if saltKey s < saltKey t then s :: t :: ts
    else t :: saltInsert s ts

/-- The set of the listed strings in canonical form. -/
def saltSet (l : List Bytes) : List Bytes := l.foldr saltInsert []

/-- The canonical form of `F`: keys strictly rising, so no repeats, and equal sets are equal lists. -/
abbrev SaltSetWf (F : List Bytes) : Prop := F.Pairwise fun s t => saltKey s < saltKey t

end Sys2Proof.Machine
end

