-- ==== Sys2Proof/Machine/State.lean ====
section
/-! DEFINITION. The state of the engine (10_state.md R20 to R44), the status codes, the model's own fields that stand for the
host's commands and the oracles' answers, and the state after reset. -/

namespace Sys2Proof.Machine

/-- One descriptor slot `DESC[d]` (10_state.md R22). -/
structure Descriptor where
  valid : Bool
  method : Method
  /-- 32 bytes of storage, of which the first `key_len(method)` are meaningful and the rest are zero. -/
  masterKey : Bytes
deriving DecidableEq, Repr

/-- The empty descriptor slot, all zero (10_state.md R44). -/
def Descriptor.empty : Descriptor where
  valid := false
  method := .aes128gcm
  masterKey := List.replicate 32 0

/-- One context slot `CTX[c]` (10_state.md R27). -/
structure Context where
  valid : Bool
  /-- The slot index of the descriptor it is bound to. -/
  desc : Nat
  dir : Direction
  /-- 0 = FRESH or AWAIT_SALT, 1 = ARMED or STREAM. -/
  init : Bool
  dead : Bool
  /-- 32 bytes of storage, the first `key_len` meaningful. -/
  salt : Bytes
  /-- 32 bytes of storage, the first `key_len` meaningful. -/
  subkey : Bytes
  /-- 24 bytes of storage, the first `nonce_len` meaningful; little-endian. -/
  nonce : Bytes
  /-- The reassembly buffer, oldest byte first. -/
  rbuf : Bytes
deriving DecidableEq, Repr

/-- The empty context slot, all zero (10_state.md R44). -/
def Context.empty : Context where
  valid := false
  desc := 0
  dir := .encrypt
  init := false
  dead := false
  salt := List.replicate 32 0
  subkey := List.replicate 32 0
  nonce := List.replicate 24 0
  rbuf := []

/-- The status of a response (30_encoding.md R102). -/
inductive Status where
  | ok
  | needMore
  | authFail
  | replayDetected
  | tooShort
  | internal
  | nonceExhausted
  | refused
deriving DecidableEq, Repr, Inhabited

/-- A response `(status, out)` (30_encoding.md R98). -/
structure Response where
  status : Status
  out : Bytes
deriving DecidableEq, Repr

/-- What reaches the engine from outside: a command `(word, in)` (30_encoding.md R98) or the reset event
(70_reset_and_hazards.md R320). -/
inductive HostEvent where
  | command (word : CommandWord) (input : Bytes)
  | reset
deriving DecidableEq, Repr

/-- The answers the devices of 60_exceptions.md R299 give next. The model's own field: each list is consumed from the front;
where it has run out the answer is a free value of `Config` applied to `ticket`, which every draw advances
(notes/assumptions/7.md to 11.md). -/
structure Env where
  /-- Whether `PrimFail` fires, one entry per primitive call. -/
  prim : List Bool
  /-- The bytes `Rng` draws. -/
  rng : Bytes
  /-- One entry per `FilterCheck`. -/
  check : List CheckDraw
  /-- One entry per `FilterAdd`. -/
  add : List AddDraw
  /-- The salts the filter forgets, one entry per filter operation. -/
  forget : List (List Bytes)
  ticket : Nat
deriving DecidableEq, Repr

/-- No answer fixed in advance: every draw is a free value. -/
def Env.unknown : Env where
  prim := []
  rng := []
  check := []
  add := []
  forget := []
  ticket := 0

/-- The state: the slots and the filter content (10_state.md R20), the configuration inputs (R38, R39; notes/assumptions/5.md),
and the model's own fields `env`, `inbox` and `response` (notes/assumptions/1.md, 2.md, 11.md). -/
structure State where
  cfg : Params
  /-- `DESC[0 .. N_DESC-1]`; its length is `N_DESC`. -/
  desc : List Descriptor
  /-- `CTX[0 .. N_CTX-1]`; its length is `N_CTX`. -/
  ctx : List Context
  /-- The replay filter's content `F`. -/
  filter : List Bytes
  env : Env
  /-- The host's events that the engine has not sampled yet, oldest first. -/
  inbox : List HostEvent
  /-- The response of the last command, `none` before the first. -/
  response : Option Response
deriving DecidableEq, Repr

/-- Why the machine stops. The spec names no such event: every failure of a command is a status of its response. -/
inductive Fault where
  /-- Raised by `TCP_ENCRYPT` and `TCP_DECRYPT` on a live context whose `desc` is no descriptor slot. No run reaches such a
  state (46_lifecycle.md R263d: the reference "never dangles"). Safe. notes/assumptions/13.md. -/
  | danglingDescriptor
deriving DecidableEq, Repr

/-- Why an instruction has no meaning. -/
inductive Refusal where
  /-- The instruction is not modelled yet. Raised by no arm of this model; safe. -/
  | notModelled (mnemonic : String)
deriving DecidableEq, Repr

/-- The state after reset of an engine with `nDesc` descriptor slots, `nCtx` context slots and the configuration `cfg`
(10_state.md R44). -/
def State.resetWith (nDesc nCtx : Nat) (cfg : Params) : State where
  cfg := cfg
  desc := List.replicate nDesc Descriptor.empty
  ctx := List.replicate nCtx Context.empty
  filter := saltSet cfg.f0
  env := Env.unknown
  inbox := []
  response := none

/-- The state after reset (10_state.md R44, 70_reset_and_hazards.md R320), with the OPEN parameters of 00_scope.md R6 at the
values of notes/assumptions/5.md: 256 slots of each kind and `Params.atReset`. DESIGN CHOICE, unsafe. -/
def State.reset : State := State.resetWith 256 256 Params.atReset

end Sys2Proof.Machine
end

