-- ==== Sys2Proof/Machine/Flags.lean ====
section
/-! DEFINITION. The one-bit flags and what is computed from them: phases (10_state.md R36, R37), the reference count
(R25), and the status codes (30_encoding.md R102). -/

namespace Sys2Proof.Machine

/-- `refs(d)`: how many valid contexts refer to descriptor `d`, dead ones included (10_state.md R25, 46_lifecycle.md R260). -/
def State.refs (s : State) (d : Nat) : Nat :=
  s.ctx.countP fun x => x.valid && decide (x.desc = d)

/-- The code of a status (30_encoding.md R102). -/
def statusCode : Status → Nat
  | .ok => 0
  | .needMore => 1
  | .authFail => 2
  | .replayDetected => 3
  | .tooShort => 4
  | .internal => 5
  | .nonceExhausted => 6
  | .refused => 7

/-- The statuses that kill a context (60_exceptions.md R290). -/
def killsContext : Status → Bool
  | .authFail => true
  | .replayDetected => true
  | .nonceExhausted => true
  | .internal => true
  | .ok => false
  | .needMore => false
  | .tooShort => false
  | .refused => false

/-- The phase of a context (10_state.md R36, 44_tcp.md R220 to R222). -/
inductive Phase where
  /-- FRESH of an encrypt context, AWAIT_SALT of a decrypt context. -/
  | start
  /-- ARMED of an encrypt context, STREAM of a decrypt context. -/
  | running
  | dead
deriving DecidableEq, Repr

/-- The phase that the flags `init` and `dead` encode (10_state.md R36). -/
def Context.phase (x : Context) : Phase :=
  if x.dead then .dead else if x.init then .running else .start

end Sys2Proof.Machine
end

