-- ==== Sys2Proof/Machine/Operands.lean ====
section
/-! DEFINITION. Operand forms: the slots a command names with the preconditions of 60_exceptions.md R296, the size bounds,
the meaningful part of a stored field, and the reassembly-buffer primitives of 20_memory.md R62 to R64. -/

namespace Sys2Proof.Machine

/-- `in` is within a size bound; no bound admits every length (00_scope.md R6, 60_exceptions.md R296 condition 5). -/
def fits (bound : Option Nat) (n : Nat) : Bool :=
  match bound with
  | none => true
  | some most => decide (n ≤ most)

/-- The named descriptor slot, if it exists and holds a descriptor (60_exceptions.md R296 conditions 3 and 7). -/
def State.validDesc (s : State) (d : Nat) : Option Descriptor :=
  match s.desc[d]? with
  | some D => if D.valid then some D else none
  | none => none

/-- The named descriptor slot exists and is empty (60_exceptions.md R296 conditions 3 and 6). -/
def State.descEmpty (s : State) (d : Nat) : Bool :=
  match s.desc[d]? with
  | some D => !D.valid
  | none => false

/-- The named context slot exists and is empty (60_exceptions.md R296 conditions 3 and 9). -/
def State.ctxEmpty (s : State) (c : Nat) : Bool :=
  match s.ctx[c]? with
  | some x => !x.valid
  | none => false

/-- The named context slot exists and holds a context (60_exceptions.md R296 conditions 3 and 10). -/
def State.ctxValid (s : State) (c : Nat) : Bool :=
  match s.ctx[c]? with
  | some x => x.valid
  | none => false

/-- The context that a TCP command of direction `dir` with an input of `n` bytes may work on
(60_exceptions.md R296 conditions 3, 5, 10, 11 and 12). -/
def State.liveCtx (s : State) (c : Nat) (dir : Direction) (n : Nat) : Option Context :=
  match s.ctx[c]? with
  | some x =>
    if x.valid && decide (x.dir = dir) && !x.dead && fits s.cfg.maxIn n then some x else none
  | none => none

/-- The descriptor a UDP command with an input of `n` bytes may use (60_exceptions.md R296 conditions 3, 5 and 7). -/
def State.udpDesc (s : State) (d n : Nat) : Option Descriptor :=
  if fits s.cfg.maxDgram n then s.validDesc d else none

/-- The master key: the first `key_len` bytes of the stored 32 (10_state.md R22). -/
def Descriptor.key (D : Descriptor) : Bytes := D.masterKey.take (keyLen D.method)

/-- The context's salt under method `m`: the first `key_len` bytes of the stored 32 (10_state.md R27). -/
def Context.liveSalt (x : Context) (m : Method) : Bytes := x.salt.take (keyLen m)

/-- The context's subkey under method `m`: the first `key_len` bytes of the stored 32 (10_state.md R27). -/
def Context.liveSubkey (x : Context) (m : Method) : Bytes := x.subkey.take (keyLen m)

/-- `RbufAppend` (20_memory.md R62). -/
def Context.rbufAppend (x : Context) (s : Bytes) : Context := { x with rbuf := x.rbuf ++ s }

/-- `RbufPeek(c, a, b)` (20_memory.md R63). -/
def Context.rbufPeek (x : Context) (a b : Nat) : Bytes := (x.rbuf.drop a).take (b - a)

/-- `RbufDrop(c, n)` (20_memory.md R64). -/
def Context.rbufDrop (x : Context) (n : Nat) : Context := { x with rbuf := x.rbuf.drop n }

end Sys2Proof.Machine
end

