-- ==== Sys2Proof/Machine/Ops.lean ====
section
/-! DEFINITION. The named operations on the state: slot writes, responses, refusal, fatal entry (60_exceptions.md R290), the
reset event, and the draws of the oracles (00_scope.md R6). -/

namespace Sys2Proof.Machine

/-- Write a descriptor slot whole (20_memory.md R71). -/
def State.setDesc (s : State) (d : Nat) (D : Descriptor) : State := { s with desc := s.desc.set d D }

/-- Write a context slot whole (20_memory.md R71). -/
def State.setCtx (s : State) (c : Nat) (x : Context) : State := { s with ctx := s.ctx.set c x }

/-- Set what the oracles answer next. -/
def State.setEnv (s : State) (e : Env) : State := { s with env := e }

/-- End the command with a response (30_encoding.md R98, 60_exceptions.md R280). -/
def State.respond (s : State) (st : Status) (out : Bytes) : State :=
  { s with response := some { status := st, out := out } }

/-- The response `(Refused, ε)`; nothing else changes (60_exceptions.md R295). -/
def State.refuse (s : State) : State := s.respond .refused []

/-- FATAL ENTRY on context `c`, whose fields are `x` when status `st` is raised: `dead` is set, the output is discarded,
everything else stays as the statements before wrote it (60_exceptions.md R290). -/
def State.raise (s : State) (c : Nat) (x : Context) (st : Status) : State :=
  (s.setCtx c { x with dead := true }).respond st []

/-- The reset event: every slot zero, the filter `F0`; the configuration, the environment and the host's later events stay
(70_reset_and_hazards.md R320, R321; notes/assumptions/17.md). There is no return from a fatal status but this and
`CTX_FREE` (60_exceptions.md R291). -/
def State.resetEvent (s : State) : State :=
  { State.resetWith s.desc.length s.ctx.length s.cfg with env := s.env, inbox := s.inbox }

/-- Whether the next primitive call fails: the draw `PrimFail` (00_scope.md R6, 92_eei_decisions.md D19). -/
def Env.primFires (e : Env) : Bool := e.prim.headD (Config.primFails e.ticket)

/-- The environment after one `PrimFail` draw. -/
def Env.afterPrim (e : Env) : Env := { e with prim := e.prim.tail, ticket := e.ticket + 1 }

/-- The next `n` bytes of the CSPRNG: `Rng(n)` (60_exceptions.md R299a). -/
def Env.rngBytes (e : Env) (n : Nat) : Bytes :=
  (List.range n).map fun i => e.rng.getD i (Config.rngByte e.ticket i)

/-- The environment after `Rng(n)`. -/
def Env.afterRng (e : Env) (n : Nat) : Env := { e with rng := e.rng.drop n, ticket := e.ticket + 1 }

/-- The liberty the next `FilterCheck` takes. -/
def Env.checkDraw (e : Env) : CheckDraw := e.check.headD (Config.checkDraw e.ticket)

/-- The environment after one `FilterCheck` draw. -/
def Env.afterCheck (e : Env) : Env := { e with check := e.check.tail, ticket := e.ticket + 1 }

/-- The liberty the next `FilterAdd` takes. -/
def Env.addDraw (e : Env) : AddDraw := e.add.headD (Config.addDraw e.ticket)

/-- The environment after one `FilterAdd` draw. -/
def Env.afterAdd (e : Env) : Env := { e with add := e.add.tail, ticket := e.ticket + 1 }

/-- Whether the filter forgets this salt before its next operation (45_replay_filter.md R244). -/
def Env.forgets (e : Env) (salt : Bytes) : Bool :=
  match e.forget with
  | gone :: _ => gone.contains salt
  | [] => Config.forgets e.ticket salt

/-- The environment after one eviction draw. -/
def Env.afterForget (e : Env) : Env := { e with forget := e.forget.tail, ticket := e.ticket + 1 }

end Sys2Proof.Machine
end

