-- ==== Sys2Proof/Machine/Lifecycle.lean ====
section
/-! DEFINITION. The lifecycle commands CIPHER_INIT, CIPHER_FREE, CTX_NEW, CTX_FREE (46_lifecycle.md). -/

namespace Sys2Proof.Machine

/-- The descriptor that `CIPHER_INIT` writes (46_lifecycle.md R256). -/
def newDescriptor (m : Method) (password : Bytes) : Descriptor where
  valid := true
  method := m
  masterKey := fit 32 (deriveMaster password (keyLen m))

/-- `CIPHER_INIT` once accepted: one `PrimFail` draw, for BLAKE2b (46_lifecycle.md R256, R257). -/
def cipherInitAccepted (d : Nat) (m : Method) (password : Bytes) (s : State) : State :=
  let drawn := s.setEnv s.env.afterPrim
  if s.env.primFires then drawn.respond .internal []
  else (drawn.setDesc d (newDescriptor m password)).respond .ok []

/-- `CIPHER_INIT d, method, in` (46_lifecycle.md R256 to R258). -/
def execCipherInit (d : Nat) (m : Method) (password : Bytes) (s : State) : Host.Outcome State Fault Refusal :=
  .next (if s.descEmpty d && fits s.cfg.maxPw password.length then cipherInitAccepted d m password s else s.refuse)

/-- `CIPHER_FREE d`: refused while a valid context refers to the slot (46_lifecycle.md R259, R260). -/
def execCipherFree (d : Nat) (s : State) : Host.Outcome State Fault Refusal :=
  .next (if (s.validDesc d).isSome && s.refs d == 0 then (s.setDesc d Descriptor.empty).respond .ok [] else s.refuse)

/-- The context that `CTX_NEW` writes, with the salt `salt` (empty for a decrypt context, whose salt stays zero)
(46_lifecycle.md R261). -/
def newContext (d : Nat) (dir : Direction) (salt : Bytes) : Context :=
  { Context.empty with valid := true, desc := d, dir := dir, salt := fit 32 salt }

/-- `CTX_NEW` once accepted, on a descriptor of method `m`. An encrypt context draws its salt; if the CSPRNG fails the slot is
left empty (46_lifecycle.md R261, R262). -/
def ctxNewAccepted (d c : Nat) (dir : Direction) (m : Method) (s : State) : State :=
  match dir with
  | .decrypt => (s.setCtx c (newContext d .decrypt [])).respond .ok []
  | .encrypt =>
    if s.env.primFires then (s.setEnv s.env.afterPrim).respond .internal []
    else ((s.setEnv (s.env.afterPrim.afterRng (keyLen m))).setCtx c
      (newContext d .encrypt (s.env.afterPrim.rngBytes (keyLen m)))).respond .ok []

/-- `CTX_NEW d, c, dir` (46_lifecycle.md R261 to R263). -/
def execCtxNew (d c : Nat) (dir : Direction) (s : State) : Host.Outcome State Fault Refusal :=
  match s.validDesc d with
  | some D => .next (if s.ctxEmpty c then ctxNewAccepted d c dir D.method s else s.refuse)
  | none => .next s.refuse

/-- `CTX_FREE c`: wipes the whole slot, in every phase (46_lifecycle.md R264, R265). -/
def execCtxFree (c : Nat) (s : State) : Host.Outcome State Fault Refusal :=
  .next (if s.ctxValid c then (s.setCtx c Context.empty).respond .ok [] else s.refuse)

end Sys2Proof.Machine
end

