-- ==== Sys2Proof/Machine/Nonce.lean ====
section
/-! DEFINITION. The nonce manager (42_aead_nonce.md R169 to R171). -/

namespace Sys2Proof.Machine

/-- `NonceInc(n)`: little-endian +1 over the whole string, the carry out of the last byte discarded (42_aead_nonce.md R170). -/
def nonceInc (n : Bytes) : Bytes := unle n.length ((le n + 1) % 256 ^ n.length)

/-- The nonce as the AEAD call sees it: the first `nonce_len` bytes of the stored 24, in storage order (20_memory.md R66). -/
def liveNonce (m : Method) (stored : Bytes) : Bytes := stored.take (nonceLen m)

/-- The stored field that holds a nonce: the nonce, then zeros to 24 bytes (10_state.md R27). -/
def storeNonce (n : Bytes) : Bytes := fit 24 n

/-- `NonceZero`, as stored (42_aead_nonce.md R169). -/
def storedZeroNonce (m : Method) : Bytes := storeNonce (zeros (nonceLen m))

/-- The exhaustion test before a chunk: `le(nonce) >= 256^L - 2` (42_aead_nonce.md R171). -/
def nonceSpent (m : Method) (stored : Bytes) : Bool :=
  decide (256 ^ nonceLen m - 2 ≤ le (liveNonce m stored))

/-- The stored nonce after a chunk: two increments committed together (44_tcp.md R205, R214). -/
def nonceAfterChunk (m : Method) (stored : Bytes) : Bytes :=
  storeNonce (nonceInc (nonceInc (liveNonce m stored)))

end Sys2Proof.Machine
end

