-- ==== Sys2Proof/Machine/Aead.lean ====
section
/-! DEFINITION. The AEAD adapter (42_aead_nonce.md R160 to R166): the opaque primitives with empty associated data, and the two
AEAD outputs of one chunk (30_encoding.md R91 to R93). -/

namespace Sys2Proof.Machine

/-- `AEAD_Enc[m](key, nonce, ε, plaintext)` (42_aead_nonce.md R160, R166). -/
def aeadEnc (m : Method) (key nonce plain : Bytes) : Bytes := (Config.aead m).enc key nonce [] plain

/-- `AEAD_Dec[m](key, nonce, ε, ct)`; `none` is `AuthFail` (42_aead_nonce.md R162, R166). -/
def aeadDec (m : Method) (key nonce ct : Bytes) : Option Bytes := (Config.aead m).dec key nonce [] ct

/-- One chunk on the wire: the encrypted length and the encrypted payload, under the nonce `n0` and the next one
(30_encoding.md R91 to R93, 44_tcp.md R205). -/
def chunkFrame (m : Method) (subkey n0 q : Bytes) : Bytes :=
  aeadEnc m subkey n0 (be16 q.length) ++ aeadEnc m subkey (nonceInc n0) q

/-- `NonceZero(nonce_len)`, the nonce of every datagram (43_udp.md R185). -/
def udpNonce (m : Method) : Bytes := zeros (nonceLen m)

end Sys2Proof.Machine
end

