-- ==== Sys2Proof/Machine/ReplayFilter.lean ====
section
/-! DEFINITION. The replay-filter probe `FilterCheck` and `FilterAdd` with the liberties the contract admits
(45_replay_filter.md R240 to R245). -/

namespace Sys2Proof.Machine

/-- The answers of `check` (45_replay_filter.md R240). -/
inductive CheckAnswer where
  | absent
  | present
  | internalError
deriving DecidableEq, Repr

/-- The answers of `add` (45_replay_filter.md R240). -/
inductive AddAnswer where
  | ok
  | internalError
deriving DecidableEq, Repr

/-- Eviction: before an operation the filter may forget salts, `F <- F'` with `F' ⊆ F` (45_replay_filter.md R244). -/
def State.evict (s : State) : State :=
  { s with filter := s.filter.filter fun t => !s.env.forgets t, env := s.env.afterForget }

/-- The answer of `FilterCheck(salt)` (45_replay_filter.md R241, R243, R245). -/
def State.checkAnswer (s : State) (salt : Bytes) : CheckAnswer :=
  match s.evict.env.checkDraw with
  | .faithful => if s.evict.filter.contains salt then .present else .absent
  | .falsePositive => .present
  | .internalError => .internalError

/-- The state after a `FilterCheck`: evictions and the draws only (45_replay_filter.md R241). -/
def State.afterCheck (s : State) : State := s.evict.setEnv s.evict.env.afterCheck

/-- The answer of `FilterAdd` (45_replay_filter.md R242). -/
def State.addAnswer (s : State) : AddAnswer :=
  match s.evict.env.addDraw with
  | .ok => .ok
  | .failedClean => .internalError
  | .failedInserted => .internalError

/-- The state after `FilterAdd(salt)`: `F ∪ {salt}` on `Ok`; on `InternalError` either that or `F`
(45_replay_filter.md R242). -/
def State.afterAdd (s : State) (salt : Bytes) : State :=
  match s.evict.env.addDraw with
  | .ok => { s.evict with filter := saltInsert salt s.evict.filter, env := s.evict.env.afterAdd }
  | .failedClean => s.evict.setEnv s.evict.env.afterAdd
  | .failedInserted => { s.evict with filter := saltInsert salt s.evict.filter, env := s.evict.env.afterAdd }

end Sys2Proof.Machine
end

