-- ==== Sys2Proof/Machine/Tcp.lean ====
section
/-! DEFINITION. The TCP chunk codec TCP_ENCRYPT, TCP_DECRYPT (44_tcp.md). -/

namespace Sys2Proof.Machine

/-- What a codec loop has reached: the context, the environment, the output so far, and the status raised, if any. -/
structure Run where
  ctx : Context
  env : Env
  out : Bytes
  raised : Option Status
deriving DecidableEq, Repr

/-- End a TCP command: fatal entry if a status was raised, else write the context back and answer `st` with the output. -/
def State.endRun (s : State) (c : Nat) (r : Run) (st : Status) : State :=
  match r.raised with
  | some fatal => (s.setEnv r.env).raise c r.ctx fatal
  | none => ((s.setEnv r.env).setCtx c r.ctx).respond st r.out

/-- The context with its subkey derived and stored, the phase not yet changed (44_tcp.md R201, R208; 40_keying.md R133). -/
def Context.keyed (x : Context) (cfg : Params) (D : Descriptor) : Context :=
  { x with subkey := fit 32 (deriveSubkey cfg.personal D.key (x.liveSalt D.method)) }

/-- The context with `init` flipped and the nonce zeroed (44_tcp.md R203, R209; 42_aead_nonce.md R169). -/
def Context.started (x : Context) (m : Method) : Context :=
  { x with init := true, nonce := storedZeroNonce m }

/-- The pieces of at most `0x3FFF` bytes, each but the last full; `n` bounds the number of pieces. -/
def splitUpTo : Nat → Bytes → List Bytes
  | 0, _ => []
  | n + 1, p => if p.isEmpty then [] else p.take chunkMax :: splitUpTo n (p.drop chunkMax)

/-- `Split(p)`, the greedy split (44_tcp.md R204). -/
def splitChunks (p : Bytes) : List Bytes := splitUpTo p.length p

/-- One pass of the encoder's loop, for the piece `q`: the exhaustion test, two AEAD calls with a `PrimFail` draw each, the
nonce advanced by two (44_tcp.md R201, R205; 42_aead_nonce.md R171). -/
def encryptPass (m : Method) (q : Bytes) (r : Run) : Run :=
  let e1 := r.env.afterPrim
  let e2 := e1.afterPrim
  if nonceSpent m r.ctx.nonce then { r with raised := some .nonceExhausted }
  else if r.env.primFires then { r with env := e1, raised := some .internal }
  else if e1.primFires then { r with env := e2, raised := some .internal }
  else
    { ctx := { r.ctx with nonce := nonceAfterChunk m r.ctx.nonce }
      env := e2
      out := r.out ++ chunkFrame m (r.ctx.liveSubkey m) (liveNonce m r.ctx.nonce) q
      raised := none }

/-- The encoder's loop over the pieces; a raised status ends it (44_tcp.md R201). -/
def encryptLoop (m : Method) : List Bytes → Run → Run
  | [], r => r
  | q :: qs, r =>
    match (encryptPass m q r).raised with
    | some _ => encryptPass m q r
    | none => encryptLoop m qs (encryptPass m q r)

/-- `TCP_ENCRYPT` on an acceptable context `x` of descriptor `D` (44_tcp.md R201 to R207). -/
def tcpEncryptAccepted (c : Nat) (plain : Bytes) (x : Context) (D : Descriptor) (s : State) : State :=
  let m := D.method
  if plain.isEmpty then s.respond .ok []
  else if x.init then
    s.endRun c (encryptLoop m (splitChunks plain) { ctx := x, env := s.env, out := [], raised := none }) .ok
  else if s.env.primFires then (s.setEnv s.env.afterPrim).raise c (x.keyed s.cfg D) .internal
  else
    s.endRun c (encryptLoop m (splitChunks plain)
      { ctx := (x.keyed s.cfg D).started m, env := s.env.afterPrim, out := x.liveSalt m, raised := none }) .ok

/-- `TCP_ENCRYPT c, in` (44_tcp.md R201). -/
def execTcpEncrypt (c : Nat) (plain : Bytes) (s : State) : Host.Outcome State Fault Refusal :=
  match s.liveCtx c .encrypt plain.length with
  | none => .next s.refuse
  | some x =>
    match s.desc[x.desc]? with
    | some D => .next (tcpEncryptAccepted c plain x D s)
    | none => .fault .danglingDescriptor

/-- What one pass of the decoder's loop did. -/
inductive Pass where
  /-- The loop ends without a status: step 1 or step 4; nothing is consumed. -/
  | stop (env : Env)
  /-- A fatal status is raised. -/
  | raised (st : Status) (env : Env)
  /-- A whole chunk is consumed, with its plaintext. -/
  | took (ctx : Context) (env : Env) (plain : Bytes)
deriving DecidableEq, Repr

/-- Steps 5 and 6 for a chunk whose payload is `mlen` bytes and wholly buffered: decrypt the payload under the next nonce,
commit both increments, drop the chunk (44_tcp.md R214). -/
def decryptPayload (m : Method) (x : Context) (mlen : Nat) (e : Env) : Pass :=
  let chunkLen := 2 + 2 * tagLen + mlen
  if e.primFires then .raised .internal e.afterPrim
  else
    match aeadDec m (x.liveSubkey m) (nonceInc (liveNonce m x.nonce)) (x.rbufPeek (2 + tagLen) chunkLen) with
    | none => .raised .authFail e.afterPrim
    | some plain => .took { x.rbufDrop chunkLen with nonce := nonceAfterChunk m x.nonce } e.afterPrim plain

/-- One pass of the decoder's loop, steps 1 to 6 (44_tcp.md R208, R210 to R214; 42_aead_nonce.md R171). -/
def decryptPass (m : Method) (x : Context) (e : Env) : Pass :=
  if x.rbuf.length ≤ 2 + 2 * tagLen then .stop e
  else if nonceSpent m x.nonce then .raised .nonceExhausted e
  else if e.primFires then .raised .internal e.afterPrim
  else
    match aeadDec m (x.liveSubkey m) (liveNonce m x.nonce) (x.rbufPeek 0 (2 + tagLen)) with
    | none => .raised .authFail e.afterPrim
    | some lr =>
      let mlen := unbe16 lr
      if mlen = 0 ∨ chunkMax < mlen then .raised .authFail e.afterPrim
      else if x.rbuf.length < 2 + 2 * tagLen + mlen then .stop e.afterPrim
      else decryptPayload m x mlen e.afterPrim

/-- The decoder's loop. Each pass that goes on drops at least 35 bytes, so as many passes as the buffer has bytes are enough
(44_tcp.md R208, R215; notes/assumptions/19.md). -/
def decryptLoop (m : Method) : Nat → Run → Run
  | 0, r => r
  | n + 1, r =>
    match decryptPass m r.ctx r.env with
    | .stop e => { r with env := e }
    | .raised st e => { r with env := e, raised := some st }
    | .took x e plain => decryptLoop m n { ctx := x, env := e, out := r.out ++ plain, raised := none }

/-- The status of a `TCP_DECRYPT` whose loop raised nothing: `OK` if any chunk was consumed, else `NeedMore`
(44_tcp.md R216). -/
def decryptStatus (out : Bytes) : Status := if out.isEmpty then .needMore else .ok

/-- STREAM: the loop on the buffered bytes (44_tcp.md R210 to R216). -/
def tcpStream (c : Nat) (x : Context) (m : Method) (s : State) : State :=
  let r := decryptLoop m x.rbuf.length { ctx := x, env := s.env, out := [], raised := none }
  s.endRun c r (decryptStatus r.out)

/-- The end of AWAIT_SALT: the subkey derived, the nonce zeroed, the salt dropped, `init` set; then the loop
(44_tcp.md R208, R209). -/
def tcpStreamStart (c : Nat) (x : Context) (D : Descriptor) (s : State) : State :=
  let s1 := s.setEnv s.env.afterPrim
  if s.env.primFires then s1.raise c (x.keyed s.cfg D) .internal
  else tcpStream c (((x.keyed s.cfg D).rbufDrop (keyLen D.method)).started D.method) D.method s1

/-- AWAIT_SALT with the whole salt buffered: store it, probe the filter in the server role (check, then add), go on
(44_tcp.md R209, 45_replay_filter.md R246). -/
def tcpTakeSalt (c : Nat) (x : Context) (D : Descriptor) (s : State) : State :=
  let salt := x.rbufPeek 0 (keyLen D.method)
  let x1 := { x with salt := fit 32 salt }
  match s.cfg.role with
  | .client => tcpStreamStart c x1 D s
  | .server =>
    match s.checkAnswer salt with
    | .present => s.afterCheck.raise c x1 .replayDetected
    | .internalError => s.afterCheck.raise c x1 .internal
    | .absent =>
      match s.afterCheck.addAnswer with
      | .internalError => (s.afterCheck.afterAdd salt).raise c x1 .internal
      | .ok => tcpStreamStart c x1 D (s.afterCheck.afterAdd salt)

/-- `TCP_DECRYPT` on an acceptable context `x` of descriptor `D` (44_tcp.md R208 to R219). -/
def tcpDecryptAccepted (c : Nat) (arrived : Bytes) (x : Context) (D : Descriptor) (s : State) : State :=
  let x1 := x.rbufAppend arrived
  if x.init then tcpStream c x1 D.method s
  else if x1.rbuf.length < keyLen D.method then (s.setCtx c x1).respond .needMore []
  else tcpTakeSalt c x1 D s

/-- `TCP_DECRYPT c, in` (44_tcp.md R208). -/
def execTcpDecrypt (c : Nat) (arrived : Bytes) (s : State) : Host.Outcome State Fault Refusal :=
  match s.liveCtx c .decrypt arrived.length with
  | none => .next s.refuse
  | some x =>
    match s.desc[x.desc]? with
    | some D => .next (tcpDecryptAccepted c arrived x D s)
    | none => .fault .danglingDescriptor

end Sys2Proof.Machine
end

