-- ==== Sys2Proof/Machine/Udp.lean ====
section
/-! DEFINITION. The UDP codec UDP_ENCRYPT, UDP_DECRYPT (43_udp.md). -/

namespace Sys2Proof.Machine

/-- `UDP_ENCRYPT` once accepted: the salt drawn, then one AEAD call under the master key and the zero nonce; a `PrimFail` draw
for each (43_udp.md R181, R182). -/
def udpEncryptAccepted (D : Descriptor) (plain : Bytes) (s : State) : State :=
  let e1 := s.env.afterPrim
  let e2 := e1.afterRng (keyLen D.method)
  if s.env.primFires then (s.setEnv e1).respond .internal []
  else if e2.primFires then (s.setEnv e2.afterPrim).respond .internal []
  else (s.setEnv e2.afterPrim).respond .ok
    (e1.rngBytes (keyLen D.method) ++ aeadEnc D.method D.key (udpNonce D.method) plain)

/-- `UDP_ENCRYPT d, in` (43_udp.md R181). -/
def execUdpEncrypt (d : Nat) (plain : Bytes) (s : State) : Host.Outcome State Fault Refusal :=
  match s.udpDesc d plain.length with
  | some D => .next (udpEncryptAccepted D plain s)
  | none => .next s.refuse

/-- Step 5 of `UDP_DECRYPT`: the insertion, server role only, only after the tag has verified (43_udp.md R183). -/
def udpInsert (salt plain : Bytes) (s : State) : State :=
  match s.cfg.role with
  | .client => s.respond .ok plain
  | .server =>
    match s.addAnswer with
    | .internalError => (s.afterAdd salt).respond .internal []
    | .ok => (s.afterAdd salt).respond .ok plain

/-- Steps 4 to 6 of `UDP_DECRYPT`: verification, insertion, plaintext (43_udp.md R183). -/
def udpOpen (D : Descriptor) (salt body : Bytes) (s : State) : State :=
  let s1 := s.setEnv s.env.afterPrim
  if s.env.primFires then s1.respond .internal []
  else
    match aeadDec D.method D.key (udpNonce D.method) body with
    | none => s1.respond .authFail []
    | some plain => udpInsert salt plain s1

/-- `UDP_DECRYPT` once accepted: length check, replay check, verification, insertion, in this order
(43_udp.md R183, R184). -/
def udpDecryptAccepted (D : Descriptor) (datagram : Bytes) (s : State) : State :=
  let k := keyLen D.method
  if datagram.length ≤ k + tagLen then s.respond .tooShort []
  else
    let salt := datagram.take k
    let body := datagram.drop k
    match s.cfg.role with
    | .client => udpOpen D salt body s
    | .server =>
      match s.checkAnswer salt with
      | .present => s.afterCheck.respond .replayDetected []
      | .internalError => s.afterCheck.respond .internal []
      | .absent => udpOpen D salt body s.afterCheck

/-- `UDP_DECRYPT d, in` (43_udp.md R183). No failure of this command touches a slot (43_udp.md R180). -/
def execUdpDecrypt (d : Nat) (datagram : Bytes) (s : State) : Host.Outcome State Fault Refusal :=
  match s.udpDesc d datagram.length with
  | some D => .next (udpDecryptAccepted D datagram s)
  | none => .next s.refuse

end Sys2Proof.Machine
end

