-- ==== Sys2Proof/Machine/Dispatch.lean ====
section
/-! DEFINITION. The dispatch of an instruction to its meaning. -/

namespace Sys2Proof.Machine

/-- Run one command to its response (30_encoding.md R100): one arm per row of the opcode table. -/
def exec (i : Instr) (s : State) : Host.Outcome State Fault Refusal :=
  match i with
  | .cipherInit d m password => Sys2Proof.Machine.execCipherInit d m password s
  | .cipherFree d => Sys2Proof.Machine.execCipherFree d s
  | .ctxNew d c dir => Sys2Proof.Machine.execCtxNew d c dir s
  | .ctxFree c => Sys2Proof.Machine.execCtxFree c s
  | .tcpEncrypt c plain => Sys2Proof.Machine.execTcpEncrypt c plain s
  | .tcpDecrypt c arrived => Sys2Proof.Machine.execTcpDecrypt c arrived s
  | .udpEncrypt d plain => Sys2Proof.Machine.execUdpEncrypt d plain s
  | .udpDecrypt d datagram => Sys2Proof.Machine.execUdpDecrypt d datagram s

end Sys2Proof.Machine
end

