-- ==== Sys2Proof/Machine/Step.lean ====
section
/-! DEFINITION. One step of the machine: the engine samples the host's oldest event and runs it to its response
(10_state.md R36, 20_memory.md R70; notes/assumptions/1.md). -/

namespace Sys2Proof.Machine

/-- The state with the host's later events only. -/
def State.withInbox (s : State) (later : List HostEvent) : State := { s with inbox := later }

/-- Run one command `(word, in)`: a word with no meaning is answered `Refused` (30_encoding.md R103). -/
def runCommand (word : CommandWord) (input : Bytes) (s : State) : Host.Outcome State Fault Refusal :=
  match decode word input with
  | .ok i => exec i s
  | .error _ => .next s.refuse

/-- One step. With no event pending the block waits for the host (70_reset_and_hazards.md R320). -/
def step (s : State) : Host.Outcome State Fault Refusal :=
  match s.inbox with
  | [] => .next s
  | .reset :: later => .next (s.withInbox later).resetEvent
  | .command word input :: later => runCommand word input (s.withInbox later)

/-- `s` with the command of word `w` and an empty input as the host's oldest event (notes/assumptions/3.md). -/
def State.withFetchWord (s : State) (nbits w : Nat) : State :=
  s.withInbox (.command (BitVec.ofNat 32 (w % 2 ^ nbits)) [] :: s.inbox)

end Sys2Proof.Machine
end

