-- ==== Sys2Proof/Safety.lean ====
section
/-! DEFINITION. The terms that claims about the machine use: the invariant of the state, the hypothesis that no primitive fails,
tamper detection as a named hypothesis, the two ends of a TCP stream, and a TCP command that has come to one of its chunks. -/

namespace Sys2Proof.Machine

/-- The ranges of 00_scope.md R6: `PERSONAL` has 1 to 16 bytes, `F0` holds salts (10_state.md R40). -/
structure ParamsWf (cfg : Params) : Prop where
  personal_pos : 1 ≤ cfg.personal.length
  personal_le : cfg.personal.length ≤ 16
  f0_salts : ∀ t ∈ cfg.f0, t.length = 16 ∨ t.length = 24 ∨ t.length = 32

/-- A descriptor slot as the commands leave it (10_state.md R22, R23, R44). -/
structure DescriptorInv (D : Descriptor) : Prop where
  key_length : D.masterKey.length = 32
  key_rest : D.masterKey.drop (keyLen D.method) = zeros (32 - keyLen D.method)
  empty_zero : D.valid = false → D = Descriptor.empty

/-- A valid context bound to a descriptor of method `m`, between commands (10_state.md R27 to R33). -/
structure LiveContextInv (m : Method) (x : Context) : Prop where
  salt_length : x.salt.length = 32
  salt_rest : x.salt.drop (keyLen m) = zeros (32 - keyLen m)
  subkey_length : x.subkey.length = 32
  subkey_rest : x.subkey.drop (keyLen m) = zeros (32 - keyLen m)
  nonce_length : x.nonce.length = 24
  nonce_rest : x.nonce.drop (nonceLen m) = zeros (24 - nonceLen m)
  /-- Twice the number of chunks (R31), and never past the exhaustion point (42_aead_nonce.md R171). -/
  nonce_even : le (liveNonce m x.nonce) % 2 = 0
  nonce_bound : le (liveNonce m x.nonce) ≤ 256 ^ nonceLen m - 2
  /-- While `init = 0` the nonce is all zero (R31). -/
  start_nonce : x.init = false → x.nonce = zeros 24
  /-- While `init = 0` the subkey is all zero (R30), but in a context that its derivation killed (notes/assumptions/12.md). -/
  start_subkey : x.init = false → x.dead = false → x.subkey = zeros 32
  /-- A decrypt context's salt is zero until it is consumed (R29). -/
  await_salt : x.dir = .decrypt → x.init = false → x.dead = false → x.salt = zeros 32
  encrypt_rbuf : x.dir = .encrypt → x.rbuf = []
  /-- The bounds of R33. -/
  await_rbuf : x.init = false → x.dead = false → x.rbuf.length < keyLen m
  stream_rbuf : x.init = true → x.dead = false → x.rbuf.length ≤ 16416

/-- A context slot: all zero when empty (10_state.md R44); when valid, bound to a valid descriptor (46_lifecycle.md R263d). -/
structure ContextInv (descs : List Descriptor) (x : Context) : Prop where
  empty_zero : x.valid = false → x = Context.empty
  live : x.valid = true → ∃ D, descs[x.desc]? = some D ∧ D.valid = true ∧ LiveContextInv D.method x

/-- The invariant of the machine: what holds between commands. -/
structure State.Inv (s : State) : Prop where
  cfg_wf : ParamsWf s.cfg
  desc_count : 1 ≤ s.desc.length ∧ s.desc.length ≤ 256
  ctx_count : 1 ≤ s.ctx.length ∧ s.ctx.length ≤ 256
  desc_inv : ∀ D ∈ s.desc, DescriptorInv D
  ctx_inv : ∀ x ∈ s.ctx, ContextInv s.desc x
  filter_wf : SaltSetWf s.filter
  /-- `F` holds byte strings of 16, 24 or 32 bytes (10_state.md R40). -/
  filter_salts : ∀ t ∈ s.filter, t.length = 16 ∨ t.length = 24 ∨ t.length = 32
  /-- A response with another status than `OK` has no output (30_encoding.md R98). -/
  response_out : ∀ r, s.response = some r → r.status ≠ .ok → r.out = []

/-- The next `n` primitive calls do not fail ("if no primitive fails", 92_eei_decisions.md D19). -/
def Env.quiet : Nat → Env → Prop
  | 0, _ => True
  | n + 1, e => e.primFires = false ∧ Env.quiet n e.afterPrim

/-- `AEAD_NoForgery` for one method: `AEAD_Dec` accepts only what `AEAD_Enc` produced. A hypothesis for tamper claims, never a
fact of the model (42_aead_nonce.md R165). -/
def AeadNoForgery (m : Method) : Prop :=
  ∀ k n c p, k.length = keyLen m → n.length = nonceLen m → aeadDec m k n c = some p → c = aeadEnc m k n p

/-- The machine comes to the response `r` and the state `t` by one command. -/
def Answers (i : Instr) (s t : State) (st : Status) (out : Bytes) : Prop :=
  exec i s = .next t ∧ t.response = some { status := st, out := out }

/-- Issue one `TCP_ENCRYPT` on context `c` for each plaintext; the concatenated outputs and the last state, if every status is
`OK` (44_tcp.md R223). -/
def sendAll (c : Nat) : List Bytes → State → Option (Bytes × State)
  | [], s => some ([], s)
  | p :: ps, s =>
    match exec (.tcpEncrypt c p) s with
    | .next t =>
      match t.response with
      | some { status := .ok, out := out } => (sendAll c ps t).map fun w => (out ++ w.1, w.2)
      | _ => none
    | _ => none

/-- Issue one `TCP_DECRYPT` on context `c` for each delivery; the concatenated `OK` outputs and the last state, if no status is
fatal (44_tcp.md R223). -/
def receiveAll (c : Nat) : List Bytes → State → Option (Bytes × State)
  | [], s => some ([], s)
  | p :: ps, s =>
    match exec (.tcpDecrypt c p) s with
    | .next t =>
      match t.response with
      | some { status := .ok, out := out } => (receiveAll c ps t).map fun w => (out ++ w.1, w.2)
      | some { status := .needMore, out := _ } => receiveAll c ps t
      | _ => none
    | _ => none

/-- How many chunks the plaintexts make, one `TCP_ENCRYPT` each (44_tcp.md R204). -/
def chunkCount (ps : List Bytes) : Nat := (ps.map fun p => (splitChunks p).length).sum

/-- A context that has just been made by `CTX_NEW` for direction `dir` (46_lifecycle.md R261). -/
structure FreshContext (dir : Direction) (x : Context) : Prop where
  valid : x.valid = true
  dir_eq : x.dir = dir
  init : x.init = false
  dead : x.dead = false
  rbuf : x.rbuf = []

/-! ### A TCP command that has come to one of its chunks -/

/-- A TCP command of direction `dir` with an input of `n` bytes is accepted on the context `x` of slot `c`, which is bound to
the descriptor `D` (60_exceptions.md R296). -/
structure TcpAccepts (s : State) (c : Nat) (dir : Direction) (n : Nat) (x : Context) (D : Descriptor) : Prop where
  slot : s.ctx[c]? = some x
  valid : x.valid = true
  dir_eq : x.dir = dir
  live : x.dead = false
  desc : s.desc[x.desc]? = some D
  fits : ∀ b, s.cfg.maxIn = some b → n ≤ b

/-- The context with the subkey of `salt` stored and nothing else changed (44_tcp.md R201, R208). -/
def Context.withSubkey (x : Context) (cfg : Params) (D : Descriptor) (salt : Bytes) : Context :=
  { x with subkey := fit 32 (deriveSubkey cfg.personal (D.masterKey.take (keyLen D.method)) salt) }

/-- The context whose stream begins with `salt`: subkey stored, nonce zero, `init` set (44_tcp.md R203, R209). -/
def Context.begun (x : Context) (cfg : Params) (D : Descriptor) (salt : Bytes) : Context :=
  { x.withSubkey cfg D salt with init := true, nonce := zeros 24 }

/-- `TCP_ENCRYPT c, p` comes to its first chunk with the context `y` of descriptor `D` in the state `w`: armed before, or arming
with a derivation that does not fail (44_tcp.md R201, R203). -/
inductive EncryptStarts (s : State) (c : Nat) (p : Bytes) : Context → Descriptor → State → Prop where
  | armed {x : Context} {D : Descriptor} : TcpAccepts s c .encrypt p.length x D → p ≠ [] → x.init = true →
      EncryptStarts s c p x D s
  | arms {x : Context} {D : Descriptor} : TcpAccepts s c .encrypt p.length x D → p ≠ [] → x.init = false →
      s.env.primFires = false →
      EncryptStarts s c p (x.begun s.cfg D (x.salt.take (keyLen D.method))) D { s with env := s.env.afterPrim }

/-- `TCP_DECRYPT c, p` comes to its loop with the context `y` of descriptor `D`, `p` appended, in the state `w`: in STREAM before,
or with the salt completed, probed and recorded on a server, and a derivation that does not fail (44_tcp.md R208, R209). -/
inductive DecryptStarts (s : State) (c : Nat) (p : Bytes) : Context → Descriptor → State → Prop where
  | streaming {x : Context} {D : Descriptor} : TcpAccepts s c .decrypt p.length x D → x.init = true →
      DecryptStarts s c p { x with rbuf := x.rbuf ++ p } D s
  | onAClient {x : Context} {D : Descriptor} {salt : Bytes} : TcpAccepts s c .decrypt p.length x D → x.init = false →
      s.cfg.role = .client → keyLen D.method ≤ (x.rbuf ++ p).length → salt = (x.rbuf ++ p).take (keyLen D.method) →
      s.env.primFires = false →
      DecryptStarts s c p
        { x.begun s.cfg D salt with salt := fit 32 salt, rbuf := (x.rbuf ++ p).drop (keyLen D.method) } D
        { s with env := s.env.afterPrim }
  | onAServer {x : Context} {D : Descriptor} {salt : Bytes} {u : State} : TcpAccepts s c .decrypt p.length x D →
      x.init = false → s.cfg.role = .server → keyLen D.method ≤ (x.rbuf ++ p).length →
      salt = (x.rbuf ++ p).take (keyLen D.method) → s.checkAnswer salt = .absent → s.afterCheck.addAnswer = .ok →
      u = s.afterCheck.afterAdd salt → u.env.primFires = false →
      DecryptStarts s c p
        { x.begun s.cfg D salt with salt := fit 32 salt, rbuf := (x.rbuf ++ p).drop (keyLen D.method) } D
        { u with env := u.env.afterPrim }

/-- The nonce of value `v`, as method `m` stores it (10_state.md R27). -/
def nonceField (m : Method) (v : Nat) : Bytes := unle (nonceLen m) v ++ zeros (24 - nonceLen m)

/-- The whole chunks of the pieces `qs` under one subkey, the first one's length header under the nonce of value `v`
(30_encoding.md R91 to R93). -/
def chunksFrom (m : Method) (subkey : Bytes) : Nat → List Bytes → Bytes
  | _, [] => []
  | v, q :: qs =>
    aeadEnc m subkey (unle (nonceLen m) v) (be16 q.length) ++ aeadEnc m subkey (unle (nonceLen m) (v + 1)) q ++
      chunksFrom m subkey (v + 2) qs

/-- `TCP_ENCRYPT c, p`, started with `y` and `w`, has made `n` chunks and is at the next, for which the nonce has the value `v`. -/
structure EncryptAtChunk (s : State) (c : Nat) (p : Bytes) (y : Context) (D : Descriptor) (w : State) (n v : Nat) :
    Prop where
  inv : s.Inv
  starts : EncryptStarts s c p y D w
  more : n * 0x3FFF < p.length
  value : v = le (y.nonce.take (nonceLen D.method)) + 2 * n
  room : v ≤ 256 ^ nonceLen D.method - 2
  quiet : w.env.quiet (2 * n)

/-- `TCP_DECRYPT c, p`, started with `y` and `w`, has consumed the chunks of the pieces `good`, as their encoder made them, and
is at the next with `rest` buffered, enough to look at it; for that chunk the nonce has the value `v`. -/
structure DecryptAtChunk (s : State) (c : Nat) (p : Bytes) (y : Context) (D : Descriptor) (w : State) (good : List Bytes)
    (rest : Bytes) (v : Nat) : Prop where
  inv : s.Inv
  starts : DecryptStarts s c p y D w
  legal : ∀ q ∈ good, 1 ≤ q.length ∧ q.length ≤ 0x3FFF
  wire : y.rbuf = chunksFrom D.method (y.subkey.take (keyLen D.method)) (le (y.nonce.take (nonceLen D.method))) good ++ rest
  more : 34 < rest.length
  value : v = le (y.nonce.take (nonceLen D.method)) + 2 * good.length
  room : v ≤ 256 ^ nonceLen D.method - 2
  quiet : w.env.quiet (2 * good.length)

/-- The state `w` after `draws` more `PrimFail` draws and fatal entry with `st` on the context `y` of slot `c`
(60_exceptions.md R290). -/
def State.diedAt (w : State) (c : Nat) (y : Context) (draws : Nat) (st : Status) : State :=
  { w with
    env := Env.afterPrim^[draws] w.env
    ctx := w.ctx.set c { y with dead := true }
    response := some { status := st, out := [] } }

end Sys2Proof.Machine
end

