-- ==== Sys2Proof/Certificates/Slice0/Obligations.lean ====
section
/-! DEFINITION. The statements for the provers: what the numbered rules of spec/ say the commands and the machine do. -/

open Sys2Proof Sys2Proof.Machine

/-! ### Reset, invariant, encoding, step -/

/-- 10_state.md R44: the reset values, for every slot count and configuration. That the list of the filter is canonical is the
model's choice (notes/assumptions/18.md). -/
def Obligations.ResetStateIsAsTabulated : Prop :=
  ∀ (nDesc nCtx : Nat) (cfg : Params),
    (State.resetWith nDesc nCtx cfg).desc =
      List.replicate nDesc { valid := false, method := .aes128gcm, masterKey := zeros 32 } ∧
    (State.resetWith nDesc nCtx cfg).ctx =
      List.replicate nCtx
        { valid := false, desc := 0, dir := .encrypt, init := false, dead := false, salt := zeros 32,
          subkey := zeros 32, nonce := zeros 24, rbuf := [] } ∧
    (∀ t, t ∈ (State.resetWith nDesc nCtx cfg).filter ↔ t ∈ cfg.f0) ∧
    (State.resetWith nDesc nCtx cfg).cfg.role = cfg.role ∧
    (State.resetWith nDesc nCtx cfg).cfg.personal = cfg.personal

/-- The state after reset meets the invariant, for every admissible configuration and for the one of `State.reset`
(the values of notes/assumptions/5.md). -/
def Obligations.ResetMeetsTheInvariant : Prop :=
  (∀ (nDesc nCtx : Nat) (cfg : Params), 1 ≤ nDesc → nDesc ≤ 256 → 1 ≤ nCtx → nCtx ≤ 256 → ParamsWf cfg →
    (State.resetWith nDesc nCtx cfg).Inv) ∧
  State.reset.Inv

/-- Every step keeps the invariant: the storage widths and zero tails of 10_state.md R22 and R27, the even nonce of R31 below
the exhaustion point of 42_aead_nonce.md R171, the buffer bounds of R33, the references of 46_lifecycle.md R263d. The canonical
list of the filter and the subkey of a context that its derivation killed are the model's choices (notes/assumptions/18.md,
12.md). -/
def Obligations.StepKeepsTheInvariant : Prop :=
  ∀ s t : State, s.Inv → step s = .next t → t.Inv

/-- From a state that meets the invariant the machine never stops: every failure is a status of a response
(60_exceptions.md R280). That `Refused` is answered as a next state is the model's choice (notes/assumptions/4.md). -/
def Obligations.InvariantStatesNeverStop : Prop :=
  ∀ s : State, s.Inv → ∃ t, step s = .next t

/-- Decoding the encoding of a well-formed command gives it back, with every operand (30_encoding.md R99 to R101). -/
def Obligations.DecodeEncodeAgree : Prop :=
  ∀ i : Instr, i.wellFormed = true → decode (encode i).1 (encode i).2 = .ok i

/-- Every word and input that decode are the encoding of the command they give: every word has one meaning
(92_eei_decisions.md D2). -/
def Obligations.EncodeDecodeAgree : Prop :=
  ∀ (w : CommandWord) (input : Bytes) (i : Instr),
    decode w input = .ok i → i.wellFormed = true ∧ encode i = (w, input)

/-- 30_encoding.md R101 and R103: a word decodes exactly when it matches a row's mask, with a method id below 6 and no input
where the command takes none. -/
def Obligations.DecodeAcceptsExactlyTheTable : Prop :=
  ∀ (w : CommandWord) (input : Bytes),
    (∃ i, decode w input = .ok i) ↔
      (w &&& 0xFF00FFF8 = 0x01000000 ∧ (w &&& 0x00000007).toNat < 6) ∨
      (w &&& 0xFF00FFFF = 0x02000000 ∧ input = []) ∨
      (w &&& 0xFF0000FE = 0x03000000 ∧ input = []) ∨
      (w &&& 0xFFFF00FF = 0x04000000 ∧ input = []) ∨
      w &&& 0xFFFF00FF = 0x05000000 ∨
      w &&& 0xFFFF00FF = 0x06000000 ∨
      w &&& 0xFF00FFFF = 0x07000000 ∨
      w &&& 0xFF00FFFF = 0x08000000

/-- Words of 95_test_vectors.md B.1, one per command. -/
def Obligations.SampleWordsDecode : Prop :=
  decode 0x01030005 [0x74] = .ok (.cipherInit 3 .xchacha20ietfpoly1305 [0x74]) ∧
  decode 0x02000000 [] = .ok (.cipherFree 0) ∧
  decode 0x03000101 [] = .ok (.ctxNew 0 1 .decrypt) ∧
  decode 0x04000100 [] = .ok (.ctxFree 1) ∧
  decode 0x05000000 [0x41] = .ok (.tcpEncrypt 0 [0x41]) ∧
  decode 0x06000100 [] = .ok (.tcpDecrypt 1 []) ∧
  decode 0x07000000 [] = .ok (.udpEncrypt 0 []) ∧
  decode 0x08020000 [0x01] = .ok (.udpDecrypt 2 [0x01])

/-- A step takes the oldest event out of the inbox and runs the command it decodes to; with no event the block waits
(10_state.md R36, 70_reset_and_hazards.md R320). The inbox is the model's field (notes/assumptions/1.md). -/
def Obligations.StepRunsTheDecodedCommand : Prop :=
  (∀ (s : State) (w : CommandWord) (input : Bytes) (later : List HostEvent) (i : Instr),
    s.inbox = .command w input :: later → decode w input = .ok i → step s = exec i { s with inbox := later }) ∧
  (∀ s : State, s.inbox = [] → step s = .next s)

/-- 30_encoding.md R103, each reason a word is refused, on the fields of the word. The inbox is the model's field
(notes/assumptions/1.md), and that the machine goes on its choice (notes/assumptions/4.md). -/
def Obligations.RefusedWordsChangeNothing : Prop :=
  ∀ (s : State) (w : CommandWord) (input : Bytes) (later : List HostEvent) (op sd sc arg : Nat),
    s.inbox = .command w input :: later →
    op = w.toNat / 2 ^ 24 → sd = w.toNat / 2 ^ 16 % 256 → sc = w.toNat / 2 ^ 8 % 256 → arg = w.toNat % 256 →
    (op = 0 ∨ 9 ≤ op ∨
      (op = 1 ∧ (sc ≠ 0 ∨ 6 ≤ arg ∨ s.desc.length ≤ sd)) ∨
      (op = 2 ∧ (sc ≠ 0 ∨ arg ≠ 0 ∨ s.desc.length ≤ sd ∨ input ≠ [])) ∨
      (op = 3 ∧ (2 ≤ arg ∨ s.desc.length ≤ sd ∨ s.ctx.length ≤ sc ∨ input ≠ [])) ∨
      (op = 4 ∧ (sd ≠ 0 ∨ arg ≠ 0 ∨ s.ctx.length ≤ sc ∨ input ≠ [])) ∨
      ((op = 5 ∨ op = 6) ∧ (sd ≠ 0 ∨ arg ≠ 0 ∨ s.ctx.length ≤ sc)) ∨
      ((op = 7 ∨ op = 8) ∧ (sc ≠ 0 ∨ arg ≠ 0 ∨ s.desc.length ≤ sd))) →
    step s = .next { s with inbox := later, response := some { status := .refused, out := [] } }

/-- 70_reset_and_hazards.md R320, R321: the reset event empties and zeroes every slot and sets the filter to `F0`. That the
configuration and the later events stay and the response is cleared is the model's reading (notes/assumptions/17.md). -/
def Obligations.ResetEventWipesEverySlot : Prop :=
  ∀ (s : State) (later : List HostEvent), s.inbox = .reset :: later →
    ∃ t, step s = .next t ∧
      t.desc = List.replicate s.desc.length { valid := false, method := .aes128gcm, masterKey := zeros 32 } ∧
      t.ctx = List.replicate s.ctx.length
        { valid := false, desc := 0, dir := .encrypt, init := false, dead := false, salt := zeros 32,
          subkey := zeros 32, nonce := zeros 24, rbuf := [] } ∧
      (∀ u, u ∈ t.filter ↔ u ∈ s.cfg.f0) ∧ t.cfg = s.cfg ∧ t.inbox = later

/-! ### Lifecycle commands -/

/-- 46_lifecycle.md R256: `CIPHER_INIT` on an empty slot writes the method and the derived key and nothing else, or answers
`Internal` and leaves every slot as it was. -/
def Obligations.CipherInitFillsTheSlot : Prop :=
  ∀ (s : State) (d : Nat) (m : Method) (password : Bytes) (D : Descriptor),
    s.desc[d]? = some D → D.valid = false → (∀ b, s.cfg.maxPw = some b → password.length ≤ b) →
    exec (.cipherInit d m password) s = .next
      (if s.env.primFires = true then
        { s with env := s.env.afterPrim, response := some { status := .internal, out := [] } }
      else
        { s with
          env := s.env.afterPrim
          desc := s.desc.set d
            { valid := true, method := m
              masterKey := deriveMaster password (keyLen m) ++ zeros (32 - keyLen m) }
          response := some { status := .ok, out := [] } })

/-- 46_lifecycle.md R259: `CIPHER_FREE` of a valid slot that no valid context refers to zeroes the slot and changes nothing
else; while one refers to it, dead or not, it is refused (R260). -/
def Obligations.CipherFreeWipesAnUnreferencedSlot : Prop :=
  ∀ (s : State) (d : Nat) (D : Descriptor), s.desc[d]? = some D → D.valid = true →
    ((∀ x ∈ s.ctx, x.valid = true → x.desc ≠ d) →
      exec (.cipherFree d) s = .next
        { s with
          desc := s.desc.set d { valid := false, method := .aes128gcm, masterKey := zeros 32 }
          response := some { status := .ok, out := [] } }) ∧
    ((∃ x ∈ s.ctx, x.valid = true ∧ x.desc = d) →
      exec (.cipherFree d) s = .next { s with response := some { status := .refused, out := [] } })

/-- 46_lifecycle.md R261: `CTX_NEW` writes a zeroed, bound context; an encrypt context has drawn its salt, and a CSPRNG
failure leaves the slot empty. -/
def Obligations.CtxNewMakesAZeroedContext : Prop :=
  ∀ (s : State) (d c : Nat) (D : Descriptor) (x : Context),
    s.desc[d]? = some D → D.valid = true → s.ctx[c]? = some x → x.valid = false →
    exec (.ctxNew d c .decrypt) s = .next
      { s with
        ctx := s.ctx.set c
          { valid := true, desc := d, dir := .decrypt, init := false, dead := false, salt := zeros 32,
            subkey := zeros 32, nonce := zeros 24, rbuf := [] }
        response := some { status := .ok, out := [] } } ∧
    exec (.ctxNew d c .encrypt) s = .next
      (if s.env.primFires = true then
        { s with env := s.env.afterPrim, response := some { status := .internal, out := [] } }
      else
        { s with
          env := s.env.afterPrim.afterRng (keyLen D.method)
          ctx := s.ctx.set c
            { valid := true, desc := d, dir := .encrypt, init := false, dead := false
              salt := s.env.afterPrim.rngBytes (keyLen D.method) ++ zeros (32 - keyLen D.method)
              subkey := zeros 32, nonce := zeros 24, rbuf := [] }
          response := some { status := .ok, out := [] } })

/-- 46_lifecycle.md R264: `CTX_FREE` zeroes the slot, in every phase, and changes nothing else. -/
def Obligations.CtxFreeWipesTheSlot : Prop :=
  ∀ (s : State) (c : Nat) (x : Context), s.ctx[c]? = some x → x.valid = true →
    exec (.ctxFree c) s = .next
      { s with
        ctx := s.ctx.set c
          { valid := false, desc := 0, dir := .encrypt, init := false, dead := false, salt := zeros 32,
            subkey := zeros 32, nonce := zeros 24, rbuf := [] }
        response := some { status := .ok, out := [] } }

/-! ### TCP_ENCRYPT -/

/-- 44_tcp.md R202: empty plaintext emits nothing, advances nothing and does not arm. -/
def Obligations.TcpEncryptEmptyInputDoesNothing : Prop :=
  ∀ (s : State) (c : Nat) (x : Context) (D : Descriptor),
    s.ctx[c]? = some x → x.valid = true → x.dir = .encrypt → x.dead = false → s.desc[x.desc]? = some D →
    exec (.tcpEncrypt c []) s = .next { s with response := some { status := .ok, out := [] } }

/-- 44_tcp.md R203, R205 and 30_encoding.md R92, R93: the first non-empty call of one chunk emits the salt, the length under
nonce 0 and the payload under nonce 1, arms the context with the derived subkey and leaves nonce 2. -/
def Obligations.TcpEncryptFirstChunkCarriesTheSalt : Prop :=
  ∀ (s : State) (c : Nat) (p : Bytes) (x : Context) (D : Descriptor) (sk : Bytes), s.Inv →
    s.ctx[c]? = some x → x.valid = true → x.dir = .encrypt → x.dead = false → x.init = false →
    s.desc[x.desc]? = some D → 1 ≤ p.length → p.length ≤ 0x3FFF → (∀ b, s.cfg.maxIn = some b → p.length ≤ b) →
    s.env.quiet 3 →
    sk = deriveSubkey s.cfg.personal (D.masterKey.take (keyLen D.method)) (x.salt.take (keyLen D.method)) →
    exec (.tcpEncrypt c p) s = .next
      { s with
        env := s.env.afterPrim.afterPrim.afterPrim
        ctx := s.ctx.set c
          { x with init := true, subkey := sk ++ zeros (32 - keyLen D.method), nonce := [2] ++ zeros 23 }
        response := some
          { status := .ok
            out := x.salt.take (keyLen D.method) ++
              aeadEnc D.method sk (zeros (nonceLen D.method)) (be16 p.length) ++
              aeadEnc D.method sk ([1] ++ zeros (nonceLen D.method - 1)) p } }

/-- 44_tcp.md R205: one chunk of an armed context: the length header under the stored nonce `n0`, the payload under the next
one, both under the context's subkey; the stored nonce becomes `n0 + 2`. -/
def Obligations.TcpEncryptOneChunk : Prop :=
  ∀ (s : State) (c : Nat) (p : Bytes) (x : Context) (D : Descriptor) (sk n0 : Bytes), s.Inv →
    s.ctx[c]? = some x → x.valid = true → x.dir = .encrypt → x.dead = false → x.init = true →
    s.desc[x.desc]? = some D → 1 ≤ p.length → p.length ≤ 0x3FFF → (∀ b, s.cfg.maxIn = some b → p.length ≤ b) →
    sk = x.subkey.take (keyLen D.method) → n0 = x.nonce.take (nonceLen D.method) →
    le n0 < 256 ^ nonceLen D.method - 2 → s.env.quiet 2 →
    ∃ n1 n2 : Bytes, n1.length = nonceLen D.method ∧ n2.length = nonceLen D.method ∧
      le n1 = le n0 + 1 ∧ le n2 = le n0 + 2 ∧
      exec (.tcpEncrypt c p) s = .next
        { s with
          env := s.env.afterPrim.afterPrim
          ctx := s.ctx.set c { x with nonce := n2 ++ zeros (24 - nonceLen D.method) }
          response := some
            { status := .ok, out := aeadEnc D.method sk n0 (be16 p.length) ++ aeadEnc D.method sk n1 p } }

/-- 44_tcp.md R206 and 10_state.md R31: the output length of any non-empty call, and the nonce advanced by two for each of its
chunks. -/
def Obligations.TcpEncryptOutputLengthAndNonce : Prop :=
  ∀ (s : State) (c : Nat) (p : Bytes) (x : Context) (D : Descriptor) (n : Nat), s.Inv →
    s.ctx[c]? = some x → x.valid = true → x.dir = .encrypt → x.dead = false →
    s.desc[x.desc]? = some D → 1 ≤ p.length → (∀ b, s.cfg.maxIn = some b → p.length ≤ b) →
    n = (p.length + 0x3FFE) / 0x3FFF →
    le (x.nonce.take (nonceLen D.method)) + 2 * n ≤ 256 ^ nonceLen D.method - 2 →
    s.env.quiet (1 + 2 * n) →
    ∃ t y out, exec (.tcpEncrypt c p) s = .next t ∧ t.response = some { status := .ok, out := out } ∧
      out.length = (if x.init = true then 0 else keyLen D.method) + p.length + 34 * n ∧
      t.ctx = s.ctx.set c y ∧ y.init = true ∧ y.dead = false ∧
      le (y.nonce.take (nonceLen D.method)) = le (x.nonce.take (nonceLen D.method)) + 2 * n

/-- 42_aead_nonce.md R171, 60_exceptions.md R287: a chunk that would start at the exhaustion point raises `NonceExhausted`
before any AEAD call (no draw is taken) and kills the context. At a later chunk of the command (44_tcp.md R207, R217) the nonce
and the buffer stay past the chunks before it, whose output is discarded. -/
def Obligations.NonceExhaustionKillsTheContext : Prop :=
  (∀ (s : State) (c : Nat) (p : Bytes) (x : Context) (D : Descriptor),
    s.ctx[c]? = some x → x.valid = true → x.dead = false → x.init = true → s.desc[x.desc]? = some D →
    (∀ b, s.cfg.maxIn = some b → p.length ≤ b) →
    256 ^ nonceLen D.method - 2 ≤ le (x.nonce.take (nonceLen D.method)) →
    (x.dir = .encrypt → p ≠ [] →
      exec (.tcpEncrypt c p) s = .next
        { s with
          ctx := s.ctx.set c { x with dead := true }
          response := some { status := .nonceExhausted, out := [] } }) ∧
    (x.dir = .decrypt → 34 < x.rbuf.length + p.length →
      exec (.tcpDecrypt c p) s = .next
        { s with
          ctx := s.ctx.set c { x with rbuf := x.rbuf ++ p, dead := true }
          response := some { status := .nonceExhausted, out := [] } })) ∧
  (∀ (s w : State) (c n v : Nat) (p : Bytes) (y : Context) (D : Descriptor), EncryptAtChunk s c p y D w n v →
    v = 256 ^ nonceLen D.method - 2 →
    exec (.tcpEncrypt c p) s = .next
      (w.diedAt c { y with nonce := nonceField D.method v } (2 * n) .nonceExhausted)) ∧
  ∀ (s w : State) (c v : Nat) (p rest : Bytes) (y : Context) (D : Descriptor) (good : List Bytes),
    DecryptAtChunk s c p y D w good rest v → v = 256 ^ nonceLen D.method - 2 →
    exec (.tcpDecrypt c p) s = .next
      (w.diedAt c { y with nonce := nonceField D.method v, rbuf := rest } (2 * good.length) .nonceExhausted)

/-- 44_tcp.md R201, R208, R218 and 60_exceptions.md R286, R290: a `PrimFail` draw at any primitive call of a TCP command answers
`Internal` and kills the context: at the first AEAD call of a running context; at either AEAD call of a later chunk, the nonce and
the buffer staying past the chunks before it; at `DeriveSubkey`, with `init` still 0. The draw is a free value
(notes/assumptions/7.md); that the dead context keeps the computed subkey is the model's choice (notes/assumptions/12.md). -/
def Obligations.PrimFailKillsATcpContext : Prop :=
  (∀ (s : State) (c : Nat) (p : Bytes) (x : Context) (D : Descriptor),
    s.ctx[c]? = some x → x.valid = true → x.dead = false → x.init = true → s.desc[x.desc]? = some D →
    (∀ b, s.cfg.maxIn = some b → p.length ≤ b) →
    le (x.nonce.take (nonceLen D.method)) < 256 ^ nonceLen D.method - 2 → s.env.primFires = true →
    (x.dir = .encrypt → p ≠ [] →
      exec (.tcpEncrypt c p) s = .next
        { s with
          env := s.env.afterPrim
          ctx := s.ctx.set c { x with dead := true }
          response := some { status := .internal, out := [] } }) ∧
    (x.dir = .decrypt → 34 < x.rbuf.length + p.length →
      exec (.tcpDecrypt c p) s = .next
        { s with
          env := s.env.afterPrim
          ctx := s.ctx.set c { x with rbuf := x.rbuf ++ p, dead := true }
          response := some { status := .internal, out := [] } })) ∧
  (∀ (s w : State) (c n v : Nat) (p : Bytes) (y : Context) (D : Descriptor) (e : Env),
    EncryptAtChunk s c p y D w n v → v < 256 ^ nonceLen D.method - 2 → e = Env.afterPrim^[2 * n] w.env →
    (e.primFires = true →
      exec (.tcpEncrypt c p) s = .next
        (w.diedAt c { y with nonce := nonceField D.method v } (2 * n + 1) .internal)) ∧
    (e.primFires = false → e.afterPrim.primFires = true →
      exec (.tcpEncrypt c p) s = .next
        (w.diedAt c { y with nonce := nonceField D.method v } (2 * n + 2) .internal))) ∧
  (∀ (s w : State) (c v : Nat) (p rest : Bytes) (y : Context) (D : Descriptor) (good : List Bytes) (e : Env),
    DecryptAtChunk s c p y D w good rest v → v < 256 ^ nonceLen D.method - 2 →
    e = Env.afterPrim^[2 * good.length] w.env →
    (e.primFires = true →
      exec (.tcpDecrypt c p) s = .next
        (w.diedAt c { y with nonce := nonceField D.method v, rbuf := rest } (2 * good.length + 1) .internal)) ∧
    (∀ lr, e.primFires = false →
      aeadDec D.method (y.subkey.take (keyLen D.method)) (unle (nonceLen D.method) v) (rest.take 18) = some lr →
      1 ≤ unbe16 lr → unbe16 lr ≤ 0x3FFF → 34 + unbe16 lr ≤ rest.length → e.afterPrim.primFires = true →
      exec (.tcpDecrypt c p) s = .next
        (w.diedAt c { y with nonce := nonceField D.method v, rbuf := rest } (2 * good.length + 2) .internal))) ∧
  (∀ (s : State) (c : Nat) (p : Bytes) (x : Context) (D : Descriptor),
    TcpAccepts s c .encrypt p.length x D → x.init = false → p ≠ [] → s.env.primFires = true →
    exec (.tcpEncrypt c p) s = .next
      (s.diedAt c (x.withSubkey s.cfg D (x.salt.take (keyLen D.method))) 1 .internal)) ∧
  ∀ (s u : State) (c : Nat) (p salt : Bytes) (x : Context) (D : Descriptor),
    TcpAccepts s c .decrypt p.length x D → x.init = false → keyLen D.method ≤ (x.rbuf ++ p).length →
    salt = (x.rbuf ++ p).take (keyLen D.method) →
    (s.cfg.role = .client ∧ u = s ∨
      s.cfg.role = .server ∧ s.checkAnswer salt = .absent ∧ s.afterCheck.addAnswer = .ok ∧
        u = s.afterCheck.afterAdd salt) →
    u.env.primFires = true →
    exec (.tcpDecrypt c p) s = .next
      (u.diedAt c { x.withSubkey s.cfg D salt with salt := fit 32 salt, rbuf := x.rbuf ++ p } 1 .internal)

/-! ### TCP_DECRYPT -/

/-- 44_tcp.md R209: with fewer than `key_len` bytes buffered the command keeps them and answers `NeedMore`; no probe, no
draw. -/
def Obligations.TcpDecryptAwaitsTheSalt : Prop :=
  ∀ (s : State) (c : Nat) (p : Bytes) (x : Context) (D : Descriptor),
    s.ctx[c]? = some x → x.valid = true → x.dir = .decrypt → x.dead = false → x.init = false →
    s.desc[x.desc]? = some D → (∀ b, s.cfg.maxIn = some b → p.length ≤ b) →
    x.rbuf.length + p.length < keyLen D.method →
    exec (.tcpDecrypt c p) s = .next
      { s with
        ctx := s.ctx.set c { x with rbuf := x.rbuf ++ p }
        response := some { status := .needMore, out := [] } }

/-- 44_tcp.md R209, R210 on a client: the command that completes the salt stores it, derives the subkey, zeroes the nonce,
drops the salt and enters STREAM; with at most 34 bytes left over it answers `NeedMore`. -/
def Obligations.TcpDecryptTakesTheSaltOnAClient : Prop :=
  ∀ (s : State) (c : Nat) (p : Bytes) (x : Context) (D : Descriptor) (salt : Bytes), s.Inv → s.cfg.role = .client →
    s.ctx[c]? = some x → x.valid = true → x.dir = .decrypt → x.dead = false → x.init = false →
    s.desc[x.desc]? = some D → (∀ b, s.cfg.maxIn = some b → p.length ≤ b) →
    keyLen D.method ≤ x.rbuf.length + p.length → x.rbuf.length + p.length ≤ keyLen D.method + 34 →
    salt = (x.rbuf ++ p).take (keyLen D.method) → s.env.primFires = false →
    exec (.tcpDecrypt c p) s = .next
      { s with
        env := s.env.afterPrim
        ctx := s.ctx.set c
          { x with
            init := true
            salt := salt ++ zeros (32 - keyLen D.method)
            subkey := deriveSubkey s.cfg.personal (D.masterKey.take (keyLen D.method)) salt ++
              zeros (32 - keyLen D.method)
            nonce := zeros 24
            rbuf := (x.rbuf ++ p).drop (keyLen D.method) }
        response := some { status := .needMore, out := [] } }

/-- 44_tcp.md R209, 45_replay_filter.md R246: on a server that answers `Absent` and `Ok`, the salt is in the filter after the
command that completes it, whatever that command answers; with at most 34 bytes left over and no failing derivation it has done
what it does on a client, and answers `NeedMore`. -/
def Obligations.TcpDecryptRecordsTheSaltFirst : Prop :=
  ∀ (s : State) (c : Nat) (p : Bytes) (x : Context) (D : Descriptor) (salt : Bytes), s.cfg.role = .server →
    s.ctx[c]? = some x → x.valid = true → x.dir = .decrypt → x.dead = false → x.init = false →
    s.desc[x.desc]? = some D → (∀ b, s.cfg.maxIn = some b → p.length ≤ b) →
    keyLen D.method ≤ x.rbuf.length + p.length → salt = (x.rbuf ++ p).take (keyLen D.method) →
    s.checkAnswer salt = .absent → s.afterCheck.addAnswer = .ok →
    ∃ t, exec (.tcpDecrypt c p) s = .next t ∧ salt ∈ t.filter ∧ (∀ u ∈ t.filter, u = salt ∨ u ∈ s.filter) ∧
      (s.Inv → x.rbuf.length + p.length ≤ keyLen D.method + 34 → (s.afterCheck.afterAdd salt).env.primFires = false →
        t = { s.afterCheck.afterAdd salt with
          env := (s.afterCheck.afterAdd salt).env.afterPrim
          ctx := s.ctx.set c
            { x with
              init := true
              salt := salt ++ zeros (32 - keyLen D.method)
              subkey := deriveSubkey s.cfg.personal (D.masterKey.take (keyLen D.method)) salt ++
                zeros (32 - keyLen D.method)
              nonce := zeros 24
              rbuf := (x.rbuf ++ p).drop (keyLen D.method) }
          response := some { status := .needMore, out := [] } })

/-- 60_exceptions.md R283, R290 and 45_replay_filter.md R245, R246: on a server, `Present` answers `ReplayDetected` and an
internal error of the check `Internal`; the context dies with the salt stored and not dropped, nothing is derived (no
`PrimFail` draw), and the filter gains nothing. -/
def Obligations.TcpDecryptRejectsAReplayedSalt : Prop :=
  ∀ (s : State) (c : Nat) (p : Bytes) (x : Context) (D : Descriptor) (salt : Bytes), s.cfg.role = .server →
    s.ctx[c]? = some x → x.valid = true → x.dir = .decrypt → x.dead = false → x.init = false →
    s.desc[x.desc]? = some D → (∀ b, s.cfg.maxIn = some b → p.length ≤ b) →
    keyLen D.method ≤ x.rbuf.length + p.length → salt = (x.rbuf ++ p).take (keyLen D.method) →
    s.checkAnswer salt ≠ .absent →
    ∃ t, exec (.tcpDecrypt c p) s = .next t ∧
      t.response = some
        { status := if s.checkAnswer salt = .present then .replayDetected else .internal, out := [] } ∧
      t.ctx = s.ctx.set c
        { x with dead := true, salt := salt ++ zeros (32 - keyLen D.method), rbuf := x.rbuf ++ p } ∧
      t.desc = s.desc ∧ t.env.prim = s.env.prim ∧ ∀ u ∈ t.filter, u ∈ s.filter

/-- 45_replay_filter.md R245, R246: on a server, an internal error of the insertion answers `Internal` and the context dies with
the salt stored and not dropped; nothing is derived. The filter holds the salt or does not, as the insertion left it. -/
def Obligations.TcpDecryptFailedInsertionIsFatal : Prop :=
  ∀ (s : State) (c : Nat) (p : Bytes) (x : Context) (D : Descriptor) (salt : Bytes), s.cfg.role = .server →
    s.ctx[c]? = some x → x.valid = true → x.dir = .decrypt → x.dead = false → x.init = false →
    s.desc[x.desc]? = some D → (∀ b, s.cfg.maxIn = some b → p.length ≤ b) →
    keyLen D.method ≤ x.rbuf.length + p.length → salt = (x.rbuf ++ p).take (keyLen D.method) →
    s.checkAnswer salt = .absent → s.afterCheck.addAnswer = .internalError →
    ∃ t, exec (.tcpDecrypt c p) s = .next t ∧ t.response = some { status := .internal, out := [] } ∧
      t.ctx = s.ctx.set c
        { x with dead := true, salt := salt ++ zeros (32 - keyLen D.method), rbuf := x.rbuf ++ p } ∧
      t.desc = s.desc ∧ t.env.prim = s.env.prim ∧ t.filter = (s.afterCheck.afterAdd salt).filter

/-- 44_tcp.md R210: in STREAM with at most 34 bytes buffered the command answers `NeedMore`; only the buffer changes, and no
draw is taken: no AEAD call is made. -/
def Obligations.TcpDecryptShortBufferNeedsMore : Prop :=
  ∀ (s : State) (c : Nat) (p : Bytes) (x : Context) (D : Descriptor),
    s.ctx[c]? = some x → x.valid = true → x.dir = .decrypt → x.dead = false → x.init = true →
    s.desc[x.desc]? = some D → (∀ b, s.cfg.maxIn = some b → p.length ≤ b) →
    x.rbuf.length + p.length ≤ 34 →
    exec (.tcpDecrypt c p) s = .next
      { s with
        ctx := s.ctx.set c { x with rbuf := x.rbuf ++ p }
        response := some { status := .needMore, out := [] } }

/-- 44_tcp.md R213: a verified, legal length whose chunk is not wholly buffered leaves the nonce where it was. -/
def Obligations.TcpDecryptPartialChunkKeepsTheNonce : Prop :=
  ∀ (s : State) (c : Nat) (p : Bytes) (x : Context) (D : Descriptor) (lr : Bytes),
    s.ctx[c]? = some x → x.valid = true → x.dir = .decrypt → x.dead = false → x.init = true →
    s.desc[x.desc]? = some D → (∀ b, s.cfg.maxIn = some b → p.length ≤ b) →
    34 < x.rbuf.length + p.length →
    le (x.nonce.take (nonceLen D.method)) < 256 ^ nonceLen D.method - 2 → s.env.primFires = false →
    aeadDec D.method (x.subkey.take (keyLen D.method)) (x.nonce.take (nonceLen D.method)) ((x.rbuf ++ p).take 18) =
      some lr →
    1 ≤ unbe16 lr → unbe16 lr ≤ 0x3FFF → x.rbuf.length + p.length < 34 + unbe16 lr →
    exec (.tcpDecrypt c p) s = .next
      { s with
        env := s.env.afterPrim
        ctx := s.ctx.set c { x with rbuf := x.rbuf ++ p }
        response := some { status := .needMore, out := [] } }

/-- 44_tcp.md R214: a wholly buffered chunk whose payload verifies under the next nonce is consumed: the plaintext is emitted,
both increments are stored, the chunk is dropped. The leftover is short, so the loop ends there. In a state that no run reaches, with
key fields of another width, the status `OK` rests on the length laws as the model puts them: they make the plaintext non-empty
(notes/assumptions/6.md). -/
def Obligations.TcpDecryptWholeChunkIsConsumed : Prop :=
  ∀ (s : State) (c : Nat) (p : Bytes) (x : Context) (D : Descriptor) (lr plain n0 : Bytes),
    s.ctx[c]? = some x → x.valid = true → x.dir = .decrypt → x.dead = false → x.init = true →
    s.desc[x.desc]? = some D → (∀ b, s.cfg.maxIn = some b → p.length ≤ b) →
    n0 = x.nonce.take (nonceLen D.method) → le n0 < 256 ^ nonceLen D.method - 2 → s.env.quiet 2 →
    aeadDec D.method (x.subkey.take (keyLen D.method)) n0 ((x.rbuf ++ p).take 18) = some lr →
    1 ≤ unbe16 lr → unbe16 lr ≤ 0x3FFF →
    34 + unbe16 lr ≤ x.rbuf.length + p.length → x.rbuf.length + p.length ≤ 68 + unbe16 lr →
    aeadDec D.method (x.subkey.take (keyLen D.method)) (nonceInc n0)
      (((x.rbuf ++ p).drop 18).take (unbe16 lr + 16)) = some plain →
    exec (.tcpDecrypt c p) s = .next
      { s with
        env := s.env.afterPrim.afterPrim
        ctx := s.ctx.set c
          { x with
            nonce := nonceInc (nonceInc n0) ++ zeros (24 - n0.length)
            rbuf := (x.rbuf ++ p).drop (34 + unbe16 lr) }
        response := some { status := .ok, out := plain } }

/-- 44_tcp.md R214 and 42_aead_nonce.md R163: a decrypt context whose buffer and arriving bytes are one encrypted chunk of its
own subkey and nonce returns the chunk's payload, with an empty buffer and the nonce two further. -/
def Obligations.TcpDecryptReturnsAnEncryptedChunk : Prop :=
  ∀ (s : State) (c : Nat) (p q : Bytes) (x : Context) (D : Descriptor) (sk n0 : Bytes), s.Inv →
    s.ctx[c]? = some x → x.valid = true → x.dir = .decrypt → x.dead = false → x.init = true →
    s.desc[x.desc]? = some D → (∀ b, s.cfg.maxIn = some b → p.length ≤ b) →
    sk = x.subkey.take (keyLen D.method) → n0 = x.nonce.take (nonceLen D.method) →
    le n0 < 256 ^ nonceLen D.method - 2 → s.env.quiet 2 → 1 ≤ q.length → q.length ≤ 0x3FFF →
    x.rbuf ++ p = aeadEnc D.method sk n0 (be16 q.length) ++ aeadEnc D.method sk (nonceInc n0) q →
    exec (.tcpDecrypt c p) s = .next
      { s with
        env := s.env.afterPrim.afterPrim
        ctx := s.ctx.set c
          { x with nonce := nonceInc (nonceInc n0) ++ zeros (24 - nonceLen D.method), rbuf := [] }
        response := some { status := .ok, out := q } }

/-- 44_tcp.md R212: a verified length of 0 or above 0x3FFF is answered `AuthFail`; the context dies, nothing of that chunk is
consumed. After good chunks of the same command (R217) the nonce and the buffer stay past them and their plaintext is discarded. -/
def Obligations.TcpDecryptIllegalLengthIsFatal : Prop :=
  (∀ (s : State) (c : Nat) (p : Bytes) (x : Context) (D : Descriptor) (lr : Bytes),
    s.ctx[c]? = some x → x.valid = true → x.dir = .decrypt → x.dead = false → x.init = true →
    s.desc[x.desc]? = some D → (∀ b, s.cfg.maxIn = some b → p.length ≤ b) →
    34 < x.rbuf.length + p.length →
    le (x.nonce.take (nonceLen D.method)) < 256 ^ nonceLen D.method - 2 → s.env.primFires = false →
    aeadDec D.method (x.subkey.take (keyLen D.method)) (x.nonce.take (nonceLen D.method)) ((x.rbuf ++ p).take 18) =
      some lr →
    (unbe16 lr = 0 ∨ 0x3FFF < unbe16 lr) →
    exec (.tcpDecrypt c p) s = .next
      { s with
        env := s.env.afterPrim
        ctx := s.ctx.set c { x with rbuf := x.rbuf ++ p, dead := true }
        response := some { status := .authFail, out := [] } }) ∧
  ∀ (s w : State) (c v : Nat) (p rest lr : Bytes) (y : Context) (D : Descriptor) (good : List Bytes),
    DecryptAtChunk s c p y D w good rest v → v < 256 ^ nonceLen D.method - 2 →
    (Env.afterPrim^[2 * good.length] w.env).primFires = false →
    aeadDec D.method (y.subkey.take (keyLen D.method)) (unle (nonceLen D.method) v) (rest.take 18) = some lr →
    (unbe16 lr = 0 ∨ 0x3FFF < unbe16 lr) →
    exec (.tcpDecrypt c p) s = .next
      (w.diedAt c { y with nonce := nonceField D.method v, rbuf := rest } (2 * good.length + 1) .authFail)

/-- 44_tcp.md R211, R214 and 60_exceptions.md R282, R290: when the length header does not verify, or the payload of a wholly
buffered chunk does not, the answer is `AuthFail` and the context dies with the bytes appended. After good chunks of the same
command (R217) the nonce and the buffer stay past them and their plaintext is discarded. The tag check is a free value
(notes/assumptions/6.md), so it stands in the conclusion: the command completes whatever it says. -/
def Obligations.TcpDecryptTagFailureIsFatal : Prop :=
  (∀ (s : State) (c : Nat) (p : Bytes) (x : Context) (D : Descriptor),
    s.ctx[c]? = some x → x.valid = true → x.dir = .decrypt → x.dead = false → x.init = true →
    s.desc[x.desc]? = some D → (∀ b, s.cfg.maxIn = some b → p.length ≤ b) →
    34 < x.rbuf.length + p.length →
    le (x.nonce.take (nonceLen D.method)) < 256 ^ nonceLen D.method - 2 → s.env.primFires = false →
    ∃ t, exec (.tcpDecrypt c p) s = .next t ∧
      (aeadDec D.method (x.subkey.take (keyLen D.method)) (x.nonce.take (nonceLen D.method))
          ((x.rbuf ++ p).take 18) = none →
        t = { s with
          env := s.env.afterPrim
          ctx := s.ctx.set c { x with rbuf := x.rbuf ++ p, dead := true }
          response := some { status := .authFail, out := [] } }) ∧
      (∀ lr, aeadDec D.method (x.subkey.take (keyLen D.method)) (x.nonce.take (nonceLen D.method))
          ((x.rbuf ++ p).take 18) = some lr →
        1 ≤ unbe16 lr → unbe16 lr ≤ 0x3FFF → 34 + unbe16 lr ≤ x.rbuf.length + p.length →
        s.env.afterPrim.primFires = false →
        aeadDec D.method (x.subkey.take (keyLen D.method)) (nonceInc (x.nonce.take (nonceLen D.method)))
          (((x.rbuf ++ p).drop 18).take (unbe16 lr + 16)) = none →
        t = { s with
          env := s.env.afterPrim.afterPrim
          ctx := s.ctx.set c { x with rbuf := x.rbuf ++ p, dead := true }
          response := some { status := .authFail, out := [] } })) ∧
  ∀ (s w : State) (c v : Nat) (p rest : Bytes) (y : Context) (D : Descriptor) (good : List Bytes) (e : Env),
    DecryptAtChunk s c p y D w good rest v → v < 256 ^ nonceLen D.method - 2 →
    e = Env.afterPrim^[2 * good.length] w.env → e.primFires = false →
    ∃ t, exec (.tcpDecrypt c p) s = .next t ∧
      (aeadDec D.method (y.subkey.take (keyLen D.method)) (unle (nonceLen D.method) v) (rest.take 18) = none →
        t = w.diedAt c { y with nonce := nonceField D.method v, rbuf := rest } (2 * good.length + 1) .authFail) ∧
      (∀ lr,
        aeadDec D.method (y.subkey.take (keyLen D.method)) (unle (nonceLen D.method) v) (rest.take 18) = some lr →
        1 ≤ unbe16 lr → unbe16 lr ≤ 0x3FFF → 34 + unbe16 lr ≤ rest.length → e.afterPrim.primFires = false →
        aeadDec D.method (y.subkey.take (keyLen D.method)) (unle (nonceLen D.method) (v + 1))
          ((rest.drop 18).take (unbe16 lr + 16)) = none →
        t = w.diedAt c { y with nonce := nonceField D.method v, rbuf := rest } (2 * good.length + 2) .authFail)

/-! ### UDP -/

/-- 43_udp.md R181: the drawn salt, then the AEAD of the plaintext under the master key and the all-zero nonce; `Internal` when
the CSPRNG or the primitive fails. Nothing but the draws and the response changes. -/
def Obligations.UdpEncryptBuildsTheDatagram : Prop :=
  ∀ (s : State) (d : Nat) (p : Bytes) (D : Descriptor),
    s.desc[d]? = some D → D.valid = true → (∀ b, s.cfg.maxDgram = some b → p.length ≤ b) →
    exec (.udpEncrypt d p) s = .next
      (if s.env.primFires = true then
        { s with env := s.env.afterPrim, response := some { status := .internal, out := [] } }
      else if (s.env.afterPrim.afterRng (keyLen D.method)).primFires = true then
        { s with
          env := (s.env.afterPrim.afterRng (keyLen D.method)).afterPrim
          response := some { status := .internal, out := [] } }
      else
        { s with
          env := (s.env.afterPrim.afterRng (keyLen D.method)).afterPrim
          response := some
            { status := .ok
              out := s.env.afterPrim.rngBytes (keyLen D.method) ++
                aeadEnc D.method (D.masterKey.take (keyLen D.method)) (zeros (nonceLen D.method)) p } })

/-- 60_exceptions.md R284: a datagram of at most `key_len + 16` bytes is `TooShort` in every role; the filter is not probed and
no draw is taken. -/
def Obligations.UdpDecryptTooShort : Prop :=
  ∀ (s : State) (d : Nat) (datagram : Bytes) (D : Descriptor),
    s.desc[d]? = some D → D.valid = true → (∀ b, s.cfg.maxDgram = some b → datagram.length ≤ b) →
    datagram.length ≤ keyLen D.method + 16 →
    exec (.udpDecrypt d datagram) s = .next { s with response := some { status := .tooShort, out := [] } }

/-- 43_udp.md R183 on a client: the body is decrypted under the master key and the zero nonce; the filter is never touched. -/
def Obligations.UdpDecryptOnAClient : Prop :=
  ∀ (s : State) (d : Nat) (datagram : Bytes) (D : Descriptor), s.cfg.role = .client →
    s.desc[d]? = some D → D.valid = true → (∀ b, s.cfg.maxDgram = some b → datagram.length ≤ b) →
    keyLen D.method + 16 < datagram.length →
    exec (.udpDecrypt d datagram) s = .next
      { s with
        env := s.env.afterPrim
        response := some
          (if s.env.primFires = true then { status := .internal, out := [] }
          else
            match aeadDec D.method (D.masterKey.take (keyLen D.method)) (zeros (nonceLen D.method))
              (datagram.drop (keyLen D.method)) with
            | none => { status := .authFail, out := [] }
            | some r => { status := .ok, out := r }) }

/-- 43_udp.md R183, R184 on a server: a salt that is `Present` is `ReplayDetected` before any AEAD work (no `PrimFail` draw);
with an `Absent` salt a failed tag adds nothing to the filter; after a verified tag the insertion decides: on `Ok` the plaintext is
released with its salt added, on an internal error the answer is `Internal` and the filter is what the insertion left. -/
def Obligations.UdpDecryptOnAServer : Prop :=
  ∀ (s u : State) (d : Nat) (datagram : Bytes) (D : Descriptor) (salt : Bytes), s.cfg.role = .server →
    s.desc[d]? = some D → D.valid = true → (∀ b, s.cfg.maxDgram = some b → datagram.length ≤ b) →
    keyLen D.method + 16 < datagram.length → salt = datagram.take (keyLen D.method) →
    u = { s.afterCheck with env := s.afterCheck.env.afterPrim } →
    ∃ t, exec (.udpDecrypt d datagram) s = .next t ∧
      (s.checkAnswer salt = .present →
        t = { s.afterCheck with response := some { status := .replayDetected, out := [] } }) ∧
      (s.checkAnswer salt = .internalError →
        t = { s.afterCheck with response := some { status := .internal, out := [] } }) ∧
      (s.checkAnswer salt = .absent → s.afterCheck.env.primFires = true →
        t = { u with response := some { status := .internal, out := [] } }) ∧
      (s.checkAnswer salt = .absent → s.afterCheck.env.primFires = false →
        match aeadDec D.method (D.masterKey.take (keyLen D.method)) (zeros (nonceLen D.method))
          (datagram.drop (keyLen D.method)) with
        | none => t = { u with response := some { status := .authFail, out := [] } }
        | some r =>
          (u.addAnswer = .ok →
            t = { u.afterAdd salt with response := some { status := .ok, out := r } } ∧ salt ∈ t.filter) ∧
          (u.addAnswer = .internalError →
            t = { u.afterAdd salt with response := some { status := .internal, out := [] } }))

/-- 43_udp.md R186a: on a client, or on a server whose filter answers `Absent` and then `Ok` for the drawn salt, what
`UDP_ENCRYPT` made of a non-empty plaintext `UDP_DECRYPT` turns back into it. -/
def Obligations.UdpRoundTrip : Prop :=
  ∀ (s w : State) (d : Nat) (p salt : Bytes) (D : Descriptor) (e : Env), s.Inv →
    s.desc[d]? = some D → D.valid = true →
    (∀ b, s.cfg.maxDgram = some b → keyLen D.method + p.length + 16 ≤ b) → p ≠ [] →
    e = s.env.afterPrim.afterRng (keyLen D.method) → s.env.primFires = false → e.primFires = false →
    w = { s with env := e.afterPrim } → salt = s.env.afterPrim.rngBytes (keyLen D.method) →
    (s.cfg.role = .client ∧ w.env.primFires = false ∨
      s.cfg.role = .server ∧ w.checkAnswer salt = .absent ∧ w.afterCheck.env.primFires = false ∧
        { w.afterCheck with env := w.afterCheck.env.afterPrim }.addAnswer = .ok) →
    ∃ t u out, Answers (.udpEncrypt d p) s t .ok out ∧ Answers (.udpDecrypt d out) t u .ok p ∧
      (s.cfg.role = .server → salt ∈ u.filter)

/-- 43_udp.md R186b: a datagram that a server accepted is `ReplayDetected` when it comes again, if the filter has not evicted its
salt and takes no liberty. -/
def Obligations.UdpReplayIsRejected : Prop :=
  ∀ (s t : State) (d : Nat) (datagram out : Bytes) (D : Descriptor), s.cfg.role = .server →
    s.desc[d]? = some D → Answers (.udpDecrypt d datagram) s t .ok out →
    t.env.forgets (datagram.take (keyLen D.method)) = false → t.evict.env.checkDraw = .faithful →
    ∃ u, Answers (.udpDecrypt d datagram) t u .replayDetected []

/-- 43_udp.md R185, R186c: the salt enters neither key, nonce nor associated data, so on a client two datagrams with the same
body and any two salts are answered the same. -/
def Obligations.UdpSaltIsNotAuthenticated : Prop :=
  ∀ (s : State) (d : Nat) (salt1 salt2 body : Bytes) (D : Descriptor), s.cfg.role = .client →
    s.desc[d]? = some D → salt1.length = keyLen D.method → salt2.length = keyLen D.method →
    exec (.udpDecrypt d (salt1 ++ body)) s = exec (.udpDecrypt d (salt2 ++ body)) s

/-- 43_udp.md R180: a UDP command writes no slot; only `UDP_DECRYPT` on the server can change the filter. That the filter forgets
nothing by itself is the model's choice (notes/assumptions/10.md). -/
def Obligations.UdpTouchesNoSlot : Prop :=
  ∀ (s t : State) (d : Nat) (p : Bytes),
    (exec (.udpEncrypt d p) s = .next t →
      t.desc = s.desc ∧ t.ctx = s.ctx ∧ t.cfg = s.cfg ∧ t.inbox = s.inbox ∧ t.filter = s.filter) ∧
    (exec (.udpDecrypt d p) s = .next t →
      t.desc = s.desc ∧ t.ctx = s.ctx ∧ t.cfg = s.cfg ∧ t.inbox = s.inbox ∧
        (s.cfg.role = .client → t.filter = s.filter))

/-! ### Rules about every command -/

/-- 45_replay_filter.md R240, 10_state.md R38: with `ROLE = client` no command touches the filter. -/
def Obligations.ClientNeverTouchesTheFilter : Prop :=
  ∀ (i : Instr) (s t : State), s.cfg.role = .client → exec i s = .next t → t.filter = s.filter

/-- 45_replay_filter.md R242, R246: the filter gains nothing but the salt that a decode command presents. -/
def Obligations.FilterGainsOnlyThePresentedSalt : Prop :=
  ∀ (i : Instr) (s t : State), exec i s = .next t → ∀ u ∈ t.filter, u ∈ s.filter ∨
    match i with
    | .tcpDecrypt c arrived => ∃ x D, s.ctx[c]? = some x ∧ x.init = false ∧ s.desc[x.desc]? = some D ∧
        u = (x.rbuf ++ arrived).take (keyLen D.method)
    | .udpDecrypt d datagram => ∃ D, s.desc[d]? = some D ∧ u = datagram.take (keyLen D.method)
    | _ => False

/-- 10_state.md R22: a descriptor is immutable: only `CIPHER_INIT` and `CIPHER_FREE` change a slot, and only the one they
name, the first an empty one and the second a valid one. -/
def Obligations.DescriptorsAreImmutable : Prop :=
  ∀ (i : Instr) (s t : State) (k : Nat), exec i s = .next t → t.desc[k]? ≠ s.desc[k]? →
    (∃ m password D, i = .cipherInit k m password ∧ s.desc[k]? = some D ∧ D.valid = false) ∨
    (∃ D, i = .cipherFree k ∧ s.desc[k]? = some D ∧ D.valid = true)

/-- 20_memory.md R75 and 10_state.md R27: a command changes no context slot but the one it names. -/
def Obligations.CommandsTouchOnlyTheirContext : Prop :=
  ∀ (i : Instr) (s t : State) (k : Nat), exec i s = .next t → t.ctx[k]? ≠ s.ctx[k]? →
    match i with
    | .ctxNew _ c _ => c = k
    | .ctxFree c => c = k
    | .tcpEncrypt c _ => c = k
    | .tcpDecrypt c _ => c = k
    | _ => False

/-- 10_state.md R38, R39: no step changes the configuration or the number of slots. A command takes no event out of the inbox
but itself (the inbox is the model's field, notes/assumptions/1.md). -/
def Obligations.ConfigurationIsConstant : Prop :=
  (∀ s t : State, step s = .next t →
    t.cfg = s.cfg ∧ t.desc.length = s.desc.length ∧ t.ctx.length = s.ctx.length) ∧
  (∀ (i : Instr) (s t : State), exec i s = .next t → t.cfg = s.cfg ∧ t.inbox = s.inbox)

/-- 10_state.md R28, R29, R30: once `init` is set no command clears it or writes the salt or the subkey, but `CTX_FREE` of the
slot. -/
def Obligations.InitAndKeysAreWrittenOnce : Prop :=
  ∀ (i : Instr) (s t : State) (c : Nat) (x : Context),
    s.ctx[c]? = some x → x.valid = true → x.init = true → exec i s = .next t → i ≠ .ctxFree c →
    ∃ y, t.ctx[c]? = some y ∧ y.valid = true ∧ y.init = true ∧ y.salt = x.salt ∧ y.subkey = x.subkey ∧
      y.desc = x.desc ∧ y.dir = x.dir

/-- 60_exceptions.md R291, 44_tcp.md R222: a dead context is left as it is by every command but `CTX_FREE`, and TCP commands on
it are refused. -/
def Obligations.DeadContextsAcceptOnlyFree : Prop :=
  ∀ (i : Instr) (s t : State) (c : Nat) (x : Context),
    s.ctx[c]? = some x → x.valid = true → x.dead = true → exec i s = .next t → i ≠ .ctxFree c →
    t.ctx[c]? = some x ∧
    ((∃ p, i = .tcpEncrypt c p ∨ i = .tcpDecrypt c p) →
      t = { s with response := some { status := .refused, out := [] } })

/-- 60_exceptions.md R288: which command can return which status. -/
def Obligations.StatusesPerCommand : Prop :=
  ∀ (i : Instr) (s t : State), exec i s = .next t → ∃ r, t.response = some r ∧
    match i with
    | .cipherInit _ _ _ => r.status = .ok ∨ r.status = .internal ∨ r.status = .refused
    | .cipherFree _ => r.status = .ok ∨ r.status = .refused
    | .ctxNew _ _ _ => r.status = .ok ∨ r.status = .internal ∨ r.status = .refused
    | .ctxFree _ => r.status = .ok ∨ r.status = .refused
    | .tcpEncrypt _ _ =>
      r.status = .ok ∨ r.status = .internal ∨ r.status = .nonceExhausted ∨ r.status = .refused
    | .tcpDecrypt _ _ =>
      r.status ≠ .tooShort ∧ (r.status = .replayDetected → s.cfg.role = .server)
    | .udpEncrypt _ _ => r.status = .ok ∨ r.status = .internal ∨ r.status = .refused
    | .udpDecrypt _ _ =>
      r.status ≠ .needMore ∧ r.status ≠ .nonceExhausted ∧ (r.status = .replayDetected → s.cfg.role = .server)

/-- 30_encoding.md R98, 60_exceptions.md R285: a response with another status than `OK` has no output; the lifecycle commands
have none at all, and a decode command that answers `OK` returns at least one byte. In a state that no run reaches, with key fields
of another width, this rests on the length laws as the model puts them (notes/assumptions/6.md). -/
def Obligations.OnlyOkCarriesOutput : Prop :=
  ∀ (i : Instr) (s t : State) (r : Response), exec i s = .next t → t.response = some r →
    (r.status ≠ .ok → r.out = []) ∧
    (r.status = .ok →
      match i with
      | .cipherInit _ _ _ => r.out = []
      | .cipherFree _ => r.out = []
      | .ctxNew _ _ _ => r.out = []
      | .ctxFree _ => r.out = []
      | .tcpEncrypt _ p => r.out = [] → p = []
      | .tcpDecrypt _ _ => r.out ≠ []
      | .udpEncrypt _ _ => r.out ≠ []
      | .udpDecrypt _ _ => r.out ≠ [])

/-- 60_exceptions.md R290: a TCP command leaves a live context dead exactly when its status is `AuthFail`, `ReplayDetected`,
`NonceExhausted` or `Internal`. -/
def Obligations.FatalStatusKillsTheContext : Prop :=
  ∀ (i : Instr) (s t : State) (c : Nat) (p : Bytes) (x : Context) (st : Status) (out : Bytes),
    (i = .tcpEncrypt c p ∨ i = .tcpDecrypt c p) → s.ctx[c]? = some x → x.dead = false →
    Answers i s t st out →
    ∃ y, t.ctx[c]? = some y ∧ y.valid = x.valid ∧
      (y.dead = true ↔ st = .authFail ∨ st = .replayDetected ∨ st = .nonceExhausted ∨ st = .internal)

/-- 60_exceptions.md R296, conditions 3 and 5 to 12: a command is refused exactly when one of them holds. (Conditions 1, 2 and
4 are about the word and the input: `RefusedWordsChangeNothing`.) -/
def Obligations.RefusedExactlyWhenListed : Prop :=
  ∀ (i : Instr) (s t : State) (r : Response), exec i s = .next t → t.response = some r →
    (r.status = .refused ↔
      match i with
      | .cipherInit d _ password =>
        s.desc.length ≤ d ∨ (∃ b, s.cfg.maxPw = some b ∧ b < password.length) ∨
          (∃ D, s.desc[d]? = some D ∧ D.valid = true)
      | .cipherFree d =>
        s.desc.length ≤ d ∨ (∃ D, s.desc[d]? = some D ∧ D.valid = false) ∨ (∃ x ∈ s.ctx, x.valid = true ∧ x.desc = d)
      | .ctxNew d c _ =>
        s.desc.length ≤ d ∨ s.ctx.length ≤ c ∨ (∃ D, s.desc[d]? = some D ∧ D.valid = false) ∨
          (∃ x, s.ctx[c]? = some x ∧ x.valid = true)
      | .ctxFree c => s.ctx.length ≤ c ∨ (∃ x, s.ctx[c]? = some x ∧ x.valid = false)
      | .tcpEncrypt c p =>
        s.ctx.length ≤ c ∨ (∃ b, s.cfg.maxIn = some b ∧ b < p.length) ∨
          (∃ x, s.ctx[c]? = some x ∧ (x.valid = false ∨ x.dir = .decrypt ∨ x.dead = true))
      | .tcpDecrypt c p =>
        s.ctx.length ≤ c ∨ (∃ b, s.cfg.maxIn = some b ∧ b < p.length) ∨
          (∃ x, s.ctx[c]? = some x ∧ (x.valid = false ∨ x.dir = .encrypt ∨ x.dead = true))
      | .udpEncrypt d p =>
        s.desc.length ≤ d ∨ (∃ b, s.cfg.maxDgram = some b ∧ b < p.length) ∨
          (∃ D, s.desc[d]? = some D ∧ D.valid = false)
      | .udpDecrypt d p =>
        s.desc.length ≤ d ∨ (∃ b, s.cfg.maxDgram = some b ∧ b < p.length) ∨
          (∃ D, s.desc[d]? = some D ∧ D.valid = false))

/-- 60_exceptions.md R295: a refused command changes no slot, does not touch the filter and makes no draw. -/
def Obligations.RefusedMeansUnchanged : Prop :=
  ∀ (i : Instr) (s t : State) (r : Response), exec i s = .next t → t.response = some r → r.status = .refused →
    t = { s with response := some { status := .refused, out := [] } }

/-- 20_memory.md R73, R75: what a TCP command answers and makes of its context depends on no other context. -/
def Obligations.TcpCommandsSeeOnlyTheirContext : Prop :=
  ∀ (i : Instr) (s t u : State) (c : Nat) (p : Bytes), (i = .tcpEncrypt c p ∨ i = .tcpDecrypt c p) →
    u.cfg = s.cfg → u.desc = s.desc → u.filter = s.filter → u.env = s.env → u.ctx[c]? = s.ctx[c]? →
    exec i s = .next t →
    ∃ v, exec i u = .next v ∧ v.response = t.response ∧ v.ctx[c]? = t.ctx[c]? ∧ v.filter = t.filter

/-! ### Internal operations -/

/-- 42_aead_nonce.md R170: the nonce counter is little-endian `+1` over the whole string. -/
def Obligations.NonceIncIsLittleEndianSuccessor : Prop :=
  ∀ n : Bytes, (nonceInc n).length = n.length ∧ le (nonceInc n) = (le n + 1) % 256 ^ n.length

/-- 40_keying.md R136b: the lengths of the derived keys, for the lengths of the method table. -/
def Obligations.DerivedKeyLengths : Prop :=
  ∀ (m : Method) (password personal master salt : Bytes), master.length = keyLen m →
    (deriveMaster password (keyLen m)).length = keyLen m ∧
    (deriveSubkey personal master salt).length = keyLen m

/-- 40_keying.md R130, its example: `DeriveMaster("test", 32)`. -/
def Obligations.DeriveMasterOfTest : Prop :=
  deriveMaster [0x74, 0x65, 0x73, 0x74] 32 =
    [0x92, 0x8b, 0x20, 0x36, 0x69, 0x43, 0xe2, 0xaf, 0xd1, 0x1e, 0xbc, 0x0e, 0xae, 0x2e, 0x53, 0xa9,
     0x3b, 0xf1, 0x77, 0xa4, 0xfc, 0xf3, 0x5b, 0xcc, 0x64, 0xd5, 0x03, 0x70, 0x4e, 0x65, 0xe2, 0x02]

/-- 40_keying.md R134: only the first 16 bytes of a salt of at least 16 bytes reach the subkey. -/
def Obligations.SubkeyUsesTheFirst16SaltBytes : Prop :=
  ∀ personal master salt : Bytes, 16 ≤ salt.length →
    deriveSubkey personal master salt = blake2b [] master.length master (salt.take 16) (pers16 personal)

/-- 44_tcp.md R204: the greedy split of a non-empty plaintext. -/
def Obligations.SplitIsGreedy : Prop :=
  ∀ p : Bytes, 1 ≤ p.length →
    (splitChunks p).flatten = p ∧
    (splitChunks p).length = (p.length + 0x3FFE) / 0x3FFF ∧
    (∀ k q, (splitChunks p)[k]? = some q →
      if k + 1 < (splitChunks p).length then q.length = 0x3FFF
      else q.length = p.length - 0x3FFF * ((p.length + 0x3FFE) / 0x3FFF - 1) ∧ 1 ≤ q.length ∧ q.length ≤ 0x3FFF)

/-- 45_replay_filter.md R241 to R244: eviction only forgets; `Absent` is answered only for a salt not in `F`; `Ok` of an add
means the salt is in `F`; an add gains nothing else; slots and configuration are not touched. That the filter forgets at the start
of an operation and at no other time is the model's choice (notes/assumptions/10.md). -/
def Obligations.FilterOperationsFollowTheContract : Prop :=
  ∀ (s : State) (salt : Bytes),
    (∀ u ∈ s.evict.filter, u ∈ s.filter) ∧
    (s.checkAnswer salt = .absent → salt ∉ s.evict.filter) ∧
    (s.afterCheck.filter = s.evict.filter) ∧
    (s.addAnswer = .ok → ∀ u, u ∈ (s.afterAdd salt).filter ↔ u = salt ∨ u ∈ s.evict.filter) ∧
    (s.addAnswer = .internalError →
      (s.afterAdd salt).filter = s.evict.filter ∨
      ∀ u, u ∈ (s.afterAdd salt).filter ↔ u = salt ∨ u ∈ s.evict.filter) ∧
    (s.afterAdd salt).desc = s.desc ∧ (s.afterAdd salt).ctx = s.ctx ∧ (s.afterAdd salt).cfg = s.cfg

/-! ### The stream -/

/-- 44_tcp.md R223 (the source's property 1), on a client: plaintexts fed to a fresh encrypt context and delivered to a fresh
decrypt context of the same method and key, cut anywhere, come out concatenated; no response is fatal; the buffer ends empty
and both nonces count two for each chunk. "No `PrimFail`" is asked of as many draws as the two sides can make. -/
def Obligations.TcpRoundTrip : Prop :=
  ∀ (s : State) (e r : Nat) (x y : Context) (D E : Descriptor) (ps : List Bytes) (most : Nat), s.Inv →
    s.cfg.role = .client → s.cfg.maxIn = none → e ≠ r →
    s.ctx[e]? = some x → FreshContext .encrypt x → s.ctx[r]? = some y → FreshContext .decrypt y →
    s.desc[x.desc]? = some D → s.desc[y.desc]? = some E → E.method = D.method → E.masterKey = D.masterKey →
    chunkCount ps ≤ 2 ^ (8 * nonceLen D.method - 1) - 1 →
    s.env.quiet (2 + 4 * chunkCount ps + most) →
    ∃ wire t, sendAll e ps s = some (wire, t) ∧
      ∀ cuts : List Bytes, cuts.flatten = wire → cuts.length ≤ most →
        ∃ u x' y', receiveAll r cuts t = some (ps.flatten, u) ∧
          u.ctx[e]? = some x' ∧ le (x'.nonce.take (nonceLen D.method)) = 2 * chunkCount ps ∧
          u.ctx[r]? = some y' ∧ le (y'.nonce.take (nonceLen D.method)) = 2 * chunkCount ps ∧
          y'.rbuf = [] ∧ y'.dead = false
end

