-- ==== Sys2Proof/Laws/Bytes.lean ====
section
/-! SUPPORT. The laws of byte strings: lengths, the two integer conversions, fields of fixed size, and the lengths that the
hash and the key derivation answer. -/

namespace Sys2Proof.Machine

@[simp] theorem zeros_length (n : Nat) : (zeros n).length = n := by simp [zeros]

@[simp] theorem fit_length (n : Nat) (s : Bytes) : (fit n s).length = n := by
  simp [fit]; omega

/-- A string no longer than its field stands in front. -/
theorem fit_of_length_le {n : Nat} {s : Bytes} (h : s.length ≤ n) : fit n s = s ++ zeros (n - s.length) := by
  simp [fit, List.take_of_length_le h]

theorem fit_eq_self {n : Nat} {s : Bytes} (h : s.length = n) : fit n s = s := by
  simp [fit_of_length_le h.le, h, zeros]

theorem fit_take {n : Nat} {s : Bytes} (h : s.length ≤ n) : (fit n s).take s.length = s := by
  simp [fit_of_length_le h]

theorem fit_drop {n : Nat} {s : Bytes} (h : s.length ≤ n) : (fit n s).drop s.length = zeros (n - s.length) := by
  simp [fit_of_length_le h]

@[simp] theorem be16_length (v : Nat) : (be16 v).length = 2 := rfl

/-- `unbe16` reads back what `be16` wrote (00_scope.md R8). -/
theorem unbe16_be16 {v : Nat} (h : v < 65536) : unbe16 (be16 v) = v := by
  simp [unbe16, be16]; omega

@[simp] theorem unle_length (n v : Nat) : (unle n v).length = n := by
  induction n generalizing v with
  | zero => rfl
  | succ n ih => simp [unle, ih]

@[simp] theorem le_nil : le [] = 0 := rfl

theorem le_cons (b : Byte) (s : Bytes) : le (b :: s) = b.toNat + 256 * le s := rfl

theorem le_lt (s : Bytes) : le s < 256 ^ s.length := by
  induction s with
  | nil => simp
  | cons b s ih =>
    have := b.isLt
    rw [le_cons, List.length_cons, pow_succ]
    omega

/-- `le` reads `v mod 256^n` back from its `n`-byte string (00_scope.md R8). -/
theorem le_unle (n v : Nat) : le (unle n v) = v % 256 ^ n := by
  induction n generalizing v with
  | zero => simp [unle, Nat.mod_one]
  | succ n ih =>
    rw [unle, le_cons, ih, pow_succ', Nat.mod_mul]
    simp

/-- A byte string is the little-endian string of its value. -/
theorem unle_le (s : Bytes) : unle s.length (le s) = s := by
  induction s with
  | nil => rfl
  | cons b s ih =>
    have hb := b.isLt
    rw [le_cons, List.length_cons, unle]
    have h1 : BitVec.ofNat 8 (b.toNat + 256 * le s) = b := by
      apply BitVec.eq_of_toNat_eq
      simp only [BitVec.toNat_ofNat]
      omega
    have h2 : (b.toNat + 256 * le s) / 256 = le s := by omega
    rw [h1, h2, ih]

@[simp] theorem le_zeros (n : Nat) : le (zeros n) = 0 := by
  induction n with
  | zero => rfl
  | succ n ih => rw [zeros, List.replicate_succ, le_cons]; simpa [zeros] using ih

theorem unle_zero (n : Nat) : unle n 0 = zeros n := by
  have := unle_le (zeros n)
  rwa [zeros_length, le_zeros] at this

@[simp] theorem nonceInc_length (n : Bytes) : (nonceInc n).length = n.length := by simp [nonceInc]

theorem keyLen_pos (m : Method) : 16 ≤ keyLen m := by cases m <;> decide

theorem keyLen_le (m : Method) : keyLen m ≤ 32 := by cases m <;> decide

theorem nonceLen_pos (m : Method) : 8 ≤ nonceLen m := by cases m <;> decide

theorem nonceLen_le (m : Method) : nonceLen m ≤ 24 := by cases m <;> decide

@[simp] theorem storeNonce_length (n : Bytes) : (storeNonce n).length = 24 := by simp [storeNonce]

/-- A stored nonce is read back by the AEAD calls (10_state.md R27). -/
theorem liveNonce_storeNonce {m : Method} {n : Bytes} (h : n.length = nonceLen m) : liveNonce m (storeNonce n) = n := by
  have h24 : n.length ≤ 24 := h ▸ nonceLen_le m
  rw [liveNonce, storeNonce, ← h]
  exact fit_take h24

theorem liveNonce_length {m : Method} {stored : Bytes} (h : stored.length = 24) :
    (liveNonce m stored).length = nonceLen m := by
  have := nonceLen_le m
  simp [liveNonce]; omega

/-! ### Lengths of the hash -/

@[simp] theorem blakeWords_length (n : Nat) (s : Bytes) : (blakeWords n s).length = n := by simp [blakeWords]

@[simp] theorem blakeF_length (h : List Word64) (b : Bytes) (t : Nat) (last : Bool) : (blakeF h b t last).length = 8 := by
  simp [blakeF]

@[simp] theorem blakeInit_length (o k : Nat) (salt personal : Bytes) : (blakeInit o k salt personal).length = 8 := by
  simp [blakeInit, blakeIV]

@[simp] theorem blakeAbsorb_length (h : List Word64) (data : Bytes) : (blakeAbsorb h data).length = 8 := by
  unfold blakeAbsorb
  split <;> simp

/-- The string of a list of 64-bit words has eight bytes for each. -/
theorem length_flatMap_unle (l : List Word64) : (l.flatMap fun w => unle 8 w.toNat).length = 8 * l.length := by
  induction l with
  | nil => rfl
  | cons w l ih => simp only [List.flatMap_cons, List.length_append, unle_length, ih, List.length_cons]; omega

/-- `|BLAKE2b(.., outlen, ..)| = outlen` for `outlen ≤ 64` (41_blake2b.md R140). -/
theorem blake2b_length (msg : Bytes) {outlen : Nat} (key salt personal : Bytes) (h : outlen ≤ 64) :
    (blake2b msg outlen key salt personal).length = outlen := by
  simp only [blake2b, List.length_take, length_flatMap_unle, blakeAbsorb_length]
  omega

end Sys2Proof.Machine
end

