-- ==== Sys2Proof/Laws/SaltSet.lean ====
section
/-! SUPPORT. The laws of the replay filter's content: membership, and that every operation keeps the canonical form. -/

namespace Sys2Proof.Machine

theorem saltKey_pos (s : Bytes) : 1 ≤ saltKey s := by
  induction s with
  | nil => simp [saltKey]
  | cons b s ih => simp only [saltKey, List.foldr_cons] at ih ⊢; omega

/-- Different strings have different keys. -/
theorem saltKey_injective : ∀ {s t : Bytes}, saltKey s = saltKey t → s = t
  | [], [], _ => rfl
  | [], b :: t, h => by
    have := saltKey_pos t
    simp only [saltKey, List.foldr_cons, List.foldr_nil] at h this
    omega
  | b :: s, [], h => (saltKey_injective h.symm).symm
  | b :: s, c :: t, h => by
    have hb := b.isLt
    have hc := c.isLt
    simp only [saltKey, List.foldr_cons] at h
    have h1 : b.toNat = c.toNat := by omega
    have h2 : saltKey s = saltKey t := by simp only [saltKey]; omega
    rw [BitVec.eq_of_toNat_eq h1, saltKey_injective h2]

@[simp] theorem mem_saltInsert {s t : Bytes} {F : List Bytes} : t ∈ saltInsert s F ↔ t = s ∨ t ∈ F := by
  induction F with
  | nil => simp [saltInsert]
  | cons u F ih =>
    unfold saltInsert
    split
    · next h => subst h; simp
    · split
      · simp
      · simp only [List.mem_cons, ih]; tauto

/-- Insertion keeps the canonical form. -/
theorem saltInsert_wf {s : Bytes} {F : List Bytes} (h : SaltSetWf F) : SaltSetWf (saltInsert s F) := by
  induction F with
  | nil => simp [saltInsert]
  | cons u F ih =>
    have h := List.pairwise_cons.mp h
    unfold saltInsert
    split
    · exact List.pairwise_cons.mpr h
    · next hne =>
      split
      · next hlt =>
        refine List.pairwise_cons.mpr ⟨fun v hv => ?_, List.pairwise_cons.mpr h⟩
        rcases List.mem_cons.mp hv with rfl | hv
        · exact hlt
        · exact hlt.trans (h.1 v hv)
      · next hge =>
        refine List.pairwise_cons.mpr ⟨fun v hv => ?_, ih h.2⟩
        rcases mem_saltInsert.mp hv with rfl | hv
        · have : saltKey v ≠ saltKey u := fun e => hne (saltKey_injective e)
          omega
        · exact h.1 v hv

theorem saltSet_wf (l : List Bytes) : SaltSetWf (saltSet l) := by
  induction l with
  | nil => exact List.Pairwise.nil
  | cons s l ih => exact saltInsert_wf ih

@[simp] theorem mem_saltSet {t : Bytes} {l : List Bytes} : t ∈ saltSet l ↔ t ∈ l := by
  induction l with
  | nil => simp [saltSet]
  | cons s l ih =>
    show t ∈ saltInsert s (saltSet l) ↔ _
    simp [ih]

/-- Two canonical lists with the same members are the same list: equal sets are equal data. -/
theorem saltSetWf_ext {F G : List Bytes} (hF : SaltSetWf F) (hG : SaltSetWf G) (h : ∀ t, t ∈ F ↔ t ∈ G) : F = G := by
  have nodup : ∀ {L : List Bytes}, SaltSetWf L → L.Nodup := fun hL => hL.imp fun hlt heq => by subst heq; omega
  have hp : F.Perm G := (List.perm_ext_iff_of_nodup (nodup hF) (nodup hG)).mpr h
  exact hp.eq_of_pairwise (fun a b _ _ hab hba => absurd hab (by omega)) hF hG

/-- Adding a salt already present changes nothing (45_replay_filter.md R242). -/
theorem saltInsert_of_mem {s : Bytes} {F : List Bytes} (hF : SaltSetWf F) (h : s ∈ F) : saltInsert s F = F :=
  saltSetWf_ext (saltInsert_wf hF) hF fun t => by
    rw [mem_saltInsert]
    exact ⟨fun e => e.elim (fun e => e ▸ h) id, Or.inr⟩

/-- Forgetting keeps the canonical form. -/
theorem evict_filter_wf {s : State} (h : SaltSetWf s.filter) : SaltSetWf s.evict.filter := h.filter _

/-! ### What a `FilterAdd` can do -/

/-- `FilterAdd` touches the filter and the environment only; the filter is what eviction left, or that with the salt, and with
the salt when the answer is `Ok` (45_replay_filter.md R242). -/
theorem afterAdd_cases (s : State) (salt : Bytes) :
    ∃ F, s.afterAdd salt = { s with filter := F, env := s.env.afterForget.afterAdd } ∧
      (F = s.evict.filter ∨ F = saltInsert salt s.evict.filter) ∧
      (s.addAnswer = .ok → F = saltInsert salt s.evict.filter) := by
  unfold State.afterAdd State.addAnswer
  cases s.evict.env.addDraw with
  | ok => exact ⟨_, rfl, Or.inr rfl, fun _ => rfl⟩
  | failedClean => exact ⟨_, rfl, Or.inl rfl, fun h => by simp at h⟩
  | failedInserted => exact ⟨_, rfl, Or.inr rfl, fun _ => rfl⟩

/-- Check keeps the canonical form. -/
theorem afterCheck_filter_wf {s : State} (h : SaltSetWf s.filter) : SaltSetWf s.afterCheck.filter := h.filter _

/-- Add keeps the canonical form. -/
theorem afterAdd_filter_wf {s : State} (salt : Bytes) (h : SaltSetWf s.filter) : SaltSetWf (s.afterAdd salt).filter := by
  obtain ⟨F, hs, hF, -⟩ := afterAdd_cases s salt
  rw [hs]
  rcases hF with rfl | rfl
  · exact evict_filter_wf h
  · exact saltInsert_wf (evict_filter_wf h)

/-- A probe answers `Present` for a salt in `F` that the filter keeps, when it takes no liberty (45_replay_filter.md R241). -/
theorem checkAnswer_faithful {s : State} {salt : Bytes} (h : s.evict.env.checkDraw = .faithful) :
    s.checkAnswer salt = .present ↔ salt ∈ s.evict.filter := by
  simp [State.checkAnswer, h]

end Sys2Proof.Machine
end

