-- ==== Sys2Proof/Laws/State.lean ====
section
/-! SUPPORT. What each update of the state leaves in each field, one lemma per field per update, so that no later proof unfolds
a record update. -/

namespace Sys2Proof.Machine

/-! ### The fields after writing a descriptor slot -/

@[simp] theorem State.setDesc_cfg (s : State) (d : Nat) (D : Descriptor) : (s.setDesc d D).cfg = s.cfg := rfl

@[simp] theorem State.setDesc_desc (s : State) (d : Nat) (D : Descriptor) : (s.setDesc d D).desc = s.desc.set d D := rfl

@[simp] theorem State.setDesc_ctx (s : State) (d : Nat) (D : Descriptor) : (s.setDesc d D).ctx = s.ctx := rfl

@[simp] theorem State.setDesc_filter (s : State) (d : Nat) (D : Descriptor) : (s.setDesc d D).filter = s.filter := rfl

@[simp] theorem State.setDesc_env (s : State) (d : Nat) (D : Descriptor) : (s.setDesc d D).env = s.env := rfl

@[simp] theorem State.setDesc_inbox (s : State) (d : Nat) (D : Descriptor) : (s.setDesc d D).inbox = s.inbox := rfl

@[simp] theorem State.setDesc_response (s : State) (d : Nat) (D : Descriptor) : (s.setDesc d D).response = s.response := rfl

/-! ### The fields after writing a context slot -/

@[simp] theorem State.setCtx_cfg (s : State) (c : Nat) (x : Context) : (s.setCtx c x).cfg = s.cfg := rfl

@[simp] theorem State.setCtx_desc (s : State) (c : Nat) (x : Context) : (s.setCtx c x).desc = s.desc := rfl

@[simp] theorem State.setCtx_ctx (s : State) (c : Nat) (x : Context) : (s.setCtx c x).ctx = s.ctx.set c x := rfl

@[simp] theorem State.setCtx_filter (s : State) (c : Nat) (x : Context) : (s.setCtx c x).filter = s.filter := rfl

@[simp] theorem State.setCtx_env (s : State) (c : Nat) (x : Context) : (s.setCtx c x).env = s.env := rfl

@[simp] theorem State.setCtx_inbox (s : State) (c : Nat) (x : Context) : (s.setCtx c x).inbox = s.inbox := rfl

@[simp] theorem State.setCtx_response (s : State) (c : Nat) (x : Context) : (s.setCtx c x).response = s.response := rfl

/-! ### The fields after setting the environment -/

@[simp] theorem State.setEnv_cfg (s : State) (e : Env) : (s.setEnv e).cfg = s.cfg := rfl

@[simp] theorem State.setEnv_desc (s : State) (e : Env) : (s.setEnv e).desc = s.desc := rfl

@[simp] theorem State.setEnv_ctx (s : State) (e : Env) : (s.setEnv e).ctx = s.ctx := rfl

@[simp] theorem State.setEnv_filter (s : State) (e : Env) : (s.setEnv e).filter = s.filter := rfl

@[simp] theorem State.setEnv_env (s : State) (e : Env) : (s.setEnv e).env = e := rfl

@[simp] theorem State.setEnv_inbox (s : State) (e : Env) : (s.setEnv e).inbox = s.inbox := rfl

@[simp] theorem State.setEnv_response (s : State) (e : Env) : (s.setEnv e).response = s.response := rfl

/-! ### The fields after taking an event from the inbox -/

@[simp] theorem State.withInbox_cfg (s : State) (later : List HostEvent) : (s.withInbox later).cfg = s.cfg := rfl

@[simp] theorem State.withInbox_desc (s : State) (later : List HostEvent) : (s.withInbox later).desc = s.desc := rfl

@[simp] theorem State.withInbox_ctx (s : State) (later : List HostEvent) : (s.withInbox later).ctx = s.ctx := rfl

@[simp] theorem State.withInbox_filter (s : State) (later : List HostEvent) : (s.withInbox later).filter = s.filter := rfl

@[simp] theorem State.withInbox_env (s : State) (later : List HostEvent) : (s.withInbox later).env = s.env := rfl

@[simp] theorem State.withInbox_inbox (s : State) (later : List HostEvent) : (s.withInbox later).inbox = later := rfl

@[simp] theorem State.withInbox_response (s : State) (later : List HostEvent) : (s.withInbox later).response = s.response := rfl

/-! ### The fields after ending with a response -/

@[simp] theorem State.respond_cfg (s : State) (st : Status) (out : Bytes) : (s.respond st out).cfg = s.cfg := rfl

@[simp] theorem State.respond_desc (s : State) (st : Status) (out : Bytes) : (s.respond st out).desc = s.desc := rfl

@[simp] theorem State.respond_ctx (s : State) (st : Status) (out : Bytes) : (s.respond st out).ctx = s.ctx := rfl

@[simp] theorem State.respond_filter (s : State) (st : Status) (out : Bytes) : (s.respond st out).filter = s.filter := rfl

@[simp] theorem State.respond_env (s : State) (st : Status) (out : Bytes) : (s.respond st out).env = s.env := rfl

@[simp] theorem State.respond_inbox (s : State) (st : Status) (out : Bytes) : (s.respond st out).inbox = s.inbox := rfl

@[simp] theorem State.respond_response (s : State) (st : Status) (out : Bytes) : (s.respond st out).response = some { status := st, out := out } := rfl

/-! ### The fields after refusing -/

@[simp] theorem State.refuse_cfg (s : State) : (s.refuse).cfg = s.cfg := rfl

@[simp] theorem State.refuse_desc (s : State) : (s.refuse).desc = s.desc := rfl

@[simp] theorem State.refuse_ctx (s : State) : (s.refuse).ctx = s.ctx := rfl

@[simp] theorem State.refuse_filter (s : State) : (s.refuse).filter = s.filter := rfl

@[simp] theorem State.refuse_env (s : State) : (s.refuse).env = s.env := rfl

@[simp] theorem State.refuse_inbox (s : State) : (s.refuse).inbox = s.inbox := rfl

@[simp] theorem State.refuse_response (s : State) : (s.refuse).response = some { status := .refused, out := [] } := rfl

/-! ### The fields after fatal entry -/

@[simp] theorem State.raise_cfg (s : State) (c : Nat) (x : Context) (st : Status) : (s.raise c x st).cfg = s.cfg := rfl

@[simp] theorem State.raise_desc (s : State) (c : Nat) (x : Context) (st : Status) : (s.raise c x st).desc = s.desc := rfl

@[simp] theorem State.raise_ctx (s : State) (c : Nat) (x : Context) (st : Status) : (s.raise c x st).ctx = s.ctx.set c { x with dead := true } := rfl

@[simp] theorem State.raise_filter (s : State) (c : Nat) (x : Context) (st : Status) : (s.raise c x st).filter = s.filter := rfl

@[simp] theorem State.raise_env (s : State) (c : Nat) (x : Context) (st : Status) : (s.raise c x st).env = s.env := rfl

@[simp] theorem State.raise_inbox (s : State) (c : Nat) (x : Context) (st : Status) : (s.raise c x st).inbox = s.inbox := rfl

@[simp] theorem State.raise_response (s : State) (c : Nat) (x : Context) (st : Status) : (s.raise c x st).response = some { status := st, out := [] } := rfl

/-! ### The fields after an eviction -/

@[simp] theorem State.evict_cfg (s : State) : (s.evict).cfg = s.cfg := rfl

@[simp] theorem State.evict_desc (s : State) : (s.evict).desc = s.desc := rfl

@[simp] theorem State.evict_ctx (s : State) : (s.evict).ctx = s.ctx := rfl

@[simp] theorem State.evict_filter (s : State) : (s.evict).filter = s.filter.filter fun t => !s.env.forgets t := rfl

@[simp] theorem State.evict_env (s : State) : (s.evict).env = s.env.afterForget := rfl

@[simp] theorem State.evict_inbox (s : State) : (s.evict).inbox = s.inbox := rfl

@[simp] theorem State.evict_response (s : State) : (s.evict).response = s.response := rfl

/-! ### The fields after a FilterCheck -/

@[simp] theorem State.afterCheck_cfg (s : State) : (s.afterCheck).cfg = s.cfg := rfl

@[simp] theorem State.afterCheck_desc (s : State) : (s.afterCheck).desc = s.desc := rfl

@[simp] theorem State.afterCheck_ctx (s : State) : (s.afterCheck).ctx = s.ctx := rfl

@[simp] theorem State.afterCheck_filter (s : State) : (s.afterCheck).filter = s.filter.filter fun t => !s.env.forgets t := rfl

@[simp] theorem State.afterCheck_env (s : State) : (s.afterCheck).env = s.env.afterForget.afterCheck := rfl

@[simp] theorem State.afterCheck_inbox (s : State) : (s.afterCheck).inbox = s.inbox := rfl

@[simp] theorem State.afterCheck_response (s : State) : (s.afterCheck).response = s.response := rfl

/-! ### The fields after an insertion, whatever it answers, but the filter and the draws -/

@[simp] theorem State.afterAdd_cfg (s : State) (salt : Bytes) : (s.afterAdd salt).cfg = s.cfg := by
  unfold State.afterAdd
  split <;> rfl

@[simp] theorem State.afterAdd_desc (s : State) (salt : Bytes) : (s.afterAdd salt).desc = s.desc := by
  unfold State.afterAdd
  split <;> rfl

@[simp] theorem State.afterAdd_ctx (s : State) (salt : Bytes) : (s.afterAdd salt).ctx = s.ctx := by
  unfold State.afterAdd
  split <;> rfl

@[simp] theorem State.afterAdd_inbox (s : State) (salt : Bytes) : (s.afterAdd salt).inbox = s.inbox := by
  unfold State.afterAdd
  split <;> rfl

@[simp] theorem State.afterAdd_response (s : State) (salt : Bytes) : (s.afterAdd salt).response = s.response := by
  unfold State.afterAdd
  split <;> rfl

/-! ### The fields after the reset event -/

@[simp] theorem State.resetEvent_cfg (s : State) : (s.resetEvent).cfg = s.cfg := rfl

@[simp] theorem State.resetEvent_desc (s : State) : (s.resetEvent).desc = List.replicate s.desc.length Descriptor.empty := rfl

@[simp] theorem State.resetEvent_ctx (s : State) : (s.resetEvent).ctx = List.replicate s.ctx.length Context.empty := rfl

@[simp] theorem State.resetEvent_filter (s : State) : (s.resetEvent).filter = saltSet s.cfg.f0 := rfl

@[simp] theorem State.resetEvent_env (s : State) : (s.resetEvent).env = s.env := rfl

@[simp] theorem State.resetEvent_inbox (s : State) : (s.resetEvent).inbox = s.inbox := rfl

@[simp] theorem State.resetEvent_response (s : State) : (s.resetEvent).response = none := rfl

/-! ### The fields of a context after RbufAppend -/

@[simp] theorem Context.rbufAppend_valid (x : Context) (b : Bytes) : (x.rbufAppend b).valid = x.valid := rfl

@[simp] theorem Context.rbufAppend_desc (x : Context) (b : Bytes) : (x.rbufAppend b).desc = x.desc := rfl

@[simp] theorem Context.rbufAppend_dir (x : Context) (b : Bytes) : (x.rbufAppend b).dir = x.dir := rfl

@[simp] theorem Context.rbufAppend_init (x : Context) (b : Bytes) : (x.rbufAppend b).init = x.init := rfl

@[simp] theorem Context.rbufAppend_dead (x : Context) (b : Bytes) : (x.rbufAppend b).dead = x.dead := rfl

@[simp] theorem Context.rbufAppend_salt (x : Context) (b : Bytes) : (x.rbufAppend b).salt = x.salt := rfl

@[simp] theorem Context.rbufAppend_subkey (x : Context) (b : Bytes) : (x.rbufAppend b).subkey = x.subkey := rfl

@[simp] theorem Context.rbufAppend_nonce (x : Context) (b : Bytes) : (x.rbufAppend b).nonce = x.nonce := rfl

@[simp] theorem Context.rbufAppend_rbuf (x : Context) (b : Bytes) : (x.rbufAppend b).rbuf = x.rbuf ++ b := rfl

/-! ### The fields of a context after RbufDrop -/

@[simp] theorem Context.rbufDrop_valid (x : Context) (n : Nat) : (x.rbufDrop n).valid = x.valid := rfl

@[simp] theorem Context.rbufDrop_desc (x : Context) (n : Nat) : (x.rbufDrop n).desc = x.desc := rfl

@[simp] theorem Context.rbufDrop_dir (x : Context) (n : Nat) : (x.rbufDrop n).dir = x.dir := rfl

@[simp] theorem Context.rbufDrop_init (x : Context) (n : Nat) : (x.rbufDrop n).init = x.init := rfl

@[simp] theorem Context.rbufDrop_dead (x : Context) (n : Nat) : (x.rbufDrop n).dead = x.dead := rfl

@[simp] theorem Context.rbufDrop_salt (x : Context) (n : Nat) : (x.rbufDrop n).salt = x.salt := rfl

@[simp] theorem Context.rbufDrop_subkey (x : Context) (n : Nat) : (x.rbufDrop n).subkey = x.subkey := rfl

@[simp] theorem Context.rbufDrop_nonce (x : Context) (n : Nat) : (x.rbufDrop n).nonce = x.nonce := rfl

@[simp] theorem Context.rbufDrop_rbuf (x : Context) (n : Nat) : (x.rbufDrop n).rbuf = x.rbuf.drop n := rfl

/-! ### The fields of a context after storing the derived subkey -/

@[simp] theorem Context.keyed_valid (x : Context) (cfg : Params) (D : Descriptor) : (x.keyed cfg D).valid = x.valid := rfl

@[simp] theorem Context.keyed_desc (x : Context) (cfg : Params) (D : Descriptor) : (x.keyed cfg D).desc = x.desc := rfl

@[simp] theorem Context.keyed_dir (x : Context) (cfg : Params) (D : Descriptor) : (x.keyed cfg D).dir = x.dir := rfl

@[simp] theorem Context.keyed_init (x : Context) (cfg : Params) (D : Descriptor) : (x.keyed cfg D).init = x.init := rfl

@[simp] theorem Context.keyed_dead (x : Context) (cfg : Params) (D : Descriptor) : (x.keyed cfg D).dead = x.dead := rfl

@[simp] theorem Context.keyed_salt (x : Context) (cfg : Params) (D : Descriptor) : (x.keyed cfg D).salt = x.salt := rfl

@[simp] theorem Context.keyed_subkey (x : Context) (cfg : Params) (D : Descriptor) : (x.keyed cfg D).subkey = fit 32 (deriveSubkey cfg.personal D.key (x.liveSalt D.method)) := rfl

@[simp] theorem Context.keyed_nonce (x : Context) (cfg : Params) (D : Descriptor) : (x.keyed cfg D).nonce = x.nonce := rfl

@[simp] theorem Context.keyed_rbuf (x : Context) (cfg : Params) (D : Descriptor) : (x.keyed cfg D).rbuf = x.rbuf := rfl

/-! ### The fields of a context after flipping `init` -/

@[simp] theorem Context.started_valid (x : Context) (m : Method) : (x.started m).valid = x.valid := rfl

@[simp] theorem Context.started_desc (x : Context) (m : Method) : (x.started m).desc = x.desc := rfl

@[simp] theorem Context.started_dir (x : Context) (m : Method) : (x.started m).dir = x.dir := rfl

@[simp] theorem Context.started_init (x : Context) (m : Method) : (x.started m).init = true := rfl

@[simp] theorem Context.started_dead (x : Context) (m : Method) : (x.started m).dead = x.dead := rfl

@[simp] theorem Context.started_salt (x : Context) (m : Method) : (x.started m).salt = x.salt := rfl

@[simp] theorem Context.started_subkey (x : Context) (m : Method) : (x.started m).subkey = x.subkey := rfl

@[simp] theorem Context.started_nonce (x : Context) (m : Method) : (x.started m).nonce = storedZeroNonce m := rfl

@[simp] theorem Context.started_rbuf (x : Context) (m : Method) : (x.started m).rbuf = x.rbuf := rfl

/-! ### The environment after a draw: afterPrim -/

@[simp] theorem Env.afterPrim_prim (e : Env) : (e.afterPrim).prim = e.prim.tail := rfl

@[simp] theorem Env.afterPrim_rng (e : Env) : (e.afterPrim).rng = e.rng := rfl

@[simp] theorem Env.afterPrim_check (e : Env) : (e.afterPrim).check = e.check := rfl

@[simp] theorem Env.afterPrim_add (e : Env) : (e.afterPrim).add = e.add := rfl

@[simp] theorem Env.afterPrim_forget (e : Env) : (e.afterPrim).forget = e.forget := rfl

@[simp] theorem Env.afterPrim_ticket (e : Env) : (e.afterPrim).ticket = e.ticket + 1 := rfl

/-! ### The environment after a draw: afterRng -/

@[simp] theorem Env.afterRng_prim (e : Env) (n : Nat) : (e.afterRng n).prim = e.prim := rfl

@[simp] theorem Env.afterRng_rng (e : Env) (n : Nat) : (e.afterRng n).rng = e.rng.drop n := rfl

@[simp] theorem Env.afterRng_check (e : Env) (n : Nat) : (e.afterRng n).check = e.check := rfl

@[simp] theorem Env.afterRng_add (e : Env) (n : Nat) : (e.afterRng n).add = e.add := rfl

@[simp] theorem Env.afterRng_forget (e : Env) (n : Nat) : (e.afterRng n).forget = e.forget := rfl

@[simp] theorem Env.afterRng_ticket (e : Env) (n : Nat) : (e.afterRng n).ticket = e.ticket + 1 := rfl

/-! ### The environment after a draw: afterCheck -/

@[simp] theorem Env.afterCheck_prim (e : Env) : (e.afterCheck).prim = e.prim := rfl

@[simp] theorem Env.afterCheck_rng (e : Env) : (e.afterCheck).rng = e.rng := rfl

@[simp] theorem Env.afterCheck_check (e : Env) : (e.afterCheck).check = e.check.tail := rfl

@[simp] theorem Env.afterCheck_add (e : Env) : (e.afterCheck).add = e.add := rfl

@[simp] theorem Env.afterCheck_forget (e : Env) : (e.afterCheck).forget = e.forget := rfl

@[simp] theorem Env.afterCheck_ticket (e : Env) : (e.afterCheck).ticket = e.ticket + 1 := rfl

/-! ### The environment after a draw: afterAdd -/

@[simp] theorem Env.afterAdd_prim (e : Env) : (e.afterAdd).prim = e.prim := rfl

@[simp] theorem Env.afterAdd_rng (e : Env) : (e.afterAdd).rng = e.rng := rfl

@[simp] theorem Env.afterAdd_check (e : Env) : (e.afterAdd).check = e.check := rfl

@[simp] theorem Env.afterAdd_add (e : Env) : (e.afterAdd).add = e.add.tail := rfl

@[simp] theorem Env.afterAdd_forget (e : Env) : (e.afterAdd).forget = e.forget := rfl

@[simp] theorem Env.afterAdd_ticket (e : Env) : (e.afterAdd).ticket = e.ticket + 1 := rfl

/-! ### The environment after a draw: afterForget -/

@[simp] theorem Env.afterForget_prim (e : Env) : (e.afterForget).prim = e.prim := rfl

@[simp] theorem Env.afterForget_rng (e : Env) : (e.afterForget).rng = e.rng := rfl

@[simp] theorem Env.afterForget_check (e : Env) : (e.afterForget).check = e.check := rfl

@[simp] theorem Env.afterForget_add (e : Env) : (e.afterForget).add = e.add := rfl

@[simp] theorem Env.afterForget_forget (e : Env) : (e.afterForget).forget = e.forget.tail := rfl

@[simp] theorem Env.afterForget_ticket (e : Env) : (e.afterForget).ticket = e.ticket + 1 := rfl

end Sys2Proof.Machine
end

