-- ==== Sys2Proof/Laws/Tcp.lean ====
section
/-! SUPPORT. What the AEAD adapter, one pass and one loop of the TCP codec can do, once for each. -/

namespace Sys2Proof.Machine

/-! ### The AEAD adapter -/

/-- The length law (42_aead_nonce.md R161). -/
@[simp] theorem aeadEnc_length (m : Method) (k n p : Bytes) : (aeadEnc m k n p).length = p.length + tagLen :=
  (Config.aead m).enc_length k n [] p

/-- The plaintext of a verified ciphertext is 16 bytes shorter (42_aead_nonce.md R162). -/
theorem aeadDec_length {m : Method} {k n c p : Bytes} (hc : tagLen ≤ c.length) (h : aeadDec m k n c = some p) :
    p.length + tagLen = c.length :=
  (Config.aead m).dec_length k n [] c p hc h

/-- `AEAD_RoundTrip` (42_aead_nonce.md R163). -/
theorem aeadDec_aeadEnc {m : Method} {k n : Bytes} (p : Bytes) (hk : k.length = keyLen m) (hn : n.length = nonceLen m) :
    aeadDec m k n (aeadEnc m k n p) = some p :=
  (Config.aead m).dec_enc k n p hk hn

/-- A chunk is 34 bytes longer than its payload (30_encoding.md R91). -/
@[simp] theorem chunkFrame_length (m : Method) (k n q : Bytes) : (chunkFrame m k n q).length = q.length + 34 := by
  simp [chunkFrame, tagLen]; omega

/-! ### The encoder -/

/-- One encoder pass: either it raises `NonceExhausted` or `Internal` with the context and the output untouched, or it appends one
chunk and advances the nonce by two. -/
theorem encryptPass_cases (m : Method) (q : Bytes) (r : Run) :
    (∃ st e, encryptPass m q r = { r with env := e, raised := some st } ∧ (st = .nonceExhausted ∨ st = .internal)) ∨
    (nonceSpent m r.ctx.nonce = false ∧ r.env.primFires = false ∧ r.env.afterPrim.primFires = false ∧
      encryptPass m q r =
        { ctx := { r.ctx with nonce := nonceAfterChunk m r.ctx.nonce }
          env := r.env.afterPrim.afterPrim
          out := r.out ++ chunkFrame m (r.ctx.liveSubkey m) (liveNonce m r.ctx.nonce) q
          raised := none }) := by
  unfold encryptPass
  cases h1 : nonceSpent m r.ctx.nonce with
  | true => exact Or.inl ⟨.nonceExhausted, r.env, by simp, Or.inl rfl⟩
  | false =>
    cases h2 : r.env.primFires with
    | true => exact Or.inl ⟨.internal, r.env.afterPrim, by simp, Or.inr rfl⟩
    | false =>
      cases h3 : r.env.afterPrim.primFires with
      | true => exact Or.inl ⟨.internal, r.env.afterPrim.afterPrim, by simp [h3], Or.inr rfl⟩
      | false => exact Or.inr ⟨rfl, rfl, rfl, by simp [h3]⟩

/-- A property of the context that one committed chunk keeps holds after the encoder's loop. -/
theorem encryptLoop_ctx {m : Method} {P : Context → Prop}
    (step : ∀ x, P x → nonceSpent m x.nonce = false → P { x with nonce := nonceAfterChunk m x.nonce })
    (qs : List Bytes) (r : Run) (h : P r.ctx) : P (encryptLoop m qs r).ctx := by
  induction qs generalizing r with
  | nil => exact h
  | cons q qs ih =>
    rcases encryptPass_cases m q r with ⟨st, e, hp, -⟩ | ⟨hs, -, -, hp⟩
    · simpa [encryptLoop, hp] using h
    · simp only [encryptLoop, hp]
      exact ih _ (step _ h hs)

/-- The encoder's loop changes no field of the context but the nonce. -/
theorem encryptLoop_frame (m : Method) (qs : List Bytes) (r : Run) :
    ∃ n, (encryptLoop m qs r).ctx = { r.ctx with nonce := n } :=
  encryptLoop_ctx (P := fun x => ∃ n, x = { r.ctx with nonce := n })
    (fun _ ⟨n, hn⟩ _ => ⟨nonceAfterChunk m n, by subst hn; rfl⟩) qs r ⟨r.ctx.nonce, rfl⟩

/-- What the encoder's loop can raise. -/
theorem encryptLoop_raised (m : Method) (qs : List Bytes) (r : Run) (h : r.raised = none) :
    (encryptLoop m qs r).raised = none ∨ (encryptLoop m qs r).raised = some .nonceExhausted ∨
      (encryptLoop m qs r).raised = some .internal := by
  induction qs generalizing r with
  | nil => exact Or.inl h
  | cons q qs ih =>
    rcases encryptPass_cases m q r with ⟨st, e, hp, hst⟩ | ⟨-, -, -, hp⟩
    · right
      simp only [encryptLoop, hp]
      rcases hst with rfl | rfl <;> simp
    · simp only [encryptLoop, hp]
      exact ih _ rfl

/-! ### The decoder -/

/-- A pass that consumes a chunk: its length is legal and it was wholly buffered; the plaintext is the payload's; the buffer
loses the chunk and the nonce advances by two (44_tcp.md R212 to R214). -/
theorem decryptPass_took {m : Method} {x x' : Context} {e e' : Env} {plain : Bytes}
    (h : decryptPass m x e = .took x' e' plain) :
    ∃ mlen, 1 ≤ mlen ∧ mlen ≤ chunkMax ∧ plain.length = mlen ∧ 34 + mlen ≤ x.rbuf.length ∧
      nonceSpent m x.nonce = false ∧
      x' = { x with rbuf := x.rbuf.drop (34 + mlen), nonce := nonceAfterChunk m x.nonce } := by
  unfold decryptPass at h
  split at h
  · cases h
  · next hlen =>
    split at h
    · cases h
    · next hspent =>
      split at h
      · cases h
      · split at h
        · cases h
        · next lr hlr =>
          simp only at h
          split at h
          · cases h
          · next hm =>
            split at h
            · cases h
            · next hfull =>
              unfold decryptPayload at h
              simp only at h
              split at h
              · cases h
              · split at h
                · cases h
                · next hp =>
                  cases h
                  have hpl := aeadDec_length (by
                    simp only [Context.rbufPeek, List.length_take, List.length_drop, tagLen] at hfull hlen ⊢
                    omega) hp
                  simp only [Context.rbufPeek, List.length_take, List.length_drop, tagLen] at hpl hfull hlen
                  exact ⟨unbe16 lr, by omega, by omega, by omega, by omega, by simpa using hspent, by
                    simp [Context.rbufDrop, tagLen]⟩

/-- A pass that ends the loop leaves at most 16416 bytes buffered (10_state.md R33). -/
theorem decryptPass_stop {m : Method} {x : Context} {e e' : Env} (h : decryptPass m x e = .stop e') :
    x.rbuf.length ≤ 16416 := by
  unfold decryptPass at h
  split at h
  · next hlen => simp only [tagLen] at hlen; omega
  · split at h
    · cases h
    · split at h
      · cases h
      · split at h
        · cases h
        · simp only at h
          split at h
          · cases h
          · next hm =>
            split at h
            · next hpart => simp only [tagLen, chunkMax] at hpart hm; omega
            · unfold decryptPayload at h
              simp only at h
              split at h
              · cases h
              · split at h <;> cases h

/-- With at most 34 bytes buffered a pass does nothing (44_tcp.md R210). -/
theorem decryptPass_short {m : Method} {x : Context} {e : Env} (h : x.rbuf.length ≤ 34) : decryptPass m x e = .stop e := by
  unfold decryptPass
  exact if_pos h

/-- What a pass can raise. -/
theorem decryptPass_raised {m : Method} {x : Context} {e e' : Env} {st : Status} (h : decryptPass m x e = .raised st e') :
    st = .authFail ∨ st = .nonceExhausted ∨ st = .internal := by
  unfold decryptPass at h
  split at h
  · cases h
  · split at h
    · cases h; simp
    · split at h
      · cases h; simp
      · split at h
        · cases h; simp
        · simp only at h
          split at h
          · cases h; simp
          · split at h
            · cases h
            · unfold decryptPayload at h
              simp only at h
              split at h
              · cases h; simp
              · split at h
                · cases h; simp
                · cases h

/-- A property of the context that one consumed chunk keeps holds after the decoder's loop. -/
theorem decryptLoop_ctx {m : Method} {P : Context → Prop}
    (step : ∀ x mlen, P x → 1 ≤ mlen → mlen ≤ chunkMax → 34 + mlen ≤ x.rbuf.length → nonceSpent m x.nonce = false →
      P { x with rbuf := x.rbuf.drop (34 + mlen), nonce := nonceAfterChunk m x.nonce })
    (n : Nat) (r : Run) (h : P r.ctx) : P (decryptLoop m n r).ctx := by
  induction n generalizing r with
  | zero => exact h
  | succ n ih =>
    unfold decryptLoop
    split
    · exact h
    · exact h
    · next hp =>
      obtain ⟨mlen, h1, h2, -, h4, h5, rfl⟩ := decryptPass_took hp
      exact ih _ (step _ _ h h1 h2 h4 h5)

/-- The decoder's loop changes no field of the context but the buffer and the nonce. -/
theorem decryptLoop_frame (m : Method) (n : Nat) (r : Run) :
    ∃ b k, (decryptLoop m n r).ctx = { r.ctx with rbuf := b, nonce := k } :=
  decryptLoop_ctx (P := fun x => ∃ b k, x = { r.ctx with rbuf := b, nonce := k })
    (fun x mlen ⟨_, _, hx⟩ _ _ _ _ =>
      ⟨x.rbuf.drop (34 + mlen), nonceAfterChunk m x.nonce, by subst hx; rfl⟩) n r ⟨r.ctx.rbuf, r.ctx.nonce, rfl⟩

/-- With at least as many passes allowed as bytes buffered, a loop that raises nothing leaves at most 16416 bytes
(10_state.md R33). -/
theorem decryptLoop_rbuf {m : Method} {n : Nat} {r : Run} (hn : r.ctx.rbuf.length ≤ n) (hr : r.raised = none)
    (h : (decryptLoop m n r).raised = none) : (decryptLoop m n r).ctx.rbuf.length ≤ 16416 := by
  induction n generalizing r with
  | zero => simp only [decryptLoop]; omega
  | succ n ih =>
    unfold decryptLoop at h ⊢
    split at h
    · next hp => exact decryptPass_stop hp
    · simp at h
    · next hp =>
      obtain ⟨mlen, h1, -, -, h4, -, rfl⟩ := decryptPass_took hp
      exact ih (by simp only [List.length_drop]; omega) rfl h

/-- What the decoder's loop can raise. -/
theorem decryptLoop_raised (m : Method) (n : Nat) (r : Run) (h : r.raised = none) :
    (decryptLoop m n r).raised = none ∨ (decryptLoop m n r).raised = some .authFail ∨
      (decryptLoop m n r).raised = some .nonceExhausted ∨ (decryptLoop m n r).raised = some .internal := by
  induction n generalizing r with
  | zero => exact Or.inl h
  | succ n ih =>
    unfold decryptLoop
    split
    · exact Or.inl h
    · next hp => rcases decryptPass_raised hp with rfl | rfl | rfl <;> simp
    · exact ih _ rfl

/-- Passes beyond the number of buffered bytes change nothing: the bound of the loop is no limit of the machine. -/
theorem decryptLoop_more {m : Method} {n k : Nat} {r : Run} (hn : r.ctx.rbuf.length ≤ n) (hk : n ≤ k) :
    decryptLoop m k r = decryptLoop m n r := by
  induction n generalizing k r with
  | zero =>
    cases k with
    | zero => rfl
    | succ k =>
      have hp : decryptPass m r.ctx r.env = .stop r.env := by
        unfold decryptPass
        rw [if_pos (by omega)]
      simp [decryptLoop, hp]
  | succ n ih =>
    obtain ⟨k, rfl⟩ : ∃ j, k = j + 1 := ⟨k - 1, by omega⟩
    simp only [decryptLoop]
    split
    · rfl
    · rfl
    · next hp =>
      obtain ⟨mlen, h1, -, -, h4, -, rfl⟩ := decryptPass_took hp
      exact ih (by simp only [List.length_drop]; omega) (by omega)

end Sys2Proof.Machine
end

