-- ==== Sys2Proof/Laws/Exec.lean ====
section
/-! SUPPORT. What each command can do to the state, once for each: the shape of the state it answers. -/

namespace Sys2Proof.Machine

/-! ### Preconditions -/

theorem validDesc_eq_some {s : State} {d : Nat} {D : Descriptor} :
    s.validDesc d = some D ↔ s.desc[d]? = some D ∧ D.valid = true := by
  unfold State.validDesc
  cases h : s.desc[d]? with
  | none => simp
  | some E =>
    simp only [Option.some.injEq]
    split
    · next hv => exact ⟨fun e => Option.some.inj e ▸ ⟨rfl, hv⟩, fun e => e.1 ▸ rfl⟩
    · next hv =>
      refine ⟨fun e => by simp at e, ?_⟩
      rintro ⟨rfl, h1⟩
      exact absurd h1 hv

theorem liveCtx_eq_some {s : State} {c n : Nat} {dir : Direction} {x : Context} :
    s.liveCtx c dir n = some x ↔
      s.ctx[c]? = some x ∧ x.valid = true ∧ x.dir = dir ∧ x.dead = false ∧ fits s.cfg.maxIn n = true := by
  unfold State.liveCtx
  cases h : s.ctx[c]? with
  | none => simp
  | some y =>
    simp only [Option.some.injEq]
    split
    · next hy =>
      simp only [Bool.and_eq_true, decide_eq_true_eq, Bool.not_eq_true'] at hy
      simp only [Option.some.injEq]
      exact ⟨fun e => e ▸ ⟨rfl, hy.1.1.1, hy.1.1.2, hy.1.2, hy.2⟩, fun e => e.1⟩
    · next hy =>
      simp only [reduceCtorEq, false_iff]
      rintro ⟨rfl, h1, h2, h3, h4⟩
      simp [h1, h2, h3, h4] at hy

theorem udpDesc_eq_some {s : State} {d n : Nat} {D : Descriptor} :
    s.udpDesc d n = some D ↔ s.desc[d]? = some D ∧ D.valid = true ∧ fits s.cfg.maxDgram n = true := by
  unfold State.udpDesc
  split
  · next h => simp [validDesc_eq_some, h]
  · next h => simp [h]

theorem descEmpty_iff {s : State} {d : Nat} :
    s.descEmpty d = true ↔ ∃ D, s.desc[d]? = some D ∧ D.valid = false := by
  unfold State.descEmpty
  cases h : s.desc[d]? <;> simp

theorem ctxEmpty_iff {s : State} {c : Nat} :
    s.ctxEmpty c = true ↔ ∃ x, s.ctx[c]? = some x ∧ x.valid = false := by
  unfold State.ctxEmpty
  cases h : s.ctx[c]? <;> simp

theorem ctxValid_iff {s : State} {c : Nat} :
    s.ctxValid c = true ↔ ∃ x, s.ctx[c]? = some x ∧ x.valid = true := by
  unfold State.ctxValid
  cases h : s.ctx[c]? <;> simp

/-- No valid context refers to `d` (10_state.md R25). -/
theorem refs_eq_zero {s : State} {d : Nat} :
    s.refs d = 0 ↔ ∀ x ∈ s.ctx, x.valid = true → x.desc ≠ d := by
  simp [State.refs, List.countP_eq_zero]

/-! ### Ends of a TCP command -/

/-- A TCP command that raised a status ends in fatal entry (60_exceptions.md R290). -/
theorem endRun_raised {r : Run} {fatal : Status} (h : r.raised = some fatal) (s : State) (c : Nat) (st : Status) :
    s.endRun c r st = ((s.setEnv r.env).setCtx c { r.ctx with dead := true }).respond fatal [] := by
  simp [State.endRun, h, State.raise]

/-- A TCP command that raised nothing writes its context back and answers with its output. -/
theorem endRun_ok {r : Run} (h : r.raised = none) (s : State) (c : Nat) (st : Status) :
    s.endRun c r st = ((s.setEnv r.env).setCtx c r.ctx).respond st r.out := by
  simp [State.endRun, h]

/-- Writing back the context a slot already holds changes nothing. -/
theorem setCtx_self {s : State} {c : Nat} {x : Context} (h : s.ctx[c]? = some x) : s.setCtx c x = s := by
  unfold State.setCtx
  rw [List.getElem?_eq_some_iff] at h
  obtain ⟨hc, hx⟩ := h
  rw [← hx, List.set_getElem_self]

/-- The contexts that the encoder can leave behind: from an armed context, the loop's; from a fresh one, the keyed context when
the derivation fails, else the loop's from the started context. -/
theorem tcpEncryptAccepted_shape {s : State} {c : Nat} {x : Context} (plain : Bytes) (D : Descriptor) :
    tcpEncryptAccepted c plain x D s = s.respond .ok [] ∧ plain = [] ∨
    (∃ r, r.raised = none ∧ (x.init = true ∧ r.ctx = x ∨ x.init = false ∧ r.ctx = (x.keyed s.cfg D).started D.method) ∧
      tcpEncryptAccepted c plain x D s = s.endRun c (encryptLoop D.method (splitChunks plain) r) .ok ∧ plain ≠ []) ∨
    (x.init = false ∧ plain ≠ [] ∧
      tcpEncryptAccepted c plain x D s = (s.setEnv s.env.afterPrim).raise c (x.keyed s.cfg D) .internal) := by
  unfold tcpEncryptAccepted
  cases plain with
  | nil => exact Or.inl ⟨rfl, rfl⟩
  | cons b p =>
    cases hi : x.init with
    | true => exact Or.inr (Or.inl ⟨_, rfl, Or.inl ⟨rfl, rfl⟩, by simp; rfl, by simp⟩)
    | false =>
      cases hp : s.env.primFires with
      | true => exact Or.inr (Or.inr ⟨rfl, by simp, by simp⟩)
      | false => exact Or.inr (Or.inl ⟨_, rfl, Or.inr ⟨rfl, rfl⟩, by simp; rfl, by simp⟩)

/-- A UDP command, once accepted, changes the filter, the environment and the response only (43_udp.md R180). -/
theorem udpDecryptAccepted_shape (D : Descriptor) (datagram : Bytes) (s : State) :
    ∃ F e r, udpDecryptAccepted D datagram s = { s with filter := F, env := e, response := some r } := by
  have add : ∀ (u : State) (salt : Bytes) (st : Status) (out : Bytes),
      ∃ F e r, (u.afterAdd salt).respond st out = { u with filter := F, env := e, response := some r } := by
    intro u salt st out
    obtain ⟨F, hu, -⟩ := afterAdd_cases u salt
    exact ⟨F, u.env.afterForget.afterAdd, _, by rw [hu]; rfl⟩
  have insert : ∀ (u : State) (salt plain : Bytes),
      ∃ F e r, udpInsert salt plain u = { u with filter := F, env := e, response := some r } := by
    intro u salt plain
    unfold udpInsert
    split
    · exact ⟨_, _, _, rfl⟩
    · split <;> exact add _ _ _ _
  have opened : ∀ (u : State) (salt body : Bytes),
      ∃ F e r, udpOpen D salt body u = { u with filter := F, env := e, response := some r } := by
    intro u salt body
    unfold udpOpen
    simp only
    split
    · exact ⟨_, _, _, rfl⟩
    · split
      · exact ⟨_, _, _, rfl⟩
      · exact insert _ _ _
  unfold udpDecryptAccepted
  simp only
  split
  · exact ⟨_, _, _, rfl⟩
  · split
    · exact opened _ _ _
    · split
      · exact ⟨_, _, _, rfl⟩
      · exact ⟨_, _, _, rfl⟩
      · exact opened s.afterCheck _ _

end Sys2Proof.Machine
end

