-- ==== Sys2Proof/Laws/Commands.lean ====
section
/-! SUPPORT. The inversion lemmas of the eight commands: from `exec i s = .next t`, everything that `t` can be, once for each
command. -/

namespace Sys2Proof.Machine

/-! ### Small facts -/

/-- A salt that eviction kept was in the filter before (45_replay_filter.md R244). -/
theorem mem_of_mem_evict {s : State} {u : Bytes} (h : u ∈ s.evict.filter) : u ∈ s.filter := by
  simp only [State.evict, List.mem_filter] at h
  exact h.1

theorem splitChunks_ne_nil {p : Bytes} (h : p ≠ []) : splitChunks p ≠ [] := by
  cases p with
  | nil => exact absurd rfl h
  | cons a p => simp [splitChunks, splitUpTo]

/-- A loop over at least one piece that raises nothing has an output. -/
theorem encryptLoop_out_ne_nil {m : Method} : ∀ (qs : List Bytes) (r : Run), qs ≠ [] →
    (encryptLoop m qs r).raised = none → (encryptLoop m qs r).out ≠ []
  | [], _, h, _ => absurd rfl h
  | q :: qs, r, _, h => by
    rcases encryptPass_cases m q r with ⟨st, e, hp, -⟩ | ⟨-, -, -, hp⟩
    · simp [encryptLoop, hp] at h
    · have h0 : (encryptPass m q r).raised = none := by rw [hp]
      have ho : (encryptPass m q r).out ≠ [] := fun ho => by
        rw [hp] at ho
        have := congrArg List.length ho
        simp at this
      simp only [encryptLoop, h0] at h ⊢
      cases qs with
      | nil => exact ho
      | cons q' qs => exact encryptLoop_out_ne_nil (q' :: qs) _ (by simp) h

/-! ### What a TCP command on an acceptable context can answer -/

/-- From `s`, a TCP command on the context `x` in slot `c` came to `t`: the slot now holds `y`, the filter is `F`, the response
is `(st, out)`; besides these and the environment nothing changed, and of the context only what R290, R28 to R30 allow. -/
structure TcpAnswer (s : State) (c : Nat) (x : Context) (t : State) (F : List Bytes) (y : Context) (st : Status)
    (out : Bytes) : Prop where
  shape : ∃ e, t = { s with ctx := s.ctx.set c y, filter := F, env := e, response := some ⟨st, out⟩ }
  valid : y.valid = x.valid
  desc : y.desc = x.desc
  dir : y.dir = x.dir
  dead : y.dead = true ↔ killsContext st = true
  out_nil : st ≠ .ok → out = []
  keys : x.init = true → y.init = true ∧ y.salt = x.salt ∧ y.subkey = x.subkey

/-- An answer from a state that differs in the filter and the environment, on a context not yet running, is an answer from the
state itself. -/
theorem TcpAnswer.of_drawn {s s' : State} {c : Nat} {x x' : Context} {t : State} {F : List Bytes} {y : Context} {st : Status}
    {out : Bytes} (h : TcpAnswer s' c x' t F y st out) (hi : x.init = false)
    (hs : ∃ F' e, s' = { s with filter := F', env := e }) (hv : x'.valid = x.valid) (hd : x'.desc = x.desc)
    (hr : x'.dir = x.dir) : TcpAnswer s c x t F y st out := by
  obtain ⟨F', e', rfl⟩ := hs
  obtain ⟨⟨e, he⟩, h1, h2, h3, h4, h5, -⟩ := h
  exact ⟨⟨e, he⟩, h1.trans hv, h2.trans hd, h3.trans hr, h4, h5, by simp [hi]⟩

theorem endRun_answer {s : State} {c : Nat} {x : Context} {r : Run} {st : Status}
    (hst : st = .ok ∨ st = .needMore ∧ r.out = [])
    (hr : r.raised = none ∨ ∃ f, r.raised = some f ∧ killsContext f = true)
    (hv : r.ctx.valid = x.valid) (hd : r.ctx.desc = x.desc) (hdir : r.ctx.dir = x.dir) (hx : r.ctx.dead = false)
    (hk : x.init = true → r.ctx.init = true ∧ r.ctx.salt = x.salt ∧ r.ctx.subkey = x.subkey) :
    ∃ y st' out, TcpAnswer s c x (s.endRun c r st) s.filter y st' out ∧
      (r.raised = some st' ∨ r.raised = none ∧ st' = st ∧ out = r.out) := by
  rcases hr with hr | ⟨f, hr, hf⟩
  · rw [endRun_ok hr]
    refine ⟨_, _, _, ⟨⟨_, rfl⟩, hv, hd, hdir, ?_, ?_, hk⟩, .inr ⟨hr, rfl, rfl⟩⟩
    · rw [hx]
      rcases hst with rfl | ⟨rfl, -⟩ <;> simp [killsContext]
    · rcases hst with rfl | ⟨rfl, h⟩ <;> simp_all
  · rw [endRun_raised hr]
    exact ⟨_, _, _, ⟨⟨_, rfl⟩, hv, hd, hdir, by simp [hf], by simp, hk⟩, .inl hr⟩

/-- Fatal entry (60_exceptions.md R290). -/
theorem raise_answer {s : State} {c : Nat} {x x1 : Context} {f : Status} (hf : killsContext f = true)
    (hv : x1.valid = x.valid) (hd : x1.desc = x.desc) (hdir : x1.dir = x.dir)
    (hk : x.init = true → x1.init = true ∧ x1.salt = x.salt ∧ x1.subkey = x.subkey) :
    ∃ y, TcpAnswer s c x (s.raise c x1 f) s.filter y f [] :=
  ⟨_, ⟨⟨_, rfl⟩, hv, hd, hdir, by simp [hf], by simp, hk⟩⟩

/-- `TCP_ENCRYPT` once accepted (44_tcp.md R201; 60_exceptions.md R288, R290). -/
theorem tcpEncryptAccepted_answer {s : State} {c : Nat} {p : Bytes} {x : Context} {D : Descriptor} (hc : s.ctx[c]? = some x)
    (hx : x.dead = false) :
    ∃ y st out, TcpAnswer s c x (tcpEncryptAccepted c p x D s) s.filter y st out ∧
      (st = .ok ∧ (out = [] → p = []) ∨ st = .internal ∨ st = .nonceExhausted) := by
  have hset : s.ctx.set c x = s.ctx := congrArg State.ctx (setCtx_self hc)
  rcases tcpEncryptAccepted_shape (s := s) (c := c) (x := x) p D with ⟨h, hp⟩ | ⟨r, hr, hrc, h, hp⟩ | ⟨hi, hp, h⟩
  · refine ⟨x, .ok, [], ⟨⟨s.env, ?_⟩, rfl, rfl, rfl, by simp [hx, killsContext], by simp, by simp⟩, .inl ⟨rfl, fun _ => hp⟩⟩
    rw [h, hset]
    rfl
  · rw [h]
    obtain ⟨n, hn⟩ := encryptLoop_frame D.method (splitChunks p) r
    have hrai := encryptLoop_raised D.method (splitChunks p) r hr
    have hrai' : (encryptLoop D.method (splitChunks p) r).raised = none ∨
        ∃ f, (encryptLoop D.method (splitChunks p) r).raised = some f ∧ killsContext f = true := by
      rcases hrai with h | h | h
      · exact .inl h
      · exact .inr ⟨_, h, rfl⟩
      · exact .inr ⟨_, h, rfl⟩
    have hctx : r.ctx.valid = x.valid ∧ r.ctx.desc = x.desc ∧ r.ctx.dir = x.dir ∧ r.ctx.dead = false ∧
        (x.init = true → r.ctx.init = true ∧ r.ctx.salt = x.salt ∧ r.ctx.subkey = x.subkey) := by
      rcases hrc with ⟨hi, h⟩ | ⟨hi, h⟩
      · rw [h]
        simp [hx]
      · rw [h]
        simp [hi, hx, Context.started, Context.keyed]
    obtain ⟨h1, h2, h3, h4, h5⟩ := hctx
    obtain ⟨y, st', out, ha, hs⟩ := endRun_answer (s := s) (c := c) (x := x) (st := .ok) (.inl rfl) hrai'
      (by rw [hn]; exact h1) (by rw [hn]; exact h2) (by rw [hn]; exact h3) (by rw [hn]; exact h4) (by rw [hn]; exact h5)
    refine ⟨y, st', out, ha, ?_⟩
    rcases hs with hs | ⟨hs, rfl, rfl⟩
    · rcases hrai with h | h | h <;> rw [h] at hs <;> cases hs <;> simp
    · exact .inl ⟨rfl, fun ho => absurd ho (encryptLoop_out_ne_nil _ _ (splitChunks_ne_nil hp) hs)⟩
  · rw [h]
    obtain ⟨y, hy⟩ := raise_answer (s := s.setEnv s.env.afterPrim) (c := c) (x := x) (x1 := x.keyed s.cfg D) (f := .internal)
      rfl rfl rfl rfl (by simp [hi])
    exact ⟨y, .internal, [], hy.of_drawn hi ⟨_, _, rfl⟩ rfl rfl rfl, by simp⟩

/-- What `TCP_DECRYPT` on a context `x` leaves in the filter and answers, `salt` being the salt it presents
(60_exceptions.md R288; 45_replay_filter.md R240, R242, R246). -/
structure DecryptAnswer (s : State) (x : Context) (F : List Bytes) (salt : Bytes) (st : Status) (out : Bytes) : Prop where
  status : st ≠ .tooShort ∧ st ≠ .refused
  replay : st = .replayDetected → s.cfg.role = .server
  ok : st = .ok → out ≠ []
  client : s.cfg.role = .client → F = s.filter
  running : x.init = true → F = s.filter
  gain : ∀ u ∈ F, u ∈ s.filter ∨ u = salt

/-- The decoder's loop (44_tcp.md R210 to R216). -/
theorem tcpStream_answer {s : State} {c : Nat} {x : Context} {m : Method} (hx : x.dead = false) :
    ∃ y st out, TcpAnswer s c x (tcpStream c x m s) s.filter y st out ∧ st ≠ .tooShort ∧ st ≠ .refused ∧
      st ≠ .replayDetected ∧ (st = .ok → out ≠ []) := by
  unfold tcpStream
  have hrai := decryptLoop_raised m x.rbuf.length { ctx := x, env := s.env, out := [], raised := none } rfl
  obtain ⟨b, k, hf⟩ := decryptLoop_frame m x.rbuf.length { ctx := x, env := s.env, out := [], raised := none }
  generalize decryptLoop m x.rbuf.length { ctx := x, env := s.env, out := [], raised := none } = r at hrai hf
  have hrai' : r.raised = none ∨ ∃ f, r.raised = some f ∧ killsContext f = true := by
    rcases hrai with h | h | h | h
    · exact .inl h
    all_goals exact .inr ⟨_, h, rfl⟩
  obtain ⟨y, st', out, ha, hs⟩ := endRun_answer (s := s) (c := c) (x := x) (r := r) (st := decryptStatus r.out)
    (by unfold decryptStatus; cases h : r.out <;> simp) hrai' (by rw [hf]) (by rw [hf]) (by rw [hf])
    (by rw [hf]; exact hx) (by rw [hf]; simp)
  refine ⟨y, st', out, ha, ?_⟩
  rcases hs with hs | ⟨hs, rfl, rfl⟩
  · rcases hrai with h | h | h | h <;> rw [h] at hs <;> cases hs <;> simp
  · unfold decryptStatus
    cases h : r.out <;> simp

/-- From the derivation on (44_tcp.md R209). -/
theorem tcpStreamStart_answer {s : State} {c : Nat} {x : Context} {D : Descriptor} (hx : x.dead = false) (hi : x.init = false) :
    ∃ y st out, TcpAnswer s c x (tcpStreamStart c x D s) s.filter y st out ∧ st ≠ .tooShort ∧ st ≠ .refused ∧
      st ≠ .replayDetected ∧ (st = .ok → out ≠ []) := by
  unfold tcpStreamStart
  simp only
  split
  · obtain ⟨y, hy⟩ := raise_answer (s := s.setEnv s.env.afterPrim) (c := c) (x := x) (x1 := x.keyed s.cfg D) (f := .internal)
      rfl rfl rfl rfl (by simp [hi])
    exact ⟨y, _, _, hy.of_drawn hi ⟨_, _, rfl⟩ rfl rfl rfl, by simp⟩
  · obtain ⟨y, st, out, h, h'⟩ := tcpStream_answer (s := s.setEnv s.env.afterPrim) (c := c)
      (x := ((x.keyed s.cfg D).rbufDrop (keyLen D.method)).started D.method) (m := D.method) hx
    exact ⟨y, st, out, h.of_drawn hi ⟨_, _, rfl⟩ rfl rfl rfl, h'⟩

/-- A failed probe on the server: fatal entry with the salt stored, whatever the filter holds by then
(45_replay_filter.md R245, R246). -/
theorem probe_raise_answer {s u : State} {c : Nat} {x x1 : Context} {salt : Bytes} {F : List Bytes} {e : Env} {st : Status}
    (hr : s.cfg.role = .server) (hi : x.init = false) (hv : x1.valid = x.valid) (hd : x1.desc = x.desc)
    (hdir : x1.dir = x.dir) (hu : u = { s with filter := F, env := e }) (hF : ∀ t ∈ F, t ∈ s.filter ∨ t = salt)
    (hst : st = .internal ∨ st = .replayDetected) :
    ∃ F y st' out, TcpAnswer s c x (u.raise c x1 st) F y st' out ∧ DecryptAnswer s x F salt st' out := by
  obtain ⟨y, hy⟩ := raise_answer (s := u) (c := c) (x := x) (x1 := x1) (f := st)
    (by rcases hst with rfl | rfl <;> rfl) hv hd hdir (by simp [hi])
  refine ⟨u.filter, y, st, [], hy.of_drawn hi ⟨_, _, hu⟩ rfl rfl rfl,
    ⟨?_, fun _ => hr, ?_, by simp [hr], by simp [hi], by rw [hu]; exact hF⟩⟩ <;>
    rcases hst with rfl | rfl <;> simp

/-- `TCP_DECRYPT` once accepted (44_tcp.md R208). -/
theorem tcpDecryptAccepted_answer {s : State} {c : Nat} {p : Bytes} {x : Context} {D : Descriptor} (hx : x.dead = false) :
    ∃ F y st out, TcpAnswer s c x (tcpDecryptAccepted c p x D s) F y st out ∧
      DecryptAnswer s x F ((x.rbuf ++ p).take (keyLen D.method)) st out := by
  unfold tcpDecryptAccepted
  simp only
  split
  · obtain ⟨y, st, out, ⟨⟨e, he⟩, h1, h2, h3, h4, h5, h6⟩, k1, k2, k3, k4⟩ :=
      tcpStream_answer (s := s) (c := c) (x := x.rbufAppend p) (m := D.method) hx
    exact ⟨s.filter, y, st, out, ⟨⟨e, he⟩, h1, h2, h3, h4, h5, h6⟩,
      ⟨⟨k1, k2⟩, fun h => absurd h k3, k4, fun _ => rfl, fun _ => rfl, fun u h => .inl h⟩⟩
  · next hi =>
    have hi : x.init = false := by simpa using hi
    split
    · refine ⟨s.filter, _, _, _, ⟨⟨_, rfl⟩, rfl, rfl, rfl, ?_, by simp, by simp [hi]⟩,
        ⟨by simp, by simp, by simp, fun _ => rfl, fun _ => rfl, fun u h => .inl h⟩⟩
      simp [Context.rbufAppend, hx, killsContext]
    · unfold tcpTakeSalt
      simp only
      rw [show (x.rbufAppend p).rbufPeek 0 (keyLen D.method) = (x.rbuf ++ p).take (keyLen D.method) by
        simp [Context.rbufPeek, Context.rbufAppend]]
      generalize (x.rbuf ++ p).take (keyLen D.method) = salt
      cases hr : s.cfg.role with
      | client =>
        obtain ⟨y, st, out, h, k1, k2, k3, k4⟩ := tcpStreamStart_answer (s := s) (c := c)
          (x := { x.rbufAppend p with salt := fit 32 salt }) (D := D) hx hi
        exact ⟨s.filter, y, st, out, h.of_drawn hi ⟨_, _, rfl⟩ rfl rfl rfl,
          ⟨⟨k1, k2⟩, fun h => absurd h k3, k4, fun _ => rfl, fun _ => rfl, fun u h => .inl h⟩⟩
      | server =>
        simp only
        cases s.checkAnswer salt with
        | present => exact probe_raise_answer hr hi rfl rfl rfl rfl (fun u hu => .inl (mem_of_mem_evict hu)) (by simp)
        | internalError => exact probe_raise_answer hr hi rfl rfl rfl rfl (fun u hu => .inl (mem_of_mem_evict hu)) (by simp)
        | absent =>
          simp only
          obtain ⟨F, hu, hF, -⟩ := afterAdd_cases s.afterCheck salt
          have hkept : ∀ t ∈ s.afterCheck.evict.filter, t ∈ s.filter := fun t h =>
            mem_of_mem_evict (mem_of_mem_evict (s := s.afterCheck) h)
          have hF' : ∀ t ∈ F, t ∈ s.filter ∨ t = salt := by
            intro t ht
            rcases hF with rfl | rfl
            · exact .inl (hkept _ ht)
            · exact (mem_saltInsert.1 ht).elim .inr fun h => .inl (hkept _ h)
          cases s.afterCheck.addAnswer with
          | internalError => exact probe_raise_answer hr hi rfl rfl rfl (by rw [hu]; rfl) hF' (by simp)
          | ok =>
            obtain ⟨y, st, out, h, k1, k2, k3, k4⟩ := tcpStreamStart_answer (s := s.afterCheck.afterAdd salt) (c := c)
              (x := { x.rbufAppend p with salt := fit 32 salt }) (D := D) hx hi
            exact ⟨_, y, st, out, h.of_drawn hi ⟨F, _, by rw [hu]; rfl⟩ rfl rfl rfl,
              ⟨⟨k1, k2⟩, fun h => absurd h k3, k4, by simp [hr], by simp [hi], by rw [hu]; exact hF'⟩⟩

/-! ### The TCP commands -/

/-- Either refused, or an answer on the acceptable context the slot holds (44_tcp.md R201, 60_exceptions.md R296). -/
theorem tcpEncrypt_cases {s t : State} {c : Nat} {p : Bytes} (h : exec (.tcpEncrypt c p) s = .next t) :
    t = s.refuse ∨ ∃ x D y st out, s.ctx[c]? = some x ∧ x.valid = true ∧ x.dir = .encrypt ∧ x.dead = false ∧
      fits s.cfg.maxIn p.length = true ∧ s.desc[x.desc]? = some D ∧ TcpAnswer s c x t s.filter y st out ∧
      (st = .ok ∧ (out = [] → p = []) ∨ st = .internal ∨ st = .nonceExhausted) := by
  simp only [exec, execTcpEncrypt] at h
  cases hl : s.liveCtx c .encrypt p.length with
  | none =>
    rw [hl] at h
    cases h
    exact .inl rfl
  | some x =>
    rw [hl] at h
    obtain ⟨hc, hv, hd, hx, hf⟩ := liveCtx_eq_some.1 hl
    cases hD : s.desc[x.desc]? with
    | none => simp [hD] at h
    | some D =>
      simp only [hD] at h
      cases h
      obtain ⟨y, st, out, h1, h2⟩ := tcpEncryptAccepted_answer (p := p) (D := D) hc hx
      exact .inr ⟨x, D, y, st, out, hc, hv, hd, hx, hf, hD, h1, h2⟩

/-- Either refused, or an answer on the acceptable context the slot holds (44_tcp.md R208, 60_exceptions.md R296). -/
theorem tcpDecrypt_cases {s t : State} {c : Nat} {p : Bytes} (h : exec (.tcpDecrypt c p) s = .next t) :
    t = s.refuse ∨ ∃ x D F y st out, s.ctx[c]? = some x ∧ x.valid = true ∧ x.dir = .decrypt ∧ x.dead = false ∧
      fits s.cfg.maxIn p.length = true ∧ s.desc[x.desc]? = some D ∧ TcpAnswer s c x t F y st out ∧
      DecryptAnswer s x F ((x.rbuf ++ p).take (keyLen D.method)) st out := by
  simp only [exec, execTcpDecrypt] at h
  cases hl : s.liveCtx c .decrypt p.length with
  | none =>
    rw [hl] at h
    cases h
    exact .inl rfl
  | some x =>
    rw [hl] at h
    obtain ⟨hc, hv, hd, hx, hf⟩ := liveCtx_eq_some.1 hl
    cases hD : s.desc[x.desc]? with
    | none => simp [hD] at h
    | some D =>
      simp only [hD] at h
      cases h
      obtain ⟨F, y, st, out, h1, h2⟩ := tcpDecryptAccepted_answer (s := s) (c := c) (p := p) (D := D) hx
      exact .inr ⟨x, D, F, y, st, out, hc, hv, hd, hx, hf, hD, h1, h2⟩

/-! ### The UDP commands -/

/-- Step 5 and 6: the plaintext is released, or the insertion failed (43_udp.md R183). -/
theorem udpInsert_cases (s : State) (salt plain : Bytes) :
    ∃ F e st out, udpInsert salt plain s = { s with filter := F, env := e, response := some ⟨st, out⟩ } ∧
      (st = .ok ∧ out = plain ∨ st = .internal ∧ out = []) ∧ (s.cfg.role = .client → F = s.filter) ∧
      ∀ u ∈ F, u ∈ s.filter ∨ u = salt := by
  unfold udpInsert
  cases hr : s.cfg.role with
  | client => exact ⟨_, _, _, _, rfl, .inl ⟨rfl, rfl⟩, fun _ => rfl, fun u h => .inl h⟩
  | server =>
    obtain ⟨F, hu, hF, -⟩ := afterAdd_cases s salt
    have hF' : ∀ u ∈ F, u ∈ s.filter ∨ u = salt := by
      intro t ht
      rcases hF with rfl | rfl
      · exact .inl (mem_of_mem_evict ht)
      · exact (mem_saltInsert.1 ht).elim .inr fun h => .inl (mem_of_mem_evict h)
    simp only
    split <;> rw [hu]
    · exact ⟨F, _, _, _, rfl, .inr ⟨rfl, rfl⟩, by simp, hF'⟩
    · exact ⟨F, _, _, _, rfl, .inl ⟨rfl, rfl⟩, by simp, hF'⟩

/-- Steps 4 to 6 on a body longer than a tag (43_udp.md R183). -/
theorem udpOpen_cases (s : State) (D : Descriptor) (salt body : Bytes) (hb : 16 < body.length) :
    ∃ F e st out, udpOpen D salt body s = { s with filter := F, env := e, response := some ⟨st, out⟩ } ∧
      (st = .ok ∧ out ≠ [] ∨ st = .internal ∧ out = [] ∨ st = .authFail ∧ out = []) ∧
      (s.cfg.role = .client → F = s.filter) ∧ ∀ u ∈ F, u ∈ s.filter ∨ u = salt := by
  unfold udpOpen
  simp only
  split
  · exact ⟨_, _, _, _, rfl, by simp, fun _ => rfl, fun u h => .inl h⟩
  · split
    · exact ⟨_, _, _, _, rfl, by simp, fun _ => rfl, fun u h => .inl h⟩
    · next plain hd =>
      obtain ⟨F, e, st, out, h1, h2, h3, h4⟩ := udpInsert_cases (s.setEnv s.env.afterPrim) salt plain
      refine ⟨F, e, st, out, h1, ?_, h3, h4⟩
      rcases h2 with ⟨rfl, rfl⟩ | ⟨rfl, rfl⟩
      · refine .inl ⟨rfl, fun hp => ?_⟩
        have := aeadDec_length hb.le hd
        simp [hp, tagLen] at this
        omega
      · simp

/-- Either refused, or a response with the filter as the probe left it (43_udp.md R180, R183; 60_exceptions.md R288). -/
theorem udpDecrypt_cases {s t : State} {d : Nat} {p : Bytes} (h : exec (.udpDecrypt d p) s = .next t) :
    t = s.refuse ∨ ∃ D F e st out, s.desc[d]? = some D ∧ D.valid = true ∧ fits s.cfg.maxDgram p.length = true ∧
      t = { s with filter := F, env := e, response := some ⟨st, out⟩ } ∧
      (st = .ok ∧ out ≠ [] ∨
        (st = .internal ∨ st = .authFail ∨ st = .tooShort ∨ st = .replayDetected ∧ s.cfg.role = .server) ∧ out = []) ∧
      (s.cfg.role = .client → F = s.filter) ∧ ∀ u ∈ F, u ∈ s.filter ∨ u = p.take (keyLen D.method) := by
  simp only [exec, execUdpDecrypt] at h
  cases hd : s.udpDesc d p.length with
  | none =>
    rw [hd] at h
    cases h
    exact .inl rfl
  | some D =>
    rw [hd] at h
    cases h
    obtain ⟨hD, hv, hf⟩ := udpDesc_eq_some.1 hd
    refine .inr ⟨D, ?_⟩
    unfold udpDecryptAccepted
    simp only
    split
    · exact ⟨_, _, _, _, hD, hv, hf, rfl, by simp, fun _ => rfl, fun u h => .inl h⟩
    · next hl =>
      have hb : 16 < (p.drop (keyLen D.method)).length := by
        simp [tagLen] at hl ⊢
        omega
      cases hr : s.cfg.role with
      | client =>
        obtain ⟨F, e, st, out, h1, h2, h3, h4⟩ := udpOpen_cases s D (p.take (keyLen D.method)) _ hb
        refine ⟨F, e, st, out, hD, hv, hf, h1, ?_, fun _ => h3 hr, h4⟩
        rcases h2 with h2 | h2 | h2 <;> simp [h2]
      | server =>
        simp only
        split
        · exact ⟨_, _, _, _, hD, hv, hf, rfl, by simp, by simp, fun u h => .inl (mem_of_mem_evict h)⟩
        · exact ⟨_, _, _, _, hD, hv, hf, rfl, by simp, by simp, fun u h => .inl (mem_of_mem_evict h)⟩
        · obtain ⟨F, e, st, out, h1, h2, -, h4⟩ := udpOpen_cases s.afterCheck D (p.take (keyLen D.method)) _ hb
          refine ⟨F, e, st, out, hD, hv, hf, h1, ?_, by simp, fun u hu => (h4 u hu).imp mem_of_mem_evict id⟩
          rcases h2 with h2 | h2 | h2 <;> simp [h2]

/-- Either refused, or a datagram or `Internal`, with nothing but draws made (43_udp.md R180, R181). -/
theorem udpEncrypt_cases {s t : State} {d : Nat} {p : Bytes} (h : exec (.udpEncrypt d p) s = .next t) :
    t = s.refuse ∨ ∃ D e st out, s.desc[d]? = some D ∧ D.valid = true ∧ fits s.cfg.maxDgram p.length = true ∧
      t = { s with env := e, response := some ⟨st, out⟩ } ∧ (st = .ok ∧ out ≠ [] ∨ st = .internal ∧ out = []) := by
  simp only [exec, execUdpEncrypt] at h
  cases hd : s.udpDesc d p.length with
  | none =>
    rw [hd] at h
    cases h
    exact .inl rfl
  | some D =>
    rw [hd] at h
    cases h
    obtain ⟨hD, hv, hf⟩ := udpDesc_eq_some.1 hd
    refine .inr ⟨D, ?_⟩
    unfold udpEncryptAccepted
    simp only
    split
    · exact ⟨_, _, _, hD, hv, hf, rfl, by simp⟩
    · split
      · exact ⟨_, _, _, hD, hv, hf, rfl, by simp⟩
      · refine ⟨_, _, _, hD, hv, hf, rfl, .inl ⟨rfl, fun ho => ?_⟩⟩
        have := congrArg List.length ho
        simp [tagLen] at this

/-! ### The lifecycle commands -/

/-- 46_lifecycle.md R256 to R258. -/
theorem cipherInit_cases {s t : State} {d : Nat} {m : Method} {p : Bytes} (h : exec (.cipherInit d m p) s = .next t) :
    t = s.refuse ∨ (∃ D, s.desc[d]? = some D ∧ D.valid = false) ∧ fits s.cfg.maxPw p.length = true ∧
      (t = (s.setEnv s.env.afterPrim).respond .internal [] ∨
        t = ((s.setEnv s.env.afterPrim).setDesc d (newDescriptor m p)).respond .ok []) := by
  simp only [exec, execCipherInit] at h
  cases h
  split
  · next h =>
    simp only [Bool.and_eq_true, descEmpty_iff] at h
    refine .inr ⟨h.1, h.2, ?_⟩
    unfold cipherInitAccepted
    simp only
    split <;> simp
  · simp

/-- 46_lifecycle.md R259, R260. -/
theorem cipherFree_cases {s t : State} {d : Nat} (h : exec (.cipherFree d) s = .next t) :
    t = s.refuse ∨ (∃ D, s.desc[d]? = some D ∧ D.valid = true) ∧ s.refs d = 0 ∧
      t = (s.setDesc d Descriptor.empty).respond .ok [] := by
  simp only [exec, execCipherFree] at h
  cases h
  split
  · next h =>
    simp only [Bool.and_eq_true, beq_iff_eq, Option.isSome_iff_exists, validDesc_eq_some] at h
    exact .inr ⟨h.1, h.2, rfl⟩
  · simp

/-- 46_lifecycle.md R261 to R263. -/
theorem ctxNew_cases {s t : State} {d c : Nat} {dir : Direction} (h : exec (.ctxNew d c dir) s = .next t) :
    t = s.refuse ∨ (∃ D, s.desc[d]? = some D ∧ D.valid = true) ∧ (∃ x, s.ctx[c]? = some x ∧ x.valid = false) ∧
      (t = (s.setEnv s.env.afterPrim).respond .internal [] ∨
        ∃ e salt, t = ((s.setEnv e).setCtx c (newContext d dir salt)).respond .ok []) := by
  simp only [exec, execCtxNew] at h
  cases hd : s.validDesc d with
  | none =>
    rw [hd] at h
    cases h
    exact .inl rfl
  | some D =>
    rw [hd] at h
    cases h
    split
    · next h =>
      refine .inr ⟨⟨D, validDesc_eq_some.1 hd⟩, ctxEmpty_iff.1 h, ?_⟩
      cases dir with
      | decrypt => exact .inr ⟨s.env, _, rfl⟩
      | encrypt =>
        simp only [ctxNewAccepted]
        split
        · exact .inl rfl
        · exact .inr ⟨_, _, rfl⟩
    · simp

/-- 46_lifecycle.md R264. -/
theorem ctxFree_cases {s t : State} {c : Nat} (h : exec (.ctxFree c) s = .next t) :
    t = s.refuse ∨ (∃ x, s.ctx[c]? = some x ∧ x.valid = true) ∧ t = (s.setCtx c Context.empty).respond .ok [] := by
  simp only [exec, execCtxFree] at h
  cases h
  split
  · next h => exact .inr ⟨ctxValid_iff.1 h, rfl⟩
  · simp

end Sys2Proof.Machine
end

