-- ==== Sys2Proof/Laws/Decode.lean ====
section
/-! SUPPORT. The fields of a packed command word, and the tables the encodings use. -/

namespace Sys2Proof

@[simp] theorem slotFits_iff {n : Nat} : slotFits n = true ↔ n < 256 := by simp [slotFits]

theorem packWord_toNat {op sd sc arg : Nat} (ho : op < 256) (hd : sd < 256) (hc : sc < 256) (ha : arg < 256) :
    (packWord op sd sc arg).toNat = op * 2 ^ 24 + sd * 2 ^ 16 + sc * 2 ^ 8 + arg := by
  simp only [packWord, BitVec.toNat_ofNat]
  omega

theorem opField_eq (w : CommandWord) : opField w = w.toNat / 2 ^ 24 := by
  have := w.isLt
  simp only [opField, BitVec.extractLsb_toNat, Nat.shiftRight_eq_div_pow]
  omega

theorem sdField_eq (w : CommandWord) : sdField w = w.toNat / 2 ^ 16 % 256 := by
  simp [sdField, BitVec.extractLsb_toNat, Nat.shiftRight_eq_div_pow]

theorem scField_eq (w : CommandWord) : scField w = w.toNat / 2 ^ 8 % 256 := by
  simp [scField, BitVec.extractLsb_toNat, Nat.shiftRight_eq_div_pow]

theorem argField_eq (w : CommandWord) : argField w = w.toNat % 256 := by
  simp [argField, BitVec.extractLsb_toNat]

section Pack

variable {op sd sc arg : Nat} (ho : op < 256) (hd : sd < 256) (hc : sc < 256) (ha : arg < 256)
include ho hd hc ha

theorem opField_packWord : opField (packWord op sd sc arg) = op := by
  rw [opField_eq, packWord_toNat ho hd hc ha]; omega

theorem sdField_packWord : sdField (packWord op sd sc arg) = sd := by
  rw [sdField_eq, packWord_toNat ho hd hc ha]; omega

theorem scField_packWord : scField (packWord op sd sc arg) = sc := by
  rw [scField_eq, packWord_toNat ho hd hc ha]; omega

theorem argField_packWord : argField (packWord op sd sc arg) = arg := by
  rw [argField_eq, packWord_toNat ho hd hc ha]; omega

end Pack

/-- A command word is its four fields, highest first (30_encoding.md R99). -/
theorem packWord_eq_append {op sd sc arg : Nat} (ho : op < 256) (hd : sd < 256) (hc : sc < 256) (ha : arg < 256) :
    packWord op sd sc arg =
      (BitVec.ofNat 8 op ++ BitVec.ofNat 8 sd ++ BitVec.ofNat 8 sc ++ BitVec.ofNat 8 arg : BitVec (8 + 8 + 8 + 8)) := by
  apply BitVec.eq_of_toNat_eq
  rw [packWord_toNat ho hd hc ha]
  have h1 : sd < 2 ^ 8 := hd
  have h2 : sc < 2 ^ 8 := hc
  have h3 : arg < 2 ^ 8 := ha
  simp only [BitVec.toNat_append, BitVec.toNat_ofNat, Nat.mod_eq_of_lt (show op < 2 ^ 8 from ho),
    Nat.mod_eq_of_lt h1, Nat.mod_eq_of_lt h2, Nat.mod_eq_of_lt h3]
  rw [← Nat.shiftLeft_add_eq_or_of_lt h1, ← Nat.shiftLeft_add_eq_or_of_lt h2, ← Nat.shiftLeft_add_eq_or_of_lt h3]
  simp only [Nat.shiftLeft_eq]
  omega

/-- The word is rebuilt from its fields. -/
theorem packWord_fields (w : CommandWord) : packWord (opField w) (sdField w) (scField w) (argField w) = w := by
  have := w.isLt
  apply BitVec.eq_of_toNat_eq
  rw [packWord_toNat] <;> simp only [opField_eq, sdField_eq, scField_eq, argField_eq] <;> omega

theorem methodOfId_methodId (m : Method) : Machine.methodOfId (Machine.methodId m) = some m := by cases m <;> rfl

theorem methodId_lt (m : Method) : Machine.methodId m < 6 := by cases m <;> decide

theorem methodOfId_eq_some {n : Nat} {m : Method} (h : Machine.methodOfId n = some m) : n = Machine.methodId m := by
  unfold Machine.methodOfId at h
  split at h <;> first | (cases h; rfl) | cases h

theorem directionOfArg_directionBit (dir : Direction) :
    Machine.directionOfArg (Machine.directionBit dir) = some dir := by cases dir <;> rfl

theorem directionOfArg_eq_some {n : Nat} {dir : Direction} (h : Machine.directionOfArg n = some dir) :
    n = Machine.directionBit dir := by
  unfold Machine.directionOfArg at h
  split at h <;> first | (cases h; rfl) | cases h

end Sys2Proof
end

