-- ==== Sys2Proof/Laws/PerInstr.lean ====
section
/-! SUPPORT. Statements made once per command: the word of a command matches its own row of the table of 30_encoding.md R101. -/

namespace Sys2Proof.Laws.TableRow

open Sys2Proof.Machine

/-- A well-formed command's word selects its own row: `w & mask = match` (30_encoding.md R101). -/
def Statement (i : Instr) : Prop := i.wellFormed = true → (encode i).1 &&& rowMask i = rowMatch i

/-- Masking a packed word masks each field. -/
theorem packWord_and {op sd sc arg mo md mc ma : Nat} (ho : op < 256) (hd : sd < 256) (hc : sc < 256) (ha : arg < 256)
    (ho' : mo < 256) (hd' : md < 256) (hc' : mc < 256) (ha' : ma < 256) :
    packWord op sd sc arg &&& packWord mo md mc ma = packWord (op &&& mo) (sd &&& md) (sc &&& mc) (arg &&& ma) := by
  have lt : ∀ {a b : Nat}, b < 256 → a &&& b < 256 := fun h => Nat.lt_of_le_of_lt Nat.and_le_right h
  have hand : ∀ a b : Nat, BitVec.ofNat 8 a &&& BitVec.ofNat 8 b = BitVec.ofNat 8 (a &&& b) := fun a b => by
    apply BitVec.eq_of_toNat_eq
    simp only [BitVec.toNat_and, BitVec.toNat_ofNat]
    exact (Nat.and_mod_two_pow).symm
  rw [packWord_eq_append ho hd hc ha, packWord_eq_append ho' hd' hc' ha',
    packWord_eq_append (lt ho') (lt hd') (lt hc') (lt ha')]
  rw [← hand, ← hand, ← hand, ← hand, ← BitVec.and_append, ← BitVec.and_append, ← BitVec.and_append]

theorem cipherInit (d : Nat) (m : Method) (password : Bytes) : Statement (.cipherInit d m password) := by
  intro h
  have hd := slotFits_iff.mp h
  have hm := methodId_lt m
  show packWord 1 d 0 (methodId m) &&& packWord 0xFF 0 0xFF 0xF8 = packWord 1 0 0 0
  rw [packWord_and (by decide) hd (by decide) (by omega) (by decide) (by decide) (by decide) (by decide)]
  cases m <;> simp [methodId]

theorem cipherFree (d : Nat) : Statement (.cipherFree d) := by
  intro h
  show packWord 2 d 0 0 &&& packWord 0xFF 0 0xFF 0xFF = packWord 2 0 0 0
  rw [packWord_and (by decide) (slotFits_iff.mp h) (by decide) (by decide) (by decide) (by decide) (by decide) (by decide)]
  simp

theorem ctxNew (d c : Nat) (dir : Direction) : Statement (.ctxNew d c dir) := by
  intro h
  simp only [Instr.wellFormed, Bool.and_eq_true, slotFits_iff] at h
  show packWord 3 d c (directionBit dir) &&& packWord 0xFF 0 0 0xFE = packWord 3 0 0 0
  rw [packWord_and (by decide) h.1 h.2 (by cases dir <;> decide) (by decide) (by decide) (by decide) (by decide)]
  cases dir <;> simp [directionBit]

theorem ctxFree (c : Nat) : Statement (.ctxFree c) := by
  intro h
  show packWord 4 0 c 0 &&& packWord 0xFF 0xFF 0 0xFF = packWord 4 0 0 0
  rw [packWord_and (by decide) (by decide) (slotFits_iff.mp h) (by decide) (by decide) (by decide) (by decide) (by decide)]
  simp

theorem tcpEncrypt (c : Nat) (plain : Bytes) : Statement (.tcpEncrypt c plain) := by
  intro h
  show packWord 5 0 c 0 &&& packWord 0xFF 0xFF 0 0xFF = packWord 5 0 0 0
  rw [packWord_and (by decide) (by decide) (slotFits_iff.mp h) (by decide) (by decide) (by decide) (by decide) (by decide)]
  simp

theorem tcpDecrypt (c : Nat) (arrived : Bytes) : Statement (.tcpDecrypt c arrived) := by
  intro h
  show packWord 6 0 c 0 &&& packWord 0xFF 0xFF 0 0xFF = packWord 6 0 0 0
  rw [packWord_and (by decide) (by decide) (slotFits_iff.mp h) (by decide) (by decide) (by decide) (by decide) (by decide)]
  simp

theorem udpEncrypt (d : Nat) (plain : Bytes) : Statement (.udpEncrypt d plain) := by
  intro h
  show packWord 7 d 0 0 &&& packWord 0xFF 0 0xFF 0xFF = packWord 7 0 0 0
  rw [packWord_and (by decide) (slotFits_iff.mp h) (by decide) (by decide) (by decide) (by decide) (by decide) (by decide)]
  simp

theorem udpDecrypt (d : Nat) (datagram : Bytes) : Statement (.udpDecrypt d datagram) := by
  intro h
  show packWord 8 d 0 0 &&& packWord 0xFF 0 0xFF 0xFF = packWord 8 0 0 0
  rw [packWord_and (by decide) (slotFits_iff.mp h) (by decide) (by decide) (by decide) (by decide) (by decide) (by decide)]
  simp

end Sys2Proof.Laws.TableRow
end

