-- ==== Sys2Proof/Laws/Stream.lean ====
section
/-! SUPPORT. A TCP command at one of its chunks: the nonce as a number, both loops past good chunks, and what a command that has
started its chunks answers. -/

namespace Sys2Proof.Machine

/-! ### The nonce as a number -/

/-- A nonce field that holds the value `v` in front and zeros behind. -/
theorem storeNonce_unle (m : Method) (v : Nat) : storeNonce (unle (nonceLen m) v) = nonceField m v := by
  rw [storeNonce, fit_of_length_le (by simpa using nonceLen_le m), unle_length, nonceField]

@[simp] theorem liveNonce_nonceField (m : Method) (v : Nat) : liveNonce m (nonceField m v) = unle (nonceLen m) v := by
  rw [← storeNonce_unle, liveNonce_storeNonce (unle_length _ _)]

theorem storedZeroNonce_eq (m : Method) : storedZeroNonce m = zeros 24 := by
  have := nonceLen_le m
  simp only [storedZeroNonce, storeNonce, fit_of_length_le (show (zeros (nonceLen m)).length ≤ 24 by simpa), zeros_length]
  simp only [zeros, List.replicate_append_replicate]
  congr 1
  omega

theorem nonceField_zero (m : Method) : nonceField m 0 = zeros 24 := by
  rw [← storeNonce_unle, unle_zero]
  exact storedZeroNonce_eq m

/-- Below the wrap the successor of the nonce of value `v` has the value `v + 1` (42_aead_nonce.md R170). -/
theorem nonceInc_unle {n v : Nat} (h : v + 1 < 256 ^ n) : nonceInc (unle n v) = unle n (v + 1) := by
  rw [nonceInc, le_unle, unle_length, Nat.mod_eq_of_lt (a := v) (by omega), Nat.mod_eq_of_lt h]

theorem nonceAfterChunk_nonceField {m : Method} {v : Nat} (h : v < 256 ^ nonceLen m - 2) :
    nonceAfterChunk m (nonceField m v) = nonceField m (v + 2) := by
  rw [nonceAfterChunk, liveNonce_nonceField, nonceInc_unle (by omega), nonceInc_unle (by omega), storeNonce_unle]

theorem nonceSpent_nonceField {m : Method} {v : Nat} (h : v ≤ 256 ^ nonceLen m - 2) :
    nonceSpent m (nonceField m v) = decide (v = 256 ^ nonceLen m - 2) := by
  have : 0 < 256 ^ nonceLen m := by positivity
  rw [nonceSpent, liveNonce_nonceField, le_unle, Nat.mod_eq_of_lt (by omega), decide_eq_decide]
  omega

/-- In a state of the invariant the stored nonce is the field of its value. -/
theorem LiveContextInv.nonce_eq {m : Method} {x : Context} (h : LiveContextInv m x) :
    x.nonce = nonceField m (le (x.nonce.take (nonceLen m))) := by
  have hl : (x.nonce.take (nonceLen m)).length = nonceLen m := liveNonce_length h.nonce_length
  conv_lhs => rw [← List.take_append_drop (nonceLen m) x.nonce, h.nonce_rest, ← unle_le (x.nonce.take (nonceLen m)), hl]
  rfl

/-! ### The draws -/

theorem quiet_add {a b : Nat} {e : Env} : e.quiet (a + b) ↔ e.quiet a ∧ (Env.afterPrim^[a] e).quiet b := by
  induction a generalizing e with
  | zero => simp [Env.quiet]
  | succ a ih =>
    rw [show a + 1 + b = a + b + 1 by omega, Function.iterate_succ_apply]
    simp only [Env.quiet, ih, and_assoc]

/-! ### The loops past good chunks -/

/-- The encoder's loop past the pieces `qs`: their chunks are out, the nonce is two further for each, two draws are taken for
each (44_tcp.md R205). -/
theorem encryptLoop_good {m : Method} (rs : List Bytes) : ∀ (qs : List Bytes) (v : Nat) (r : Run), r.raised = none →
    r.ctx.nonce = nonceField m v → v + 2 * qs.length ≤ 256 ^ nonceLen m - 2 → r.env.quiet (2 * qs.length) →
    encryptLoop m (qs ++ rs) r = encryptLoop m rs
      { ctx := { r.ctx with nonce := nonceField m (v + 2 * qs.length) }
        env := Env.afterPrim^[2 * qs.length] r.env
        out := r.out ++ chunksFrom m (r.ctx.liveSubkey m) v qs
        raised := none }
  | [], v, ⟨x, e, out, raised⟩, hr, hn, _, _ => by
    obtain rfl : raised = none := hr
    simp [chunksFrom, ← hn]
  | q :: qs, v, r, _, hn, hb, hq => by
    simp only [List.length_cons] at hb hq ⊢
    obtain ⟨q1, q2, q3⟩ : r.env.quiet (2 * qs.length + 1 + 1) := by
      rwa [show 2 * qs.length + 1 + 1 = 2 * (qs.length + 1) by omega]
    have hs : nonceSpent m (nonceField m v) = false := by
      rw [nonceSpent_nonceField (by omega)]
      exact decide_eq_false (by omega)
    have hp : encryptPass m q r =
        { ctx := { r.ctx with nonce := nonceField m (v + 2) }
          env := r.env.afterPrim.afterPrim
          out := r.out ++ chunkFrame m (r.ctx.liveSubkey m) (unle (nonceLen m) v) q
          raised := none } := by
      simp only [encryptPass, hs, q1, q2, hn, Bool.false_eq_true, if_false, liveNonce_nonceField,
        nonceAfterChunk_nonceField (show v < 256 ^ nonceLen m - 2 by omega)]
    simp only [List.cons_append, encryptLoop, hp]
    rw [encryptLoop_good rs qs (v + 2) _ rfl rfl (by omega) q3]
    simp only [chunksFrom, chunkFrame, List.append_assoc, nonceInc_unle (show v + 1 < 256 ^ nonceLen m by omega),
      Context.liveSubkey, show 2 * (qs.length + 1) = 2 * qs.length + 1 + 1 by omega, Function.iterate_succ_apply,
      show v + 2 + 2 * qs.length = v + (2 * qs.length + 1 + 1) by omega]

/-- One pass on a buffer that begins with the chunk of the piece `q` consumes it (44_tcp.md R214, 42_aead_nonce.md R163). -/
theorem decryptPass_good {m : Method} {x : Context} {e : Env} {q rest : Bytes} {v : Nat}
    (hk : (x.liveSubkey m).length = keyLen m) (hn : x.nonce = nonceField m v) (hv : v < 256 ^ nonceLen m - 2)
    (hq : 1 ≤ q.length ∧ q.length ≤ 0x3FFF) (he : e.quiet 2)
    (hb : x.rbuf = aeadEnc m (x.liveSubkey m) (unle (nonceLen m) v) (be16 q.length) ++
      aeadEnc m (x.liveSubkey m) (unle (nonceLen m) (v + 1)) q ++ rest) :
    decryptPass m x e = .took { x with rbuf := rest, nonce := nonceField m (v + 2) } e.afterPrim.afterPrim q := by
  obtain ⟨q1, q2, -⟩ := he
  generalize hsk : x.liveSubkey m = sk at hk hb
  have hs : nonceSpent m (nonceField m v) = false := by
    rw [nonceSpent_nonceField hv.le]
    exact decide_eq_false (by omega)
  have hd1 := aeadDec_aeadEnc (m := m) (n := unle (nonceLen m) v) (be16 q.length) hk (unle_length _ _)
  have hd2 := aeadDec_aeadEnc (m := m) (n := unle (nonceLen m) (v + 1)) q hk (unle_length _ _)
  generalize h1 : aeadEnc m sk (unle (nonceLen m) v) (be16 q.length) = c1 at hb hd1
  generalize h2 : aeadEnc m sk (unle (nonceLen m) (v + 1)) q = c2 at hb hd2
  have l1 : c1.length = 18 := by simp [← h1, tagLen]
  have l2 : c2.length = q.length + 16 := by simp [← h2, tagLen]
  have hlen : x.rbuf.length = 34 + q.length + rest.length := by simp [hb, l1, l2]; omega
  have p1 : x.rbufPeek 0 (2 + tagLen) = c1 := by
    rw [Context.rbufPeek, hb, List.append_assoc]
    exact List.take_left' l1
  have p2 : x.rbufPeek (2 + tagLen) (2 + 2 * tagLen + q.length) = c2 := by
    rw [Context.rbufPeek, hb, List.append_assoc, List.drop_left' (by simp [l1, tagLen])]
    exact List.take_left' (by simp [l2, tagLen]; omega)
  have p3 : x.rbuf.drop (2 + 2 * tagLen + q.length) = rest := by
    rw [hb]
    exact List.drop_left' (by simp [l1, l2, tagLen]; omega)
  simp only [decryptPass, if_neg (show ¬ x.rbuf.length ≤ 2 + 2 * tagLen by simp only [tagLen]; omega), hs, q1,
    Bool.false_eq_true, if_false, p1, hsk, hn, liveNonce_nonceField, hd1, unbe16_be16 (show q.length < 65536 by omega),
    if_neg (show ¬ (q.length = 0 ∨ chunkMax < q.length) by simp only [chunkMax]; omega),
    if_neg (show ¬ x.rbuf.length < 2 + 2 * tagLen + q.length by simp only [tagLen]; omega), decryptPayload, q2, p2,
    nonceInc_unle (show v + 1 < 256 ^ nonceLen m by omega), hd2, Context.rbufDrop, p3, nonceAfterChunk_nonceField hv]

/-- The decoder's loop past the chunks of the pieces `qs`: their plaintext is out, the buffer holds the rest, the nonce is two
further for each, two draws and one pass are taken for each (44_tcp.md R214, R215). -/
theorem decryptLoop_good {m : Method} (n : Nat) (rest : Bytes) : ∀ (qs : List Bytes) (v : Nat) (r : Run), r.raised = none →
    r.ctx.nonce = nonceField m v → (r.ctx.liveSubkey m).length = keyLen m →
    (∀ q ∈ qs, 1 ≤ q.length ∧ q.length ≤ 0x3FFF) → v + 2 * qs.length ≤ 256 ^ nonceLen m - 2 →
    r.env.quiet (2 * qs.length) → r.ctx.rbuf = chunksFrom m (r.ctx.liveSubkey m) v qs ++ rest →
    decryptLoop m (n + qs.length) r = decryptLoop m n
      { ctx := { r.ctx with nonce := nonceField m (v + 2 * qs.length), rbuf := rest }
        env := Env.afterPrim^[2 * qs.length] r.env
        out := r.out ++ qs.flatten
        raised := none }
  | [], v, ⟨x, e, out, raised⟩, hr, hn, _, _, _, _, hb => by
    obtain rfl : raised = none := hr
    have hb : x.rbuf = rest := hb
    simp [← hn, ← hb]
  | q :: qs, v, ⟨x, e, out, raised⟩, _, hn, hk, hl, hv, hq, hb => by
    simp only [List.length_cons] at hn hk hb hv hq ⊢
    obtain ⟨q1, q2, q3⟩ : e.quiet (2 * qs.length + 1 + 1) := by
      rwa [show 2 * qs.length + 1 + 1 = 2 * (qs.length + 1) by omega]
    have hp := decryptPass_good (e := e) (rest := chunksFrom m (x.liveSubkey m) (v + 2) qs ++ rest) hk hn (by omega)
      (hl q (by simp)) ⟨q1, q2, trivial⟩ (by rw [hb]; simp only [chunksFrom, List.append_assoc])
    rw [show n + (qs.length + 1) = n + qs.length + 1 from rfl]
    simp only [decryptLoop, hp]
    rw [decryptLoop_good n rest qs (v + 2)
      ⟨{ x with rbuf := chunksFrom m (x.liveSubkey m) (v + 2) qs ++ rest, nonce := nonceField m (v + 2) },
        e.afterPrim.afterPrim, out ++ q, none⟩ rfl rfl hk (fun q hq => hl q (by simp [hq])) (by omega) q3 rfl]
    simp only [List.flatten_cons, List.append_assoc, show 2 * (qs.length + 1) = 2 * qs.length + 1 + 1 by omega,
      Function.iterate_succ_apply, show v + 2 + 2 * qs.length = v + (2 * qs.length + 1 + 1) by omega]

/-! ### A command that has started its chunks -/

theorem fits_of_bound {bound : Option Nat} {n : Nat} (h : ∀ b, bound = some b → n ≤ b) : fits bound n = true := by
  cases bound with
  | none => rfl
  | some b => exact decide_eq_true (h b rfl)

theorem TcpAccepts.liveCtx {s : State} {c n : Nat} {dir : Direction} {x : Context} {D : Descriptor}
    (h : TcpAccepts s c dir n x D) : s.liveCtx c dir n = some x :=
  liveCtx_eq_some.2 ⟨h.slot, h.valid, h.dir_eq, h.live, fits_of_bound h.fits⟩

theorem TcpAccepts.exec_encrypt {s : State} {c : Nat} {p : Bytes} {x : Context} {D : Descriptor}
    (h : TcpAccepts s c .encrypt p.length x D) : exec (.tcpEncrypt c p) s = .next (tcpEncryptAccepted c p x D s) := by
  simp only [exec, execTcpEncrypt, h.liveCtx, h.desc]

theorem TcpAccepts.exec_decrypt {s : State} {c : Nat} {p : Bytes} {x : Context} {D : Descriptor}
    (h : TcpAccepts s c .decrypt p.length x D) : exec (.tcpDecrypt c p) s = .next (tcpDecryptAccepted c p x D s) := by
  simp only [exec, execTcpDecrypt, h.liveCtx, h.desc]

/-- What the invariant says of an accepted context. -/
theorem TcpAccepts.inv {s : State} {c n : Nat} {dir : Direction} {x : Context} {D : Descriptor}
    (h : TcpAccepts s c dir n x D) (hs : s.Inv) : LiveContextInv D.method x ∧ DescriptorInv D := by
  obtain ⟨E, hE, -, hx⟩ := (hs.ctx_inv x (List.mem_of_getElem? h.slot)).live h.valid
  obtain rfl := Option.some.inj (hE.symm.trans h.desc)
  exact ⟨hx, hs.desc_inv _ (List.mem_of_getElem? h.desc)⟩

/-- The stored subkey gives the AEAD calls a key of `key_len` bytes. -/
theorem Context.withSubkey_length (x : Context) (cfg : Params) (D : Descriptor) (salt : Bytes) :
    ((x.withSubkey cfg D salt).liveSubkey D.method).length = keyLen D.method := by
  have := keyLen_le D.method
  simp only [Context.liveSubkey, Context.withSubkey, List.length_take, fit_length]
  omega

/-- A command that has started: the loop's context has the nonce of its value and a subkey of `key_len` bytes. -/
theorem EncryptStarts.ctx {s w : State} {c : Nat} {p : Bytes} {y : Context} {D : Descriptor}
    (h : EncryptStarts s c p y D w) (hs : s.Inv) :
    y.nonce = nonceField D.method (le (y.nonce.take (nonceLen D.method))) := by
  cases h with
  | armed h => exact (h.inv hs).1.nonce_eq
  | arms h =>
    show zeros 24 = nonceField D.method (le ((zeros 24).take (nonceLen D.method)))
    rw [← nonceField_zero D.method]
    show _ = nonceField D.method (le (liveNonce D.method _))
    rw [liveNonce_nonceField, unle_zero, le_zeros]

theorem DecryptStarts.ctx {s w : State} {c : Nat} {p : Bytes} {y : Context} {D : Descriptor}
    (h : DecryptStarts s c p y D w) (hs : s.Inv) :
    y.nonce = nonceField D.method (le (y.nonce.take (nonceLen D.method))) ∧
      (y.liveSubkey D.method).length = keyLen D.method := by
  have hz : zeros 24 = nonceField D.method (le ((zeros 24).take (nonceLen D.method))) := by
    rw [← nonceField_zero D.method]
    show _ = nonceField D.method (le (liveNonce D.method _))
    rw [liveNonce_nonceField, unle_zero, le_zeros]
  cases h with
  | streaming h =>
    refine ⟨(h.inv hs).1.nonce_eq, ?_⟩
    have := keyLen_le D.method
    simp only [Context.liveSubkey, List.length_take, (h.inv hs).1.subkey_length]
    omega
  | @onAClient x _ salt h => exact ⟨hz, x.withSubkey_length s.cfg D salt⟩
  | @onAServer x _ salt _ h => exact ⟨hz, x.withSubkey_length s.cfg D salt⟩

/-- What a `TCP_ENCRYPT` that has started its chunks answers is what its loop reaches. -/
theorem EncryptStarts.exec {s w : State} {c : Nat} {p : Bytes} {y : Context} {D : Descriptor}
    (h : EncryptStarts s c p y D w) : ∃ out, exec (.tcpEncrypt c p) s = .next
      (w.endRun c (encryptLoop D.method (splitChunks p) { ctx := y, env := w.env, out := out, raised := none }) .ok) := by
  cases h with
  | armed h hp hi =>
    refine ⟨[], ?_⟩
    rw [h.exec_encrypt]
    simp [tcpEncryptAccepted, hp, hi]
  | @arms x D h hp hi hf =>
    refine ⟨x.liveSalt D.method, ?_⟩
    rw [h.exec_encrypt]
    simp only [tcpEncryptAccepted, List.isEmpty_iff, hp, hi, hf, Bool.false_eq_true, if_false, Context.started,
      storedZeroNonce_eq]
    rfl

@[simp] theorem rbufPeek_zero (x : Context) (n : Nat) : x.rbufPeek 0 n = x.rbuf.take n := rfl

/-- A whole salt is buffered: the command goes on to take it (44_tcp.md R209). -/
theorem tcpDecryptAccepted_salt {s : State} {c : Nat} {p : Bytes} {x : Context} {D : Descriptor} (hi : x.init = false)
    (hl : keyLen D.method ≤ (x.rbuf ++ p).length) :
    tcpDecryptAccepted c p x D s = tcpTakeSalt c (x.rbufAppend p) D s := by
  simp only [tcpDecryptAccepted, hi, Bool.false_eq_true, if_false]
  exact if_neg (Nat.not_lt.2 hl)

/-- The salt that is stored is the one the derivation reads back. -/
theorem keyed_fit {x : Context} {cfg : Params} {D : Descriptor} {salt : Bytes} (hl : salt.length = keyLen D.method) :
    ({ x with salt := fit 32 salt } : Context).keyed cfg D = { x.withSubkey cfg D salt with salt := fit 32 salt } := by
  have := keyLen_le D.method
  have h : (fit 32 salt).take (keyLen D.method) = salt := by
    rw [← hl]
    exact fit_take (by omega)
  simp only [Context.keyed, Context.liveSalt, h]
  rfl

/-- The derivation does not fail: the stream begins behind the salt (44_tcp.md R209). -/
theorem tcpStreamStart_begun {s : State} {c : Nat} {x : Context} {D : Descriptor} {salt : Bytes}
    (hf : s.env.primFires = false) (hl : salt.length = keyLen D.method) :
    tcpStreamStart c { x with salt := fit 32 salt } D s = tcpStream c
      { x.begun s.cfg D salt with salt := fit 32 salt, rbuf := x.rbuf.drop (keyLen D.method) } D.method
      { s with env := s.env.afterPrim } := by
  simp only [tcpStreamStart, hf, Bool.false_eq_true, if_false, keyed_fit hl, Context.started, storedZeroNonce_eq]
  rfl

/-- What a `TCP_DECRYPT` that has come to its loop answers is what the loop reaches. -/
theorem DecryptStarts.exec {s w : State} {c : Nat} {p : Bytes} {y : Context} {D : Descriptor}
    (h : DecryptStarts s c p y D w) : exec (.tcpDecrypt c p) s = .next (tcpStream c y D.method w) := by
  cases h with
  | streaming h hi =>
    rw [h.exec_decrypt]
    simp [tcpDecryptAccepted, hi, Context.rbufAppend]
  | @onAClient x D salt h hi hr hl hs hf =>
    rw [h.exec_decrypt, tcpDecryptAccepted_salt hi hl, tcpTakeSalt]
    simp only [rbufPeek_zero, hr, Context.rbufAppend, ← hs]
    exact congrArg Host.Outcome.next (tcpStreamStart_begun (x := x.rbufAppend p) hf (by simpa [hs] using hl))
  | @onAServer x D salt u h hi hr hl hs hc ha hu hf =>
    rw [h.exec_decrypt, tcpDecryptAccepted_salt hi hl, tcpTakeSalt]
    simp only [rbufPeek_zero, hr, Context.rbufAppend, ← hs, hc, ha, ← hu]
    rw [show s.cfg = u.cfg by rw [hu]; simp]
    exact congrArg Host.Outcome.next (tcpStreamStart_begun (x := x.rbufAppend p) hf (by simpa [hs] using hl))

/-! ### A command at one of its chunks -/

/-- The split of more than `n` full pieces has more than `n` pieces (44_tcp.md R204). -/
theorem lt_length_splitUpTo {k n : Nat} {p : Bytes} (hk : p.length ≤ k) (h : n * chunkMax < p.length) :
    n < (splitUpTo k p).length := by
  induction k generalizing n p with
  | zero => omega
  | succ k ih =>
    obtain ⟨b, p, rfl⟩ := List.exists_cons_of_length_pos (show 0 < p.length by omega)
    simp only [splitUpTo, List.isEmpty_cons, Bool.false_eq_true, if_false, List.length_cons]
    cases n with
    | zero => omega
    | succ n =>
      have : ((b :: p).drop chunkMax).length = (b :: p).length - chunkMax := List.length_drop
      have hc : chunkMax = 0x3FFF := rfl
      exact Nat.succ_lt_succ (ih (by omega) (by rw [Nat.add_mul] at h; omega))

/-- What a `TCP_ENCRYPT` at its chunk `n` answers is what the loop reaches from there. -/
theorem EncryptAtChunk.exec {s w : State} {c n v : Nat} {p : Bytes} {y : Context} {D : Descriptor}
    (h : EncryptAtChunk s c p y D w n v) : ∃ q rs out, exec (.tcpEncrypt c p) s = .next
      (w.endRun c (encryptLoop D.method (q :: rs)
        { ctx := { y with nonce := nonceField D.method v }, env := Env.afterPrim^[2 * n] w.env, out := out
          raised := none }) .ok) := by
  obtain ⟨out, hx⟩ := h.starts.exec
  have hn : n < (splitChunks p).length := lt_length_splitUpTo le_rfl h.more
  have hl : ((splitChunks p).take n).length = n := by rw [List.length_take]; omega
  have hg := encryptLoop_good ((splitChunks p)[n] :: (splitChunks p).drop (n + 1)) ((splitChunks p).take n) _
    { ctx := y, env := w.env, out := out, raised := none } rfl (h.starts.ctx h.inv)
    (by rw [hl, ← h.value]; exact h.room) (by rw [hl]; exact h.quiet)
  rw [← List.drop_eq_getElem_cons hn, List.take_append_drop, hl, ← h.value, List.drop_eq_getElem_cons hn] at hg
  rw [hg] at hx
  exact ⟨_, _, _, hx⟩

/-- What a `TCP_DECRYPT` at the chunk after the good ones answers is what one more pass, or more, reaches from there. -/
theorem DecryptAtChunk.exec {s w : State} {c v : Nat} {p rest : Bytes} {y : Context} {D : Descriptor} {good : List Bytes}
    (h : DecryptAtChunk s c p y D w good rest v) : ∃ n r, exec (.tcpDecrypt c p) s = .next
      (w.endRun c r (decryptStatus r.out)) ∧ r = decryptLoop D.method (n + 1)
        { ctx := { y with nonce := nonceField D.method v, rbuf := rest }, env := Env.afterPrim^[2 * good.length] w.env
          out := good.flatten, raised := none } := by
  obtain ⟨hn, hk⟩ := h.starts.ctx h.inv
  have hlen : ∀ (qs : List Bytes) (v : Nat) (sk : Bytes), qs.length ≤ (chunksFrom D.method sk v qs).length := by
    intro qs
    induction qs with
    | nil => simp
    | cons q qs ih => intro v sk; have := ih (v + 2) sk; simp [chunksFrom, tagLen]; omega
  have hr := congrArg List.length h.wire
  simp only [List.length_append] at hr
  have hg := hlen good (le (y.nonce.take (nonceLen D.method))) (y.subkey.take (keyLen D.method))
  have hm := h.more
  obtain ⟨n, hn'⟩ : ∃ n, y.rbuf.length = n + 1 + good.length := ⟨y.rbuf.length - 1 - good.length, by omega⟩
  refine ⟨n, _, ?_, rfl⟩
  rw [h.starts.exec, tcpStream, hn',
    decryptLoop_good (n + 1) rest good _ _ rfl hn hk h.legal (by rw [← h.value]; exact h.room) h.quiet h.wire, ← h.value]
  rfl

end Sys2Proof.Machine
end

