-- ==== Sys2Proof/Tests/Slice0.lean ====
section
/-! SUPPORT. Tests: the vectors of 95_test_vectors.md that need no AEAD bytes, and for every statement with hypotheses a state
that meets them. -/

namespace Sys2Proof.Tests

open Sys2Proof.Machine

/-! ### WellFormed -/

theorem test_wellFormed_boundary :
    Instr.wellFormed (.ctxNew 255 255 .encrypt) = true ∧ Instr.wellFormed (.cipherInit 255 .aes128gcm []) = true := by decide

theorem test_illFormed_slots :
    Instr.wellFormed (.cipherInit 256 .aes128gcm []) = false ∧ Instr.wellFormed (.cipherFree 256) = false ∧
    Instr.wellFormed (.ctxNew 256 0 .encrypt) = false ∧ Instr.wellFormed (.ctxNew 0 256 .encrypt) = false ∧
    Instr.wellFormed (.ctxFree 256) = false ∧ Instr.wellFormed (.tcpEncrypt 256 []) = false ∧
    Instr.wellFormed (.tcpDecrypt 256 []) = false ∧ Instr.wellFormed (.udpEncrypt 256 []) = false ∧
    Instr.wellFormed (.udpDecrypt 256 []) = false := by decide

/-! ### Decode: the words of 95_test_vectors.md B.1, written from 30_encoding.md R99 -/

theorem test_decode_cipherInit :
    decode 0x01000002 [0x74, 0x65] = .ok (.cipherInit 0 .aes256gcm [0x74, 0x65]) ∧
    decode 0x01030005 [] = .ok (.cipherInit 3 .xchacha20ietfpoly1305 []) := ⟨rfl, rfl⟩

theorem test_decode_cipherFree : decode 0x02000000 [] = .ok (.cipherFree 0) := rfl

theorem test_decode_ctxNew :
    decode 0x03000000 [] = .ok (.ctxNew 0 0 .encrypt) ∧ decode 0x03000101 [] = .ok (.ctxNew 0 1 .decrypt) := ⟨rfl, rfl⟩

theorem test_decode_ctxFree : decode 0x04000100 [] = .ok (.ctxFree 1) := rfl

theorem test_decode_tcp :
    decode 0x05000000 [0x41] = .ok (.tcpEncrypt 0 [0x41]) ∧ decode 0x06000100 [] = .ok (.tcpDecrypt 1 []) := ⟨rfl, rfl⟩

theorem test_decode_udp :
    decode 0x07000000 [1] = .ok (.udpEncrypt 0 [1]) ∧ decode 0x08020000 [1] = .ok (.udpDecrypt 2 [1]) := ⟨rfl, rfl⟩

theorem test_decode_refused :
    decode 0x00000000 [] = .error .unknownOpcode ∧ decode 0x09000000 [] = .error .unknownOpcode ∧
    decode 0xFF000000 [] = .error .unknownOpcode ∧ decode 0x01000006 [] = .error .noSuchMethod ∧
    decode 0x01000008 [] = .error .noSuchMethod ∧ decode 0x01000100 [] = .error .unusedFieldNotZero ∧
    decode 0x03000002 [] = .error .reservedDirection ∧ decode 0x04010000 [] = .error .unusedFieldNotZero ∧
    decode 0x05000001 [] = .error .unusedFieldNotZero ∧ decode 0x07000100 [] = .error .unusedFieldNotZero ∧
    decode 0x02000000 [0] = .error .inputNotEmpty := ⟨rfl, rfl, rfl, rfl, rfl, rfl, rfl, rfl, rfl, rfl, rfl⟩

theorem test_encode_ctxNew : encode (.ctxNew 0 1 .decrypt) = (0x03000101, []) := rfl

/-! ### BLAKE2b and key derivation: 41_blake2b.md R148, 95_test_vectors.md V1 and V3 -/

/-- The bytes 0, 1, .., n-1. -/
def upTo (n : Nat) : Bytes := (List.range n).map (BitVec.ofNat 8)

/-- The bytes of a number written most significant byte first, as the vectors print them. -/
def hex (n v : Nat) : Bytes := (unle n v).reverse

/-- `PERSONAL = ss-subkey`. -/
def ssSubkey : Bytes := Params.atReset.personal

theorem test_blake2b_abc : blake2b [0x61, 0x62, 0x63] 64 [] [] [] =
    hex 64 0xba80a53f981c4d0d6a2797b69f12f6e94c212f14685ac4b74b12bb6fdbffa2d17d87c5392aab792dc252d5de4533cc9518d38aa8dbf1925ab92386edd4009923 := by
  decide +kernel

theorem test_blake2b_two_blocks : blake2b (List.replicate 129 0x78) 24 [] [] [] =
    hex 24 0x5f012e78e2f1ecd22686f14ecfbd9bb23a44565bd4b71b4f := by decide +kernel

theorem test_blake2b_full_block : blake2b (List.replicate 128 0x78) 16 [] [] [] =
    hex 16 0x874acca82a22239ec64a3e70c3ae494e := by decide +kernel

theorem test_blake2b_keyed : blake2b (List.replicate 300 0x78) 32 (List.replicate 32 0x6b) (List.replicate 16 0x73)
    (pers16 ssSubkey) = hex 32 0x195a936515999c6cdf445613519be13b33e6ace563a2baabc9471200d6f4ede9 := by decide +kernel

theorem test_deriveMaster_empty : deriveMaster [] 16 = hex 16 0xcae66941d9efbd404e4d88758ea67670 := by decide +kernel

theorem test_deriveMaster_24 : deriveMaster [0x74, 0x65, 0x73, 0x74] 24 =
    hex 24 0xbea580c53a659bcbe8f073c0baaa7f8f54fe784665585201 := by decide +kernel

/-- The 32-byte master key of the password `"test"` (V1). -/
def testKey : Bytes := hex 32 0x928b20366943e2afd11ebc0eae2e53a93bf177a4fcf35bcc64d503704e65e202

/-- The subkey of `testKey` and the salt 00..1f (V3). -/
def testSubkey : Bytes := hex 32 0x1ce414b12bfde6f139babe06c166533bc6fa0134d688226f47f06a845e8b61f1

theorem test_deriveSubkey : deriveSubkey ssSubkey testKey (upTo 32) = testSubkey := by decide +kernel

theorem test_deriveSubkey_other_personal : deriveSubkey (ssSubkey ++ [0x58]) testKey (upTo 32) =
    hex 32 0x696484765525480093b0296ec3f5538493449440f46e41c7a2d6fab701e28551 := by decide +kernel

/-! ### Nonce and length arithmetic: 95_test_vectors.md B.3 -/

theorem test_nonceInc :
    nonceInc (zeros 12) = [1] ++ zeros 11 ∧ nonceInc ([0xff] ++ zeros 11) = [0, 1] ++ zeros 10 ∧
    nonceInc ([0xff, 0xff] ++ zeros 10) = [0, 0, 1] ++ zeros 9 ∧
    nonceInc ([0xfe] ++ List.replicate 7 0xff) = List.replicate 8 0xff ∧
    nonceInc (List.replicate 24 0xff) = zeros 24 := by decide +kernel

/-- V4: with `L = 8`, `fc ff×7` may start a chunk, and leaves `fe ff×7`, which may not. -/
theorem test_nonceSpent :
    nonceSpent .chacha20poly1305 ([0xfc] ++ List.replicate 7 0xff ++ zeros 16) = false ∧
    nonceAfterChunk .chacha20poly1305 ([0xfc] ++ List.replicate 7 0xff ++ zeros 16) =
      [0xfe] ++ List.replicate 7 0xff ++ zeros 16 ∧
    nonceSpent .chacha20poly1305 ([0xfe] ++ List.replicate 7 0xff ++ zeros 16) = true := by decide +kernel

theorem test_be16 : be16 0x3FFF = [0x3F, 0xFF] ∧ unbe16 [0x40, 0x00] = 0x4000 := by decide

/-! ### The bench: two descriptors (one empty), four contexts -/

/-- An environment in which no primitive fails for the next `n` calls, the CSPRNG draws 00..1f, and the filter takes no
liberty. -/
def calm (n : Nat) : Env where
  prim := List.replicate n false
  rng := upTo 32
  check := List.replicate 4 .faithful
  add := List.replicate 4 .ok
  forget := List.replicate 8 []
  ticket := 0

theorem calm_quiet (n : Nat) (e : Env) (h : List.replicate n false <+: e.prim) : e.quiet n := by
  induction n generalizing e with
  | zero => trivial
  | succ n ih =>
    obtain ⟨rest, hr⟩ := h
    rw [List.replicate_succ, List.cons_append] at hr
    exact ⟨by simp [Env.primFires, ← hr], ih _ ⟨rest, by simp [← hr]⟩⟩

/-- A descriptor of method 2 and password `"test"`. -/
def benchDesc : Descriptor := { valid := true, method := .aes256gcm, masterKey := testKey }

/-- A context just made, of direction `dir`, with the salt `salt`. -/
def fresh (dir : Direction) (salt : Bytes) : Context :=
  { Context.empty with valid := true, dir := dir, salt := salt }

/-- A context whose stream has begun, with the buffer `rbuf`. -/
def running (dir : Direction) (rbuf : Bytes) : Context :=
  { fresh dir (upTo 32) with init := true, subkey := testSubkey, rbuf := rbuf }

/-- The bench: descriptor 0 valid, 1 empty; contexts 0 FRESH, 1 AWAIT_SALT, 2 as given, 3 empty. -/
def bench (role : Role) (e : Env) (x : Context) : State where
  cfg := { Params.atReset with role := role }
  desc := [benchDesc, Descriptor.empty]
  ctx := [fresh .encrypt (upTo 32), fresh .decrypt (zeros 32), x, Context.empty]
  filter := []
  env := e
  inbox := []
  response := none

theorem fresh_inv (dir : Direction) {salt : Bytes} (hs : salt.length = 32) (hd : dir = .decrypt → salt = zeros 32) :
    LiveContextInv .aes256gcm (fresh dir salt) where
  salt_length := hs
  salt_rest := List.drop_eq_nil_of_le (by simp [fresh, hs, keyLen])
  subkey_length := rfl
  subkey_rest := rfl
  nonce_length := rfl
  nonce_rest := rfl
  nonce_even := rfl
  nonce_bound := by
    show le (liveNonce .aes256gcm (zeros 24)) ≤ _
    decide
  start_nonce := fun _ => rfl
  start_subkey := fun _ _ => rfl
  await_salt := fun h _ _ => hd h
  encrypt_rbuf := fun _ => rfl
  await_rbuf := fun _ _ => by
    show 0 < keyLen .aes256gcm
    decide
  stream_rbuf := fun _ _ => Nat.zero_le _

theorem running_inv (dir : Direction) {rbuf : Bytes} (hr : rbuf.length ≤ 16416) (he : dir = .encrypt → rbuf = []) :
    LiveContextInv .aes256gcm (running dir rbuf) where
  salt_length := rfl
  salt_rest := rfl
  subkey_length := rfl
  subkey_rest := rfl
  nonce_length := rfl
  nonce_rest := rfl
  nonce_even := rfl
  nonce_bound := by
    show le (liveNonce .aes256gcm (zeros 24)) ≤ _
    decide
  start_nonce := fun h => by cases h
  start_subkey := fun h => by cases h
  await_salt := fun _ h => by cases h
  encrypt_rbuf := he
  await_rbuf := fun h => by cases h
  stream_rbuf := fun _ _ => hr

/-- The bench meets the invariant. -/
theorem bench_inv (role : Role) (e : Env) {x : Context} (hx : ContextInv [benchDesc, Descriptor.empty] x) :
    (bench role e x).Inv where
  cfg_wf := by constructor <;> simp [bench, Params.atReset]
  desc_count := by simp [bench]
  ctx_count := by simp [bench]
  desc_inv := by
    intro D hD
    simp only [bench, List.mem_cons, List.not_mem_nil, or_false] at hD
    rcases hD with rfl | rfl
    · exact ⟨by decide, by decide, by decide⟩
    · exact ⟨by decide, by decide, by decide⟩
  ctx_inv := by
    intro y hy
    simp only [bench, List.mem_cons, List.not_mem_nil, or_false] at hy
    rcases hy with rfl | rfl | rfl | rfl
    · exact ⟨(by intro h; cases h), fun _ => ⟨benchDesc, rfl, rfl, fresh_inv _ rfl (fun h => by cases h)⟩⟩
    · exact ⟨(by intro h; cases h), fun _ => ⟨benchDesc, rfl, rfl, fresh_inv _ rfl (fun _ => rfl)⟩⟩
    · exact hx
    · exact ⟨fun _ => rfl, fun h => by cases h⟩
  filter_wf := List.Pairwise.nil
  filter_salts := by simp [bench]
  response_out := by simp [bench]

theorem bench_inv_running (role : Role) (e : Env) (dir : Direction) {rbuf : Bytes} (hr : rbuf.length ≤ 16416)
    (he : dir = .encrypt → rbuf = []) : (bench role e (running dir rbuf)).Inv :=
  bench_inv role e ⟨(by intro h; cases h), fun _ => ⟨benchDesc, rfl, rfl, running_inv dir hr he⟩⟩

/-- The state that a command answers, if it answers one. -/
def after (i : Instr) (s : State) : Option State :=
  match exec i s with
  | .next t => some t
  | _ => none

/-- The status that a command answers. -/
def statusOf (i : Instr) (s : State) : Option Status := (after i s).bind fun t => t.response.map fun r => r.status

/-- The bench with the plain environment and an ARMED context 2. -/
def plainBench : State := bench .client (calm 9) (running .encrypt [])

/-- The server's bench with the plain environment and a STREAM context 2. -/
def serverBench : State := bench .server (calm 9) (running .decrypt [])

/-! ### One step of each command: 95_test_vectors.md B.5 to B.9, P1, P3, P5 -/

theorem test_cipherInit_writes_key :
    (after (.cipherInit 1 .chacha20poly1305 []) plainBench).map (fun t => t.desc[1]?) =
      some (some ⟨true, .chacha20poly1305, hex 32 0x0e5751c026e543b2e8ab2eb06099daa1d1e5df47778f7787faab45cdf12fe3a8⟩) := by
  decide +kernel

theorem test_cipherInit_refused_on_valid : statusOf (.cipherInit 0 .aes128gcm [0x78]) plainBench = some .refused := by
  decide +kernel

theorem test_cipherFree_refused_while_referenced : statusOf (.cipherFree 0) plainBench = some .refused := by decide +kernel

theorem test_cipherFree_wipes :
    (after (.cipherFree 0) { plainBench with ctx := [Context.empty] }).map (fun t => t.desc[0]?) =
      some (some Descriptor.empty) := by decide +kernel

theorem test_ctxNew_draws_the_salt :
    (after (.ctxNew 0 3 .encrypt) plainBench).map (fun t => t.ctx[3]?) = some (some (fresh .encrypt (upTo 32))) := by
  decide +kernel

theorem test_ctxNew_refused_on_empty_descriptor : statusOf (.ctxNew 1 3 .encrypt) plainBench = some .refused := by
  decide +kernel

theorem test_ctxFree_wipes :
    (after (.ctxFree 2) plainBench).map (fun t => t.ctx[2]?) = some (some Context.empty) := by decide +kernel

theorem test_ctxFree_refused_on_empty : statusOf (.ctxFree 3) plainBench = some .refused := by decide +kernel

/-- S1: the arming call leaves the subkey of V3 and the nonce 02 00×11. -/
theorem test_tcpEncrypt_arms :
    (after (.tcpEncrypt 0 [0x41, 0x42, 0x43]) plainBench).map (fun t => t.ctx[0]?) =
      some (some { running .encrypt [] with nonce := [2] ++ zeros 23 }) := by decide +kernel

/-- S1: 69 bytes. -/
theorem test_tcpEncrypt_length : ∃ t out, exec (.tcpEncrypt 0 [0x41, 0x42, 0x43]) plainBench = .next t ∧
    t.response = some ⟨.ok, out⟩ ∧ out.length = 69 := by
  refine ⟨_, _, rfl, rfl, ?_⟩
  show (upTo 32 ++ chunkFrame .aes256gcm _ _ [0x41, 0x42, 0x43]).length = 69
  simp [upTo]

/-- V6c: the salt alone is consumed, the subkey derived, `init` set; `NeedMore`. What arrives on the STREAM context then is
appended (44_tcp.md R208). -/
theorem test_tcpDecrypt_salt_only :
    (after (.tcpDecrypt 1 (upTo 32)) plainBench).map (fun t => (t.ctx[1]?, t.response)) =
      some (some (running .decrypt []), some ⟨.needMore, []⟩) ∧
    (after (.tcpDecrypt 2 (upTo 34)) (bench .client (calm 9) (running .decrypt []))).map (fun t => (t.ctx[2]?, t.response)) =
      some (some (running .decrypt (upTo 34)), some ⟨.needMore, []⟩) := by decide +kernel

/-- V6n: a replayed salt on a server; the salt is stored, the buffer kept, nothing derived. -/
theorem test_tcpDecrypt_replay :
    (after (.tcpDecrypt 1 (upTo 33)) { serverBench with filter := [upTo 32] }).map (fun t => (t.ctx[1]?, t.response)) =
      some (some { fresh .decrypt (upTo 32) with dead := true, rbuf := upTo 33 }, some ⟨.replayDetected, []⟩) := by
  decide +kernel

/-- V8a, V8e: the datagram begins with the drawn salt and is 16 + 16 bytes longer than the plaintext, the empty one included. -/
theorem test_udpEncrypt_salt_first :
    (after (.udpEncrypt 0 [1]) plainBench).map (fun t => t.response.map fun r => (r.status, r.out.take 32)) =
      some (some (.ok, upTo 32)) := by decide +kernel

/-- V8f: `key_len + 16` bytes are too short. -/
theorem test_udpDecrypt_too_short : statusOf (.udpDecrypt 0 (upTo 48)) serverBench = some .tooShort := by decide +kernel

/-- V8b: what was encrypted under the master key and the zero nonce comes back. -/
theorem test_udpDecrypt_opens : ∃ t,
    exec (.udpDecrypt 0 (upTo 32 ++ aeadEnc .aes256gcm testKey (zeros 12) [1])) plainBench = .next t ∧
      t.response = some ⟨.ok, [1]⟩ := by
  have hd := aeadDec_aeadEnc (m := .aes256gcm) (k := testKey) (n := zeros 12) [1] (by decide) (by decide)
  have hl : (upTo 32).length = 32 := by simp [upTo]
  refine ⟨_, rfl, ?_⟩
  have h1 : ¬ (upTo 32 ++ aeadEnc .aes256gcm testKey (zeros 12) [1]).length ≤ keyLen .aes256gcm + tagLen := by
    simp [hl, keyLen, tagLen]
  have h2 : (upTo 32 ++ aeadEnc .aes256gcm testKey (zeros 12) [1]).drop (keyLen .aes256gcm) =
      aeadEnc .aes256gcm testKey (zeros 12) [1] := List.drop_left' hl
  have hkey : benchDesc.key = testKey := by decide +kernel
  show (udpDecryptAccepted benchDesc _ plainBench).response = _
  simp only [udpDecryptAccepted, benchDesc, h1, if_false, h2, plainBench, bench]
  simp only [udpOpen, hd, show ({ valid := true, method := Method.aes256gcm, masterKey := testKey } : Descriptor).key = testKey from hkey, udpNonce,
    nonceLen, udpInsert, Env.primFires, calm, List.replicate_succ, List.headD_cons, Bool.false_eq_true, if_false]
  rfl

/-- The status codes of 30_encoding.md R102. -/
theorem test_statusCodes :
    [Status.ok, .needMore, .authFail, .replayDetected, .tooShort, .internal, .nonceExhausted, .refused].map statusCode =
      [0, 1, 2, 3, 4, 5, 6, 7] := by decide

/-! ### The host's questions: every row's word decodes, and is the first thing the machine runs after reset -/

/-- The first step after reset runs the word: it answers a next state. -/
def firstStepRuns (w : Nat) : Bool :=
  match step (State.reset.withFetchWord 32 w) with
  | .next _ => true
  | _ => false

theorem test_first_steps : [0x01000000, 0x02000000, 0x03000000, 0x04000000, 0x05000000, 0x06000000, 0x07000000, 0x08000000].map
    firstStepRuns = List.replicate 8 true := by decide +kernel

theorem test_decodeTableWord : decodeTableWord 32 0x03000101 = some (.ctxNew 0 1 .decrypt) := by decide +kernel

/-! ### Witnesses: for every statement with hypotheses, a state and operands that meet all of them -/

theorem plainBench_inv : plainBench.Inv := bench_inv_running .client (calm 9) .encrypt (by simp) (fun _ => rfl)

theorem serverBench_inv : serverBench.Inv := bench_inv_running .server (calm 9) .decrypt (by simp) (fun h => by cases h)

/-- A client's bench whose context 2 is in STREAM with nothing buffered. -/
def streamBench : State := bench .client (calm 9) (running .decrypt [])

theorem streamBench_inv : streamBench.Inv := bench_inv_running .client (calm 9) .decrypt (by simp) (fun h => by cases h)

theorem calm9_quiet {n : Nat} (h : n ≤ 9) (e : Env) (he : e.prim = List.replicate 9 false) : e.quiet n :=
  calm_quiet n e ⟨List.replicate (9 - n) false, by rw [he, List.replicate_append_replicate, Nat.add_sub_cancel' h]⟩

/-- No bound is configured on the bench. -/
theorem no_bound {n : Nat} : ∀ b, (none : Option Nat) = some b → n ≤ b := fun _ h => by cases h

theorem test_witness_ResetMeetsTheInvariant :
    ParamsWf Params.atReset ∧ ParamsWf { Params.atReset with role := .server, personal := upTo 16, f0 := [upTo 16, upTo 32] } := by
  constructor
  · constructor <;> simp [Params.atReset]
  · constructor <;> simp [upTo]

theorem test_witness_StepKeepsTheInvariant : State.Inv { plainBench with inbox := [.command 0x08000000 [], .reset] } ∧
    ∃ t, step { plainBench with inbox := [.command 0x08000000 [], .reset] } = .next t :=
  ⟨⟨plainBench_inv.1, plainBench_inv.2, plainBench_inv.3, plainBench_inv.4, plainBench_inv.5, plainBench_inv.6,
    plainBench_inv.7, plainBench_inv.8⟩, _, rfl⟩

theorem test_witness_InvariantStatesNeverStop : plainBench.Inv ∧ serverBench.Inv := ⟨plainBench_inv, serverBench_inv⟩

theorem test_witness_DecodeEncodeAgree : ∀ i ∈ [Instr.cipherInit 255 .xchacha20ietfpoly1305 [1], .cipherFree 0, .cipherFree 255,
    .ctxNew 255 255 .decrypt, .ctxFree 255, .tcpEncrypt 255 [1], .tcpDecrypt 255 [], .udpEncrypt 255 [], .udpDecrypt 255 [2]],
    i.wellFormed = true := by decide

theorem test_witness_EncodeDecodeAgree : decode 0x03FFFF01 [] = .ok (.ctxNew 255 255 .decrypt) := rfl

theorem test_witness_StepRunsTheDecodedCommand :
    { plainBench with inbox := [.command 0x04000200 []] }.inbox = .command 0x04000200 [] :: [] ∧
    decode 0x04000200 [] = .ok (.ctxFree 2) ∧ plainBench.inbox = [] := ⟨rfl, rfl, rfl⟩

/-- The hypothesis of `RefusedWordsChangeNothing` on the bench (two descriptor slots, four context slots). -/
abbrev RefusedOnBench (w : CommandWord) (input : Bytes) : Prop :=
  let op := w.toNat / 2 ^ 24
  let sd := w.toNat / 2 ^ 16 % 256
  let sc := w.toNat / 2 ^ 8 % 256
  let arg := w.toNat % 256
  op = 0 ∨ 9 ≤ op ∨
    (op = 1 ∧ (sc ≠ 0 ∨ 6 ≤ arg ∨ plainBench.desc.length ≤ sd)) ∨
    (op = 2 ∧ (sc ≠ 0 ∨ arg ≠ 0 ∨ plainBench.desc.length ≤ sd ∨ input ≠ [])) ∨
    (op = 3 ∧ (2 ≤ arg ∨ plainBench.desc.length ≤ sd ∨ plainBench.ctx.length ≤ sc ∨ input ≠ [])) ∨
    (op = 4 ∧ (sd ≠ 0 ∨ arg ≠ 0 ∨ plainBench.ctx.length ≤ sc ∨ input ≠ [])) ∨
    ((op = 5 ∨ op = 6) ∧ (sd ≠ 0 ∨ arg ≠ 0 ∨ plainBench.ctx.length ≤ sc)) ∨
    ((op = 7 ∨ op = 8) ∧ (sc ≠ 0 ∨ arg ≠ 0 ∨ plainBench.desc.length ≤ sd))

theorem test_witness_RefusedWordsChangeNothing : ∀ x ∈ ([(0x00000000, []), (0x09000000, []), (0xFF000000, []),
    (0x01000100, []), (0x01000006, []), (0x01020000, []), (0x02000100, []), (0x02000001, []), (0x02020000, []),
    (0x02000000, [0]), (0x03000002, []), (0x03020000, []), (0x03000400, []), (0x03000000, [0]), (0x04010000, []),
    (0x04000001, []), (0x04000400, []), (0x04000000, [0]), (0x05010000, []), (0x05000001, []), (0x05000400, []),
    (0x06010000, []), (0x06000001, []), (0x06000400, []), (0x07000100, []), (0x07000001, []), (0x07020000, []),
    (0x08000100, []), (0x08000001, []), (0x08020000, [])] : List (CommandWord × Bytes)), RefusedOnBench x.1 x.2 := by
  decide

theorem test_witness_ResetEventWipesEverySlot :
    { plainBench with inbox := [.reset, .reset] }.inbox = .reset :: [HostEvent.reset] := rfl

/-- The password of `MAX_PW` bytes is the longest one. -/
theorem test_witness_CipherInitFillsTheSlot :
    { plainBench with cfg := { plainBench.cfg with maxPw := some 4 } }.desc[1]? = some Descriptor.empty ∧
    Descriptor.empty.valid = false ∧ ∀ b, some 4 = some b → ([0x74, 0x65, 0x73, 0x74] : Bytes).length ≤ b :=
  ⟨rfl, rfl, fun b h => by cases h; decide⟩

/-- Both clauses: without contexts, and with a dead context that still refers to the slot. -/
theorem test_witness_CipherFreeWipesAnUnreferencedSlot :
    plainBench.desc[0]? = some benchDesc ∧ benchDesc.valid = true ∧
    (∀ x ∈ { plainBench with ctx := [Context.empty] }.ctx, x.valid = true → x.desc ≠ 0) ∧
    (∃ x ∈ [{ running .encrypt [] with dead := true }], x.valid = true ∧ x.desc = 0) :=
  ⟨rfl, rfl, by decide, _, List.mem_singleton.2 rfl, rfl, rfl⟩

theorem test_witness_CtxNewMakesAZeroedContext : plainBench.desc[0]? = some benchDesc ∧ benchDesc.valid = true ∧
    plainBench.ctx[3]? = some Context.empty ∧ Context.empty.valid = false := ⟨rfl, rfl, rfl, rfl⟩

theorem test_witness_CtxFreeWipesTheSlot : plainBench.ctx[0]? = some (fresh .encrypt (upTo 32)) ∧
    (fresh .encrypt (upTo 32)).valid = true := ⟨rfl, rfl⟩

/-- `x` stands in slot `c` of `s`, valid, not dead, of direction `dir` and phase bit `init`, bound to the bench's descriptor:
the hypotheses that the statements about TCP commands share. -/
structure Standing (s : State) (c : Nat) (x : Context) (dir : Direction) (init : Bool) : Prop where
  slot : s.ctx[c]? = some x
  valid : x.valid = true
  dir_eq : x.dir = dir
  dead : x.dead = false
  init_eq : x.init = init
  desc : s.desc[x.desc]? = some benchDesc

theorem standing_fresh : Standing plainBench 0 (fresh .encrypt (upTo 32)) .encrypt false := ⟨rfl, rfl, rfl, rfl, rfl, rfl⟩

theorem standing_armed : Standing plainBench 2 (running .encrypt []) .encrypt true := ⟨rfl, rfl, rfl, rfl, rfl, rfl⟩

theorem standing_await (role : Role) (x : Context) :
    Standing (bench role (calm 9) x) 1 (fresh .decrypt (zeros 32)) .decrypt false := ⟨rfl, rfl, rfl, rfl, rfl, rfl⟩

theorem standing_stream : Standing streamBench 2 (running .decrypt []) .decrypt true := ⟨rfl, rfl, rfl, rfl, rfl, rfl⟩

theorem test_witness_TcpEncryptEmptyInputDoesNothing : Standing plainBench 0 (fresh .encrypt (upTo 32)) .encrypt false :=
  standing_fresh

/-- A whole chunk of the largest payload. -/
theorem test_witness_TcpEncryptFirstChunkCarriesTheSalt : plainBench.Inv ∧
    Standing plainBench 0 (fresh .encrypt (upTo 32)) .encrypt false ∧ 1 ≤ (zeros 0x3FFF).length ∧
    (zeros 0x3FFF).length ≤ 0x3FFF ∧
    (∀ b, plainBench.cfg.maxIn = some b → (zeros 0x3FFF).length ≤ b) ∧ plainBench.env.quiet 3 :=
  ⟨plainBench_inv, standing_fresh, by simp, by simp, no_bound, calm9_quiet (by decide) _ rfl⟩

theorem test_witness_TcpEncryptOneChunk : plainBench.Inv ∧ Standing plainBench 2 (running .encrypt []) .encrypt true ∧
    1 ≤ (zeros 0x3FFF).length ∧ (zeros 0x3FFF).length ≤ 0x3FFF ∧
    (∀ b, plainBench.cfg.maxIn = some b → (zeros 0x3FFF).length ≤ b) ∧
    le ((running .encrypt []).nonce.take 12) < 256 ^ 12 - 2 ∧ plainBench.env.quiet 2 :=
  ⟨plainBench_inv, standing_armed, by simp, by simp, no_bound, by decide, calm9_quiet (by decide) _ rfl⟩

/-- Two chunks, of 0x3FFF and 1 bytes (44_tcp.md R207). -/
theorem test_witness_TcpEncryptOutputLengthAndNonce : plainBench.Inv ∧
    Standing plainBench 0 (fresh .encrypt (upTo 32)) .encrypt false ∧ 1 ≤ (zeros 0x4000).length ∧
    (∀ b, plainBench.cfg.maxIn = some b → (zeros 0x4000).length ≤ b) ∧
    2 = ((zeros 0x4000).length + 0x3FFE) / 0x3FFF ∧
    le ((fresh .encrypt (upTo 32)).nonce.take 12) + 2 * 2 ≤ 256 ^ 12 - 2 ∧ plainBench.env.quiet (1 + 2 * 2) :=
  ⟨plainBench_inv, standing_fresh, by simp, no_bound, by simp, by decide, calm9_quiet (by decide) _ rfl⟩

/-! #### Commands at a later chunk -/

/-- Context 2 of the bench, running, accepted with any input: the bench has no bound. -/
theorem accepts_running (e : Env) (dir : Direction) (n : Nat) {x : Context} (hv : x.valid = true) (hd : x.dir = dir)
    (hx : x.dead = false) (h0 : x.desc = 0) : TcpAccepts (bench .client e x) 2 dir n x benchDesc :=
  ⟨rfl, hv, hd, hx, by rw [h0]; rfl, no_bound⟩

theorem accepts_fresh (e : Env) (x : Context) (n : Nat) :
    TcpAccepts (bench .client e x) 0 .encrypt n (fresh .encrypt (upTo 32)) benchDesc := ⟨rfl, rfl, rfl, rfl, rfl, no_bound⟩

theorem accepts_await (role : Role) (e : Env) (x : Context) (n : Nat) :
    TcpAccepts (bench role e x) 1 .decrypt n (fresh .decrypt (zeros 32)) benchDesc := ⟨rfl, rfl, rfl, rfl, rfl, no_bound⟩

/-- A running context whose nonce has the value `v`, even and at most at the exhaustion point. -/
def runningAt (dir : Direction) (v : Nat) : Context := { running dir [] with nonce := nonceField .aes256gcm v }

theorem le_nonceField {v : Nat} (h : v < 256 ^ 12) : le ((nonceField .aes256gcm v).take 12) = v := by
  show le (liveNonce .aes256gcm _) = v
  rw [liveNonce_nonceField, le_unle]
  exact Nat.mod_eq_of_lt h

theorem runningAt_inv (role : Role) (e : Env) (dir : Direction) {v : Nat} (he : v % 2 = 0) (hv : v ≤ 256 ^ 12 - 2) :
    (bench role e (runningAt dir v)).Inv := by
  have hr := running_inv dir (rbuf := []) (by simp) (fun _ => rfl)
  have hl : le (liveNonce .aes256gcm (nonceField .aes256gcm v)) = v := le_nonceField (by omega)
  exact bench_inv role e ⟨(by intro h; cases h), fun _ => ⟨benchDesc, rfl, rfl,
    { hr with
      nonce_length := by simp [runningAt, nonceField, nonceLen]
      nonce_rest := List.drop_left' (unle_length _ _)
      nonce_even := by show le (liveNonce .aes256gcm (nonceField .aes256gcm v)) % 2 = 0; rw [hl, he]
      nonce_bound := by show le (liveNonce .aes256gcm (nonceField .aes256gcm v)) ≤ _; rw [hl]; exact hv
      start_nonce := fun h => by cases h }⟩⟩

/-- An ARMED context at its second chunk, of one byte. -/
theorem encrypt_second (e : Env) (he : e.quiet 2) {v : Nat} (h2 : v % 2 = 0) (hv : v + 2 ≤ 256 ^ 12 - 2) :
    EncryptAtChunk (bench .client e (runningAt .encrypt v)) 2 (zeros 0x4000) (runningAt .encrypt v) benchDesc
      (bench .client e (runningAt .encrypt v)) 1 (v + 2) where
  inv := runningAt_inv _ _ _ h2 (by omega)
  starts := .armed (accepts_running e .encrypt _ rfl rfl rfl rfl)
    (fun h => absurd (congrArg List.length h) (by simp)) rfl
  more := by simp
  value := by rw [show le ((runningAt .encrypt v).nonce.take (nonceLen benchDesc.method)) = v from le_nonceField (by omega)]
  room := hv
  quiet := he

/-- A FRESH context at the first chunk of the call that arms it. -/
theorem encrypt_arming (e : Env) (he : e.primFires = false) :
    EncryptAtChunk (bench .client e (running .encrypt [])) 0 [0x41]
      ((fresh .encrypt (upTo 32)).begun Params.atReset benchDesc ((upTo 32).take 32)) benchDesc
      { bench .client e (running .encrypt []) with env := e.afterPrim } 0 0 where
  inv := bench_inv_running _ _ _ (by simp) (fun _ => rfl)
  starts := .arms (accepts_fresh e _ _) (by simp) rfl he
  more := by simp
  value := by show 0 = le ((zeros 24).take 12) + 2 * 0; decide
  room := Nat.zero_le _
  quiet := trivial

/-- A STREAM context past a good chunk of one byte, with `rest` behind it. -/
theorem decrypt_second (e : Env) (he : e.quiet 2) {v : Nat} (h2 : v % 2 = 0) (hv : v + 2 ≤ 256 ^ 12 - 2) {rest : Bytes}
    (hr : 34 < rest.length) :
    DecryptAtChunk (bench .client e (runningAt .decrypt v)) 2 (chunksFrom .aes256gcm testSubkey v [[0x41]] ++ rest)
      { runningAt .decrypt v with rbuf := [] ++ (chunksFrom .aes256gcm testSubkey v [[0x41]] ++ rest) } benchDesc
      (bench .client e (runningAt .decrypt v)) [[0x41]] rest (v + 2) where
  inv := runningAt_inv _ _ _ h2 (by omega)
  starts := .streaming (accepts_running e .decrypt _ rfl rfl rfl rfl) rfl
  legal := by decide
  wire := by
    show [] ++ (chunksFrom .aes256gcm testSubkey v [[0x41]] ++ rest) = chunksFrom .aes256gcm (testSubkey.take 32)
      (le ((nonceField .aes256gcm v).take 12)) [[0x41]] ++ rest
    rw [le_nonceField (by omega), show testSubkey.take 32 = testSubkey by decide]
    rfl
  more := hr
  value := by
    show v + 2 = le ((nonceField .aes256gcm v).take 12) + 2 * 1
    rw [le_nonceField (by omega)]
  room := hv
  quiet := he

/-- An AWAIT_SALT context on a client and on a server, at the first chunk behind the salt. -/
theorem decrypt_salt_client (e : Env) (he : e.primFires = false) :
    DecryptAtChunk (bench .client e (running .decrypt [])) 1 (upTo 67)
      { (fresh .decrypt (zeros 32)).begun Params.atReset benchDesc (upTo 32) with
        salt := fit 32 (upTo 32), rbuf := (upTo 67).drop 32 } benchDesc
      { bench .client e (running .decrypt []) with env := e.afterPrim } [] ((upTo 67).drop 32) 0 where
  inv := bench_inv_running _ _ _ (by simp) (fun _ => rfl)
  starts := .onAClient (accepts_await .client e _ _) rfl rfl (by decide) (by decide) he
  legal := by simp
  wire := rfl
  more := by decide
  value := by show 0 = le ((zeros 24).take 12) + 2 * 0; decide
  room := Nat.zero_le _
  quiet := trivial

theorem decrypt_salt_server : ∃ y w, DecryptAtChunk serverBench 1 (upTo 67) y benchDesc w [] ((upTo 67).drop 32) 0 :=
  ⟨_, _, { inv := serverBench_inv
           starts := .onAServer (salt := upTo 32) (accepts_await .server _ _ _) rfl rfl (by decide) (by decide) (by decide)
             (by decide) rfl rfl
           legal := by simp
           wire := rfl
           more := by decide
           value := by show 0 = le ((zeros 24).take 12) + 2 * 0; decide
           room := Nat.zero_le _
           quiet := trivial }⟩

/-- The length header of a chunk of `n` bytes under the bench's subkey and the nonce of value 2, with `more` behind it. -/
def secondHeader (n : Nat) (more : Bytes) : Bytes := aeadEnc .aes256gcm testSubkey (unle 12 2) (be16 n) ++ more

theorem secondHeader_opens (n : Nat) (more : Bytes) :
    aeadDec .aes256gcm ((runningAt .decrypt 0).subkey.take 32) (unle 12 2) ((secondHeader n more).take 18) =
      some (be16 n) := by
  rw [secondHeader, List.take_left' (by simp [tagLen])]
  exact aeadDec_aeadEnc _ (by decide) (by decide)

/-- V4 with `L = 12`, on the encoder and on the decoder: the first chunk uses the last nonces, the second finds none. -/
theorem test_witness_NonceExhaustionKillsTheContext_later : EncryptAtChunk (bench .client (calm 9) (runningAt .encrypt (256 ^ 12 - 4))) 2
      (zeros 0x4000) (runningAt .encrypt (256 ^ 12 - 4)) benchDesc
      (bench .client (calm 9) (runningAt .encrypt (256 ^ 12 - 4))) 1 (256 ^ 12 - 4 + 2) ∧
    DecryptAtChunk (bench .client (calm 9) (runningAt .decrypt (256 ^ 12 - 4))) 2
      (chunksFrom .aes256gcm testSubkey (256 ^ 12 - 4) [[0x41]] ++ upTo 35)
      { runningAt .decrypt (256 ^ 12 - 4) with
        rbuf := [] ++ (chunksFrom .aes256gcm testSubkey (256 ^ 12 - 4) [[0x41]] ++ upTo 35) } benchDesc
      (bench .client (calm 9) (runningAt .decrypt (256 ^ 12 - 4))) [[0x41]] (upTo 35) (256 ^ 12 - 4 + 2) ∧
    256 ^ 12 - 4 + 2 = 256 ^ nonceLen benchDesc.method - 2 :=
  ⟨encrypt_second _ (calm9_quiet (by decide) _ rfl) (by decide) (by decide),
    decrypt_second _ (calm9_quiet (by decide) _ rfl) (by decide) (by decide) (by decide), by decide⟩

/-- The draw fires at each call of a later chunk, in both directions; the decoder's rest is a whole chunk of one byte. -/
theorem test_witness_PrimFailKillsATcpContext_later (b : Bool) :
    let e := { calm 9 with prim := [false, false, b, true] }
    let rest := secondHeader 1 (upTo 17)
    EncryptAtChunk (bench .client e (runningAt .encrypt 0)) 2 (zeros 0x4000) (runningAt .encrypt 0) benchDesc
      (bench .client e (runningAt .encrypt 0)) 1 2 ∧
    DecryptAtChunk (bench .client e (runningAt .decrypt 0)) 2 (chunksFrom .aes256gcm testSubkey 0 [[0x41]] ++ rest)
      { runningAt .decrypt 0 with rbuf := [] ++ (chunksFrom .aes256gcm testSubkey 0 [[0x41]] ++ rest) } benchDesc
      (bench .client e (runningAt .decrypt 0)) [[0x41]] rest 2 ∧
    (2 < 256 ^ nonceLen benchDesc.method - 2) ∧ (Env.afterPrim^[2] e).primFires = b ∧
    (Env.afterPrim^[2] e).afterPrim.primFires = true ∧
    aeadDec .aes256gcm ((runningAt .decrypt 0).subkey.take 32) (unle 12 2) (rest.take 18) = some (be16 1) ∧
    1 ≤ unbe16 (be16 1) ∧ unbe16 (be16 1) ≤ 0x3FFF ∧ 34 + unbe16 (be16 1) ≤ rest.length :=
  ⟨encrypt_second _ ⟨rfl, rfl, trivial⟩ rfl (by decide),
    decrypt_second _ ⟨rfl, rfl, trivial⟩ rfl (by decide) (by simp [secondHeader, tagLen, upTo]), by decide, rfl, rfl,
    secondHeader_opens _ _, by decide, by decide, by rw [unbe16_be16 (by decide)]; simp [secondHeader, tagLen, upTo]⟩

/-- The first chunk of the call that arms, or that completes the salt, on a client and on a server. -/
theorem test_witness_PrimFailKillsATcpContext_start :
    (∃ y w, EncryptAtChunk (bench .client { calm 9 with prim := [false, true] } (running .encrypt [])) 0 [0x41] y benchDesc w 0 0 ∧
      (Env.afterPrim^[0] w.env).primFires = true) ∧
    (∃ y w, DecryptAtChunk (bench .client { calm 9 with prim := [false, true] } (running .decrypt [])) 1 (upTo 67) y benchDesc w
      [] ((upTo 67).drop 32) 0 ∧ (Env.afterPrim^[0] w.env).primFires = true) ∧
    (∃ y w, DecryptAtChunk serverBench 1 (upTo 67) y benchDesc w [] ((upTo 67).drop 32) 0) :=
  ⟨⟨_, _, encrypt_arming _ rfl, rfl⟩, ⟨_, _, decrypt_salt_client _ rfl, rfl⟩, decrypt_salt_server⟩

/-- The draw fires at the derivation: arming, and completing the salt on a client and on a server. -/
theorem test_witness_PrimFailKillsATcpContext_derivation :
    let e := { calm 9 with prim := [true] }
    let x := running .encrypt []
    TcpAccepts (bench .client e x) 0 .encrypt [0x41].length (fresh .encrypt (upTo 32)) benchDesc ∧
    (fresh .encrypt (upTo 32)).init = false ∧ ([0x41] : Bytes) ≠ [] ∧ (bench .client e x).env.primFires = true ∧
    (∀ role, TcpAccepts (bench role e x) 1 .decrypt (upTo 32).length (fresh .decrypt (zeros 32)) benchDesc) ∧
    keyLen benchDesc.method ≤ ((fresh .decrypt (zeros 32)).rbuf ++ upTo 32).length ∧
    upTo 32 = ((fresh .decrypt (zeros 32)).rbuf ++ upTo 32).take (keyLen benchDesc.method) ∧
    (bench .server e x).checkAnswer (upTo 32) = .absent ∧ (bench .server e x).afterCheck.addAnswer = .ok ∧
    ((bench .server e x).afterCheck.afterAdd (upTo 32)).env.primFires = true :=
  ⟨accepts_fresh _ _ _, rfl, by decide, rfl, fun _ => accepts_await _ _ _ _, by decide, by decide, by decide, by decide, rfl⟩

/-- The exhaustion point itself, in both directions. -/
theorem test_witness_NonceExhaustionKillsTheContext (dir : Direction) :
    let x := { running dir [] with nonce := [0xfe] ++ List.replicate 11 0xff ++ zeros 12 }
    Standing (bench .client (calm 9) x) 2 x dir true ∧ le (x.nonce.take 12) = 256 ^ 12 - 2 ∧
    (∀ b, (bench .client (calm 9) x).cfg.maxIn = some b → (upTo 35).length ≤ b) ∧ upTo 35 ≠ [] ∧
    34 < x.rbuf.length + (upTo 35).length :=
  ⟨⟨rfl, rfl, rfl, rfl, rfl, rfl⟩, by show le ([0xfe] ++ List.replicate 11 0xff) = _; decide, no_bound, by decide, by
    show 34 < 0 + 35; decide⟩

/-- In both directions, with the draw about to fire. -/
theorem test_witness_PrimFailKillsATcpContext (dir : Direction) :
    let s := bench .client { calm 9 with prim := [true] } (running dir [])
    Standing s 2 (running dir []) dir true ∧ (∀ b, s.cfg.maxIn = some b → (upTo 35).length ≤ b) ∧
    le ((running dir []).nonce.take 12) < 256 ^ 12 - 2 ∧ s.env.primFires = true ∧ upTo 35 ≠ [] ∧
    34 < (running dir []).rbuf.length + (upTo 35).length :=
  ⟨⟨rfl, rfl, rfl, rfl, rfl, rfl⟩, no_bound, by show le (zeros 12) < _; decide, rfl, by decide, by show 34 < 0 + 35; decide⟩

/-- One byte less than the salt. -/
theorem test_witness_TcpDecryptAwaitsTheSalt : Standing plainBench 1 (fresh .decrypt (zeros 32)) .decrypt false ∧
    (∀ b, plainBench.cfg.maxIn = some b → (upTo 31).length ≤ b) ∧
    (fresh .decrypt (zeros 32)).rbuf.length + (upTo 31).length < keyLen benchDesc.method :=
  ⟨standing_await _ _, no_bound, by decide⟩

/-- The salt alone, and the salt with 34 bytes more. -/
theorem test_witness_TcpDecryptTakesTheSaltOnAClient : plainBench.Inv ∧ plainBench.cfg.role = .client ∧
    Standing plainBench 1 (fresh .decrypt (zeros 32)) .decrypt false ∧
    (∀ n, ∀ b, plainBench.cfg.maxIn = some b → (upTo n).length ≤ b) ∧
    (∀ n ∈ [32, 66], keyLen benchDesc.method ≤ (fresh .decrypt (zeros 32)).rbuf.length + (upTo n).length ∧
      (fresh .decrypt (zeros 32)).rbuf.length + (upTo n).length ≤ keyLen benchDesc.method + 34) ∧
    plainBench.env.primFires = false :=
  ⟨plainBench_inv, rfl, standing_await _ _, fun _ => no_bound, by decide, rfl⟩

/-- The salt alone, and the salt with 34 bytes more. -/
theorem test_witness_TcpDecryptRecordsTheSaltFirst : serverBench.Inv ∧ serverBench.cfg.role = .server ∧
    Standing serverBench 1 (fresh .decrypt (zeros 32)) .decrypt false ∧
    (∀ n, ∀ b, serverBench.cfg.maxIn = some b → (upTo n).length ≤ b) ∧
    (∀ n ∈ [32, 66], keyLen benchDesc.method ≤ (fresh .decrypt (zeros 32)).rbuf.length + (upTo n).length ∧
      (fresh .decrypt (zeros 32)).rbuf.length + (upTo n).length ≤ keyLen benchDesc.method + 34 ∧
      serverBench.checkAnswer ((upTo n).take 32) = .absent) ∧
    serverBench.afterCheck.addAnswer = .ok ∧ (serverBench.afterCheck.afterAdd (upTo 32)).env.primFires = false :=
  ⟨serverBench_inv, rfl, standing_await _ _, fun _ => no_bound, by decide, by decide, rfl⟩

/-- Both ways the check is not `Absent`: the salt is in the filter, and the check fails. -/
theorem test_witness_TcpDecryptRejectsAReplayedSalt :
    let s1 := { serverBench with filter := [upTo 32] }
    let s2 := bench .server { calm 9 with check := [.internalError] } (running .decrypt [])
    s1.cfg.role = .server ∧ Standing s1 1 (fresh .decrypt (zeros 32)) .decrypt false ∧
    s1.checkAnswer ((upTo 32).take 32) = .present ∧ s2.cfg.role = .server ∧
    Standing s2 1 (fresh .decrypt (zeros 32)) .decrypt false ∧ s2.checkAnswer ((upTo 32).take 32) = .internalError ∧
    (∀ b, s1.cfg.maxIn = some b → (upTo 32).length ≤ b) ∧
    keyLen benchDesc.method ≤ (fresh .decrypt (zeros 32)).rbuf.length + (upTo 32).length :=
  ⟨rfl, ⟨rfl, rfl, rfl, rfl, rfl, rfl⟩, by decide, rfl, ⟨rfl, rfl, rfl, rfl, rfl, rfl⟩, by decide, no_bound, by decide⟩

theorem test_witness_TcpDecryptFailedInsertionIsFatal :
    let s := bench .server { calm 9 with add := [.failedInserted] } (running .decrypt [])
    s.cfg.role = .server ∧ Standing s 1 (fresh .decrypt (zeros 32)) .decrypt false ∧
    (∀ b, s.cfg.maxIn = some b → (upTo 32).length ≤ b) ∧
    keyLen benchDesc.method ≤ (fresh .decrypt (zeros 32)).rbuf.length + (upTo 32).length ∧
    s.checkAnswer ((upTo 32).take 32) = .absent ∧ s.afterCheck.addAnswer = .internalError :=
  ⟨rfl, ⟨rfl, rfl, rfl, rfl, rfl, rfl⟩, no_bound, by decide, by decide, by decide⟩

theorem test_witness_TcpDecryptShortBufferNeedsMore : Standing streamBench 2 (running .decrypt []) .decrypt true ∧
    (∀ b, streamBench.cfg.maxIn = some b → (upTo 34).length ≤ b) ∧
    (running .decrypt []).rbuf.length + (upTo 34).length ≤ 34 := ⟨standing_stream, no_bound, by decide⟩

/-- The length header of a chunk of `n` bytes, under the bench's subkey and the zero nonce. -/
def header (n : Nat) : Bytes := aeadEnc .aes256gcm testSubkey (zeros 12) (be16 n)

@[simp] theorem header_length (n : Nat) : (header n).length = 18 := by simp [header, tagLen]

/-- The header decrypts to the length, whatever follows it. -/
theorem header_opens (n : Nat) (rest : Bytes) :
    aeadDec .aes256gcm ((running .decrypt []).subkey.take 32) ((running .decrypt []).nonce.take 12)
      (([] ++ (header n ++ rest)).take 18) = some (be16 n) := by
  rw [List.nil_append, List.take_left' (header_length n)]
  exact aeadDec_aeadEnc _ (by decide) (by decide)

/-- 35 bytes of a chunk with the largest payload. -/
theorem test_witness_TcpDecryptPartialChunkKeepsTheNonce :
    Standing streamBench 2 (running .decrypt []) .decrypt true ∧
    (∀ b, streamBench.cfg.maxIn = some b → (header 0x3FFF ++ upTo 17).length ≤ b) ∧
    34 < ([] : Bytes).length + (header 0x3FFF ++ upTo 17).length ∧
    le ((running .decrypt []).nonce.take 12) < 256 ^ 12 - 2 ∧ streamBench.env.primFires = false ∧
    aeadDec .aes256gcm ((running .decrypt []).subkey.take 32) ((running .decrypt []).nonce.take 12)
      (([] ++ (header 0x3FFF ++ upTo 17)).take 18) = some (be16 0x3FFF) ∧
    1 ≤ unbe16 (be16 0x3FFF) ∧ unbe16 (be16 0x3FFF) ≤ 0x3FFF ∧
    ([] : Bytes).length + (header 0x3FFF ++ upTo 17).length < 34 + unbe16 (be16 0x3FFF) :=
  ⟨standing_stream, no_bound, by simp [upTo], by decide, rfl, header_opens _ _, by decide, by decide,
    by simp [upTo, unbe16_be16]⟩

/-- A chunk of one byte, exactly. -/
def oneChunk : Bytes := header 1 ++ aeadEnc .aes256gcm testSubkey (nonceInc (zeros 12)) [0x41]

theorem oneChunk_length : oneChunk.length = 35 := by simp [oneChunk, tagLen]

theorem test_witness_TcpDecryptWholeChunkIsConsumed : Standing streamBench 2 (running .decrypt []) .decrypt true ∧
    (∀ b, streamBench.cfg.maxIn = some b → oneChunk.length ≤ b) ∧ zeros 12 = (running .decrypt []).nonce.take 12 ∧
    le (zeros 12) < 256 ^ 12 - 2 ∧ streamBench.env.quiet 2 ∧
    aeadDec .aes256gcm ((running .decrypt []).subkey.take 32) (zeros 12) (([] ++ oneChunk).take 18) = some (be16 1) ∧
    1 ≤ unbe16 (be16 1) ∧ unbe16 (be16 1) ≤ 0x3FFF ∧ 34 + unbe16 (be16 1) ≤ ([] : Bytes).length + oneChunk.length ∧
    ([] : Bytes).length + oneChunk.length ≤ 68 + unbe16 (be16 1) ∧
    aeadDec .aes256gcm ((running .decrypt []).subkey.take 32) (nonceInc (zeros 12))
      ((([] ++ oneChunk).drop 18).take (unbe16 (be16 1) + 16)) = some [0x41] := by
  refine ⟨standing_stream, no_bound, rfl, by decide, calm9_quiet (by decide) _ rfl, header_opens _ _, by decide, by decide,
    by rw [oneChunk_length]; decide, by rw [oneChunk_length]; decide, ?_⟩
  have hl : (aeadEnc .aes256gcm testSubkey (nonceInc (zeros 12)) [0x41]).length ≤ 1 + 16 := by simp [tagLen]
  rw [List.nil_append, oneChunk, List.drop_left' (header_length 1), unbe16_be16 (by decide), List.take_of_length_le hl]
  exact aeadDec_aeadEnc (m := .aes256gcm) (k := testSubkey) (n := nonceInc (zeros 12)) _ (by decide) (by decide)

theorem test_witness_TcpDecryptReturnsAnEncryptedChunk : streamBench.Inv ∧
    Standing streamBench 2 (running .decrypt []) .decrypt true ∧
    (∀ b, streamBench.cfg.maxIn = some b → oneChunk.length ≤ b) ∧ testSubkey = (running .decrypt []).subkey.take 32 ∧
    zeros 12 = (running .decrypt []).nonce.take 12 ∧ le (zeros 12) < 256 ^ 12 - 2 ∧ streamBench.env.quiet 2 ∧
    (running .decrypt []).rbuf ++ oneChunk =
      aeadEnc .aes256gcm testSubkey (zeros 12) (be16 ([0x41] : Bytes).length) ++
        aeadEnc .aes256gcm testSubkey (nonceInc (zeros 12)) [0x41] :=
  ⟨streamBench_inv, standing_stream, no_bound, by decide, rfl, by decide, calm9_quiet (by decide) _ rfl, rfl⟩

/-- Both illegal lengths at their boundaries: 0 and 0x4000. -/
theorem test_witness_TcpDecryptIllegalLengthIsFatal : ∀ n ∈ [0, 0x4000],
    Standing streamBench 2 (running .decrypt []) .decrypt true ∧
    (∀ b, streamBench.cfg.maxIn = some b → (header n ++ upTo 17).length ≤ b) ∧
    34 < ([] : Bytes).length + (header n ++ upTo 17).length ∧
    le ((running .decrypt []).nonce.take 12) < 256 ^ 12 - 2 ∧ streamBench.env.primFires = false ∧
    aeadDec .aes256gcm ((running .decrypt []).subkey.take 32) ((running .decrypt []).nonce.take 12)
      (([] ++ (header n ++ upTo 17)).take 18) = some (be16 n) ∧
    (unbe16 (be16 n) = 0 ∨ 0x3FFF < unbe16 (be16 n)) := by
  intro n hn
  refine ⟨standing_stream, no_bound, by simp [upTo], by decide, rfl, header_opens _ _, ?_⟩
  simp only [List.mem_cons, List.not_mem_nil, or_false] at hn
  rcases hn with rfl | rfl <;> decide

/-- S4 behind a good chunk: the second header decrypts to 0 or to 0x4000. -/
theorem test_witness_TcpDecryptIllegalLengthIsFatal_later : ∀ n ∈ [0, 0x4000],
    DecryptAtChunk (bench .client (calm 9) (runningAt .decrypt 0)) 2
      (chunksFrom .aes256gcm testSubkey 0 [[0x41]] ++ secondHeader n (upTo 17))
      { runningAt .decrypt 0 with
        rbuf := [] ++ (chunksFrom .aes256gcm testSubkey 0 [[0x41]] ++ secondHeader n (upTo 17)) } benchDesc
      (bench .client (calm 9) (runningAt .decrypt 0)) [[0x41]] (secondHeader n (upTo 17)) 2 ∧
    (2 < 256 ^ nonceLen benchDesc.method - 2) ∧ (Env.afterPrim^[2] (calm 9)).primFires = false ∧
    aeadDec .aes256gcm ((runningAt .decrypt 0).subkey.take 32) (unle 12 2) ((secondHeader n (upTo 17)).take 18) =
      some (be16 n) ∧ (unbe16 (be16 n) = 0 ∨ 0x3FFF < unbe16 (be16 n)) := by
  intro n hn
  refine ⟨decrypt_second _ (calm9_quiet (by decide) _ rfl) rfl (by decide) (by simp [secondHeader, tagLen, upTo]), by decide, rfl,
    secondHeader_opens _ _, ?_⟩
  simp only [List.mem_cons, List.not_mem_nil, or_false] at hn
  rcases hn with rfl | rfl <;> decide

/-- V6l: 35 bytes behind a good chunk, whose tags are to be tested. -/
theorem test_witness_TcpDecryptTagFailureIsFatal_later :
    DecryptAtChunk (bench .client (calm 9) (runningAt .decrypt 0)) 2 (chunksFrom .aes256gcm testSubkey 0 [[0x41]] ++ upTo 35)
      { runningAt .decrypt 0 with rbuf := [] ++ (chunksFrom .aes256gcm testSubkey 0 [[0x41]] ++ upTo 35) } benchDesc
      (bench .client (calm 9) (runningAt .decrypt 0)) [[0x41]] (upTo 35) 2 ∧
    (2 < 256 ^ nonceLen benchDesc.method - 2) ∧ (Env.afterPrim^[2] (calm 9)).primFires = false ∧
    (Env.afterPrim^[2] (calm 9)).afterPrim.primFires = false :=
  ⟨decrypt_second _ (calm9_quiet (by decide) _ rfl) rfl (by decide) (by decide), by decide, rfl, rfl⟩

theorem test_witness_TcpDecryptTagFailureIsFatal : Standing streamBench 2 (running .decrypt []) .decrypt true ∧
    (∀ b, streamBench.cfg.maxIn = some b → (upTo 35).length ≤ b) ∧ 34 < (running .decrypt []).rbuf.length + (upTo 35).length ∧
    le ((running .decrypt []).nonce.take 12) < 256 ^ 12 - 2 ∧ streamBench.env.primFires = false :=
  ⟨standing_stream, no_bound, by decide, by decide, rfl⟩

theorem test_witness_UdpEncryptBuildsTheDatagram : plainBench.desc[0]? = some benchDesc ∧ benchDesc.valid = true ∧
    ∀ b, plainBench.cfg.maxDgram = some b → ([] : Bytes).length ≤ b := ⟨rfl, rfl, no_bound⟩

theorem test_witness_UdpDecryptTooShort : plainBench.desc[0]? = some benchDesc ∧ benchDesc.valid = true ∧
    (∀ b, plainBench.cfg.maxDgram = some b → (upTo 48).length ≤ b) ∧ (upTo 48).length ≤ keyLen benchDesc.method + 16 :=
  ⟨rfl, rfl, no_bound, by decide⟩

theorem test_witness_UdpDecryptOnAClient : plainBench.cfg.role = .client ∧ plainBench.desc[0]? = some benchDesc ∧
    benchDesc.valid = true ∧ (∀ b, plainBench.cfg.maxDgram = some b → (upTo 49).length ≤ b) ∧
    keyLen benchDesc.method + 16 < (upTo 49).length := ⟨rfl, rfl, rfl, no_bound, by decide⟩

/-- Each clause's premise: the salt known, the check failing, the salt unknown with and without a failing primitive, the insertion
answering each way. -/
theorem test_witness_UdpDecryptOnAServer : serverBench.cfg.role = .server ∧ serverBench.desc[0]? = some benchDesc ∧
    benchDesc.valid = true ∧ (∀ b, serverBench.cfg.maxDgram = some b → (upTo 49).length ≤ b) ∧
    keyLen benchDesc.method + 16 < (upTo 49).length ∧
    { serverBench with filter := [upTo 32] }.checkAnswer ((upTo 49).take 32) = .present ∧
    { serverBench with env := { calm 9 with check := [.internalError] } }.checkAnswer ((upTo 49).take 32) = .internalError ∧
    serverBench.checkAnswer ((upTo 49).take 32) = .absent ∧ serverBench.afterCheck.env.primFires = false ∧
    { serverBench with env := { calm 9 with prim := [true] } }.checkAnswer ((upTo 49).take 32) = .absent ∧
    { serverBench with env := { calm 9 with prim := [true] } }.afterCheck.env.primFires = true ∧
    { serverBench.afterCheck with env := serverBench.afterCheck.env.afterPrim }.addAnswer = .ok ∧
    let s := { serverBench with env := { calm 9 with add := [.failedClean] } }
    s.checkAnswer ((upTo 49).take 32) = .absent ∧ s.afterCheck.env.primFires = false ∧
    { s.afterCheck with env := s.afterCheck.env.afterPrim }.addAnswer = .internalError :=
  ⟨rfl, rfl, rfl, no_bound, by decide, by decide, by decide, by decide, rfl, by decide, rfl, rfl, by decide, rfl, rfl⟩

/-- On a client, and on a server whose filter takes the drawn salt. -/
theorem test_witness_UdpRoundTrip :
    let e := (calm 9).afterPrim.afterRng 32
    plainBench.Inv ∧ serverBench.Inv ∧ plainBench.desc[0]? = some benchDesc ∧ serverBench.desc[0]? = some benchDesc ∧
    benchDesc.valid = true ∧ (∀ b, plainBench.cfg.maxDgram = some b → keyLen benchDesc.method + ([1] : Bytes).length + 16 ≤ b) ∧
    ([1] : Bytes) ≠ [] ∧ (calm 9).primFires = false ∧ e.primFires = false ∧
    (plainBench.cfg.role = .client ∧ { plainBench with env := e.afterPrim }.env.primFires = false) ∧
    (let w := { serverBench with env := e.afterPrim }
     serverBench.cfg.role = .server ∧ w.checkAnswer ((calm 9).afterPrim.rngBytes 32) = .absent ∧
      w.afterCheck.env.primFires = false ∧ { w.afterCheck with env := w.afterCheck.env.afterPrim }.addAnswer = .ok) :=
  ⟨plainBench_inv, serverBench_inv, rfl, rfl, rfl, no_bound, by decide, rfl, rfl, ⟨rfl, rfl⟩, rfl, by decide, rfl, rfl⟩

/-- V8b, V8c on the server: the first delivery is accepted, and the filter then keeps the salt and takes no liberty. -/
theorem test_witness_UdpReplayIsRejected : serverBench.cfg.role = .server ∧ serverBench.desc[0]? = some benchDesc ∧
    ∃ t, Answers (.udpDecrypt 0 (upTo 32 ++ aeadEnc .aes256gcm testKey (zeros 12) [1])) serverBench t .ok [1] ∧
      t.env.forgets ((upTo 32 ++ aeadEnc .aes256gcm testKey (zeros 12) [1]).take 32) = false ∧
      t.evict.env.checkDraw = .faithful := by
  have hl : (upTo 32).length = 32 := by simp [upTo]
  have h1 : ¬ (upTo 32 ++ aeadEnc .aes256gcm testKey (zeros 12) [1]).length ≤ keyLen benchDesc.method + tagLen := by
    simp [hl, keyLen, tagLen, benchDesc]
  have h2 : (upTo 32 ++ aeadEnc .aes256gcm testKey (zeros 12) [1]).drop (keyLen benchDesc.method) =
      aeadEnc .aes256gcm testKey (zeros 12) [1] := List.drop_left' hl
  have h3 : (upTo 32 ++ aeadEnc .aes256gcm testKey (zeros 12) [1]).take (keyLen benchDesc.method) = upTo 32 :=
    List.take_left' hl
  have hd : aeadDec benchDesc.method benchDesc.key (udpNonce benchDesc.method)
      (aeadEnc .aes256gcm testKey (zeros 12) [1]) = some [1] := by
    rw [show benchDesc.key = testKey by decide +kernel]
    exact aeadDec_aeadEnc _ (by decide) (by decide)
  have hrun : udpDecryptAccepted benchDesc (upTo 32 ++ aeadEnc .aes256gcm testKey (zeros 12) [1]) serverBench =
      ((serverBench.afterCheck.setEnv serverBench.afterCheck.env.afterPrim).afterAdd (upTo 32)).respond .ok [1] := by
    simp only [udpDecryptAccepted]
    rw [if_neg h1, h2, h3]
    simp only [show serverBench.cfg.role = .server from rfl, show serverBench.checkAnswer (upTo 32) = .absent by decide]
    simp only [udpOpen, show serverBench.afterCheck.env.primFires = false from rfl, hd, Bool.false_eq_true, if_false]
    rfl
  exact ⟨rfl, rfl, _, ⟨congrArg Host.Outcome.next hrun, rfl⟩, rfl, rfl⟩

theorem test_witness_UdpSaltIsNotAuthenticated : plainBench.cfg.role = .client ∧ plainBench.desc[0]? = some benchDesc ∧
    (upTo 32).length = keyLen benchDesc.method ∧ (zeros 32).length = keyLen benchDesc.method ∧ upTo 32 ≠ zeros 32 :=
  ⟨rfl, rfl, by decide, by decide, by decide⟩

theorem test_witness_UdpTouchesNoSlot : (∃ t, exec (.udpEncrypt 0 []) plainBench = .next t) ∧
    (∃ t, exec (.udpDecrypt 0 (upTo 49)) serverBench = .next t) ∧ plainBench.cfg.role = .client := ⟨⟨_, rfl⟩, ⟨_, rfl⟩, rfl⟩

/-- A command of each kind answers a next state, on the client and on the server: the hypothesis of the statements about every
command. -/
theorem test_witness_every_command (role : Role) : ∀ i ∈ [Instr.cipherInit 1 .aes128gcm [], .cipherFree 0, .ctxNew 0 3 .encrypt,
    .ctxFree 2, .tcpEncrypt 0 [0x41], .tcpDecrypt 1 (upTo 33), .udpEncrypt 0 [], .udpDecrypt 0 (upTo 49)],
    ∃ t, exec i (bench role (calm 9) (running .encrypt [])) = .next t := by
  intro i hi
  simp only [List.mem_cons, List.not_mem_nil, or_false] at hi
  rcases hi with rfl | rfl | rfl | rfl | rfl | rfl | rfl | rfl <;> exact ⟨_, rfl⟩

theorem test_witness_ClientNeverTouchesTheFilter : plainBench.cfg.role = .client ∧
    ∃ t, exec (.tcpDecrypt 1 (upTo 33)) plainBench = .next t := ⟨rfl, _, rfl⟩

/-- Both decode commands present a salt that the filter gains. -/
theorem test_witness_FilterGainsOnlyThePresentedSalt : ∃ t, exec (.tcpDecrypt 1 (upTo 32)) serverBench = .next t ∧
    upTo 32 ∈ t.filter ∧ upTo 32 ∉ serverBench.filter := ⟨_, rfl, by decide +kernel, by decide⟩

theorem test_witness_DescriptorsAreImmutable : ∃ t, exec (.cipherFree 0) { plainBench with ctx := [] } = .next t ∧
    t.desc[0]? ≠ plainBench.desc[0]? := ⟨_, rfl, by decide⟩

theorem test_witness_CommandsTouchOnlyTheirContext : ∃ t, exec (.ctxFree 2) plainBench = .next t ∧
    t.ctx[2]? ≠ plainBench.ctx[2]? := ⟨_, rfl, by decide⟩

theorem test_witness_ConfigurationIsConstant : ∃ t, step { plainBench with inbox := [.reset] } = .next t := ⟨_, rfl⟩

theorem test_witness_InitAndKeysAreWrittenOnce : streamBench.ctx[2]? = some (running .decrypt []) ∧
    (running .decrypt []).valid = true ∧ (running .decrypt []).init = true ∧
    (∃ t, exec (.tcpDecrypt 2 (upTo 34)) streamBench = .next t) ∧ Instr.tcpDecrypt 2 (upTo 34) ≠ .ctxFree 2 :=
  ⟨rfl, rfl, rfl, ⟨_, rfl⟩, by simp⟩

theorem test_witness_DeadContextsAcceptOnlyFree :
    let x := { running .decrypt [] with dead := true }
    (bench .server (calm 9) x).ctx[2]? = some x ∧ x.valid = true ∧ x.dead = true ∧
    (∃ t, exec (.tcpDecrypt 2 []) (bench .server (calm 9) x) = .next t) ∧ Instr.tcpDecrypt 2 [] ≠ .ctxFree 2 :=
  ⟨rfl, rfl, rfl, ⟨_, rfl⟩, by simp⟩

theorem test_witness_OnlyOkCarriesOutput : ∃ t, exec (.ctxNew 0 3 .decrypt) plainBench = .next t ∧
    t.response = some { status := .ok, out := [] } := ⟨_, rfl, rfl⟩

/-- A fatal status and one that is not. -/
theorem test_witness_FatalStatusKillsTheContext :
    serverBench.ctx[1]? = some (fresh .decrypt (zeros 32)) ∧ (fresh .decrypt (zeros 32)).dead = false ∧
    (∃ t, Answers (.tcpDecrypt 1 (upTo 32)) { serverBench with filter := [upTo 32] } t .replayDetected []) ∧
    (∃ t, Answers (.tcpDecrypt 1 []) serverBench t .needMore []) := ⟨rfl, rfl, ⟨_, rfl, rfl⟩, ⟨_, rfl, rfl⟩⟩

theorem test_witness_RefusedExactlyWhenListed : exec (.ctxFree 3) plainBench = .next plainBench.refuse ∧
    plainBench.refuse.response = some { status := .refused, out := [] } := ⟨rfl, rfl⟩

theorem test_witness_RefusedMeansUnchanged : ∃ t, exec (.udpDecrypt 1 []) plainBench = .next t ∧
    t.response = some { status := .refused, out := [] } := ⟨_, rfl, rfl⟩

/-- Two states that differ in another context. -/
theorem test_witness_TcpCommandsSeeOnlyTheirContext :
    let u := bench .client (calm 9) (running .decrypt [1])
    u ≠ plainBench ∧ u.cfg = plainBench.cfg ∧ u.desc = plainBench.desc ∧ u.filter = plainBench.filter ∧
    u.env = plainBench.env ∧ u.ctx[0]? = plainBench.ctx[0]? ∧ ∃ t, exec (.tcpEncrypt 0 [1]) plainBench = .next t :=
  ⟨by decide, rfl, rfl, rfl, rfl, rfl, _, rfl⟩

theorem test_witness_DerivedKeyLengths : ∀ m, ∃ master : Bytes, master.length = keyLen m := fun m => ⟨zeros (keyLen m), by simp⟩

theorem test_witness_SubkeyUsesTheFirst16SaltBytes : 16 ≤ (upTo 16).length ∧ 16 ≤ (upTo 32).length := by decide

theorem test_witness_SplitIsGreedy : 1 ≤ ([0] : Bytes).length ∧ 1 ≤ (zeros 0x4000).length := by simp

theorem test_witness_TcpRoundTrip : plainBench.Inv ∧ plainBench.cfg.role = .client ∧ plainBench.cfg.maxIn = none ∧ 0 ≠ 1 ∧
    plainBench.ctx[0]? = some (fresh .encrypt (upTo 32)) ∧ FreshContext .encrypt (fresh .encrypt (upTo 32)) ∧
    plainBench.ctx[1]? = some (fresh .decrypt (zeros 32)) ∧ FreshContext .decrypt (fresh .decrypt (zeros 32)) ∧
    plainBench.desc[(fresh .encrypt (upTo 32)).desc]? = some benchDesc ∧
    plainBench.desc[(fresh .decrypt (zeros 32)).desc]? = some benchDesc ∧
    chunkCount [[], [0x41]] = 1 ∧ 1 ≤ 2 ^ (8 * nonceLen benchDesc.method - 1) - 1 ∧ plainBench.env.quiet (2 + 4 * 1 + 3) :=
  ⟨plainBench_inv, rfl, rfl, by decide, rfl, ⟨rfl, rfl, rfl, rfl, rfl⟩, rfl, ⟨rfl, rfl, rfl, rfl, rfl⟩, rfl, rfl, rfl, by decide,
    calm9_quiet (by decide) _ rfl⟩

end Sys2Proof.Tests
end

/-! PROOFS. The family of 10_state.md: the invariant taken apart into what each operation on the state keeps of it, what a
command changes of the slots, and the statements about reset, the step and the invariant. -/

namespace Sys2Proof.Machine

/-! ### The parts of a live context -/

theorem keyLen_cases (m : Method) : keyLen m = 16 ∨ keyLen m = 24 ∨ keyLen m = 32 := by cases m <;> decide

/-- A stored key field of method `m`: 32 bytes, zero behind the first `key_len` (10_state.md R22, R27). -/
structure KeyField (m : Method) (k : Bytes) : Prop where
  length : k.length = 32
  rest : k.drop (keyLen m) = zeros (32 - keyLen m)

theorem keyField_zeros (m : Method) : KeyField m (zeros 32) := ⟨rfl, List.drop_replicate⟩

theorem keyField_fit {m : Method} {k : Bytes} (h : k.length = keyLen m) : KeyField m (fit 32 k) :=
  ⟨fit_length _ _, h ▸ fit_drop (h ▸ keyLen_le m)⟩

/-- A nonce between chunks: twice a number of chunks and not past the exhaustion point (10_state.md R31,
42_aead_nonce.md R171). -/
def EvenNonce (m : Method) (n : Bytes) : Prop :=
  ∃ v, n = nonceField m v ∧ v % 2 = 0 ∧ v ≤ 256 ^ nonceLen m - 2

theorem evenNonce_zeros (m : Method) : EvenNonce m (zeros 24) := ⟨0, (nonceField_zero m).symm, rfl, Nat.zero_le _⟩

/-- A chunk is made only below the exhaustion point, which is even, so two more do not pass it. -/
theorem EvenNonce.afterChunk {m : Method} {n : Bytes} (h : EvenNonce m n) (hs : nonceSpent m n = false) :
    EvenNonce m (nonceAfterChunk m n) := by
  obtain ⟨v, rfl, heven, hle⟩ := h
  have hne : v ≠ 256 ^ nonceLen m - 2 := by simpa [nonceSpent_nonceField hle] using hs
  have hpoint : 256 ^ nonceLen m % 2 = 0 :=
    Nat.mod_eq_zero_of_dvd (dvd_pow (by decide) (by have := nonceLen_pos m; omega))
  exact ⟨v + 2, nonceAfterChunk_nonceField (by omega), by omega, by omega⟩

/-- The clauses of `LiveContextInv` that hold of a dead context too. -/
structure FieldsInv (m : Method) (x : Context) : Prop where
  salt : KeyField m x.salt
  subkey : KeyField m x.subkey
  nonce : EvenNonce m x.nonce
  start_nonce : x.init = false → x.nonce = zeros 24
  encrypt_rbuf : x.dir = .encrypt → x.rbuf = []

/-- The clauses of `LiveContextInv` for a context that is not dead, phase by phase (10_state.md R29, R30, R33). -/
structure PhaseInv (m : Method) (x : Context) : Prop where
  start : x.init = false → x.subkey = zeros 32 ∧ (x.dir = .decrypt → x.salt = zeros 32) ∧ x.rbuf.length < keyLen m
  running : x.init = true → x.rbuf.length ≤ 16416

theorem LiveContextInv.fieldsInv {m : Method} {x : Context} (h : LiveContextInv m x) : FieldsInv m x where
  salt := ⟨h.salt_length, h.salt_rest⟩
  subkey := ⟨h.subkey_length, h.subkey_rest⟩
  nonce := ⟨_, h.nonce_eq, h.nonce_even, h.nonce_bound⟩
  start_nonce := h.start_nonce
  encrypt_rbuf := h.encrypt_rbuf

theorem LiveContextInv.phaseInv {m : Method} {x : Context} (h : LiveContextInv m x) (hx : x.dead = false) :
    PhaseInv m x where
  start hi := ⟨h.start_subkey hi hx, fun hd => h.await_salt hd hi hx, h.await_rbuf hi hx⟩
  running hi := h.stream_rbuf hi hx

theorem FieldsInv.liveContextInv {m : Method} {x : Context} (h : FieldsInv m x) (hp : x.dead = false → PhaseInv m x) :
    LiveContextInv m x := by
  obtain ⟨v, hn, heven, hle⟩ := h.nonce
  have hpos : 0 < 256 ^ nonceLen m := by positivity
  have hL := nonceLen_le m
  have hv : le (liveNonce m x.nonce) = v := by
    rw [hn, liveNonce_nonceField, le_unle, Nat.mod_eq_of_lt (by omega)]
  exact {
    salt_length := h.salt.length
    salt_rest := h.salt.rest
    subkey_length := h.subkey.length
    subkey_rest := h.subkey.rest
    nonce_length := by rw [hn, nonceField, List.length_append, unle_length, zeros_length]; omega
    nonce_rest := by rw [hn]; exact List.drop_left' (unle_length _ _)
    nonce_even := by rw [hv]; exact heven
    nonce_bound := by rw [hv]; exact hle
    start_nonce := h.start_nonce
    start_subkey := fun hi hx => ((hp hx).start hi).1
    await_salt := fun hd hi hx => ((hp hx).start hi).2.1 hd
    encrypt_rbuf := h.encrypt_rbuf
    await_rbuf := fun hi hx => ((hp hx).start hi).2.2
    stream_rbuf := fun hi hx => (hp hx).running hi }

/-! ### A context bound to its descriptor, whatever its phase -/

/-- A valid context that refers to the valid descriptor `D`, its fields as `D`'s method wants them. -/
structure BoundTo (descs : List Descriptor) (D : Descriptor) (x : Context) : Prop where
  valid : x.valid = true
  slot : descs[x.desc]? = some D
  desc_valid : D.valid = true
  fields : FieldsInv D.method x

section
variable {descs : List Descriptor} {D : Descriptor} {x : Context}

theorem BoundTo.contextInv (h : BoundTo descs D x) (hp : x.dead = false → PhaseInv D.method x) : ContextInv descs x where
  empty_zero hv := by simp [h.valid] at hv
  live _ := ⟨D, h.slot, h.desc_valid, h.fields.liveContextInv hp⟩

/-- Fatal entry asks nothing of the phase (60_exceptions.md R290). -/
theorem BoundTo.contextInv_dead (h : BoundTo descs D x) : ContextInv descs { x with dead := true } :=
  BoundTo.contextInv (D := D) ⟨h.valid, h.slot, h.desc_valid, { h.fields with }⟩ (by simp)

theorem BoundTo.rbufAppend (h : BoundTo descs D x) (hd : x.dir = .decrypt) (b : Bytes) :
    BoundTo descs D (x.rbufAppend b) :=
  ⟨h.valid, h.slot, h.desc_valid, { h.fields with encrypt_rbuf := by simp [hd] }⟩

theorem BoundTo.rbufDrop (h : BoundTo descs D x) (n : Nat) : BoundTo descs D (x.rbufDrop n) :=
  ⟨h.valid, h.slot, h.desc_valid, { h.fields with encrypt_rbuf := fun hd => by simp [h.fields.encrypt_rbuf hd] }⟩

theorem BoundTo.withSalt (h : BoundTo descs D x) {salt : Bytes} (hl : salt.length = keyLen D.method) :
    BoundTo descs D { x with salt := fit 32 salt } :=
  ⟨h.valid, h.slot, h.desc_valid, { h.fields with salt := keyField_fit hl }⟩

theorem DescriptorInv.key_length_eq (h : DescriptorInv D) : D.key.length = keyLen D.method := by
  have := keyLen_le D.method
  rw [Descriptor.key, List.length_take, h.key_length]
  omega

/-- The derived subkey has `key_len` bytes (40_keying.md R136b). -/
theorem BoundTo.keyed (h : BoundTo descs D x) (hD : DescriptorInv D) (cfg : Params) : BoundTo descs D (x.keyed cfg D) := by
  have hl : (deriveSubkey cfg.personal D.key (x.liveSalt D.method)).length = keyLen D.method := by
    have := keyLen_le D.method
    rw [deriveSubkey, hD.key_length_eq, blake2b_length _ _ _ _ (by omega)]
  exact ⟨h.valid, h.slot, h.desc_valid, { h.fields with subkey := keyField_fit hl }⟩

theorem BoundTo.started (h : BoundTo descs D x) : BoundTo descs D (x.started D.method) :=
  ⟨h.valid, h.slot, h.desc_valid,
    { h.fields with
      nonce := by rw [Context.started_nonce, storedZeroNonce_eq]; exact evenNonce_zeros _
      start_nonce := by simp }⟩

/-- A committed chunk: the nonce advances by two. The chunk is made in a running context only. -/
theorem BoundTo.afterChunk (h : BoundTo descs D x) (hi : x.init = true) (hs : nonceSpent D.method x.nonce = false) :
    BoundTo descs D { x with nonce := nonceAfterChunk D.method x.nonce } :=
  ⟨h.valid, h.slot, h.desc_valid, { h.fields with nonce := h.fields.nonce.afterChunk hs, start_nonce := by simp [hi] }⟩

end

/-- In a state of the invariant a TCP command is accepted on a context bound to its descriptor, in one of the two phases. -/
theorem TcpAccepts.boundTo {s : State} {c n : Nat} {dir : Direction} {x : Context} {D : Descriptor}
    (h : TcpAccepts s c dir n x D) (hs : s.Inv) : BoundTo s.desc D x ∧ PhaseInv D.method x ∧ DescriptorInv D := by
  obtain ⟨hx, hD⟩ := h.inv hs
  obtain ⟨E, hE, hEv, -⟩ := (hs.ctx_inv x (List.mem_of_getElem? h.slot)).live h.valid
  obtain rfl := Option.some.inj (hE.symm.trans h.desc)
  exact ⟨⟨h.valid, h.desc, hEv, hx.fieldsInv⟩, hx.phaseInv h.live, hD⟩

/-! ### What each operation on the state keeps of the invariant -/

section
variable {s : State} (hs : s.Inv)
include hs

theorem State.Inv.withInbox (later : List HostEvent) : (s.withInbox later).Inv := { hs with }

theorem State.Inv.setEnv (e : Env) : (s.setEnv e).Inv := { hs with }

theorem State.Inv.respond {st : Status} {out : Bytes} (h : st ≠ .ok → out = []) : (s.respond st out).Inv :=
  { hs with response_out := by rintro _ ⟨⟩; exact h }

theorem State.Inv.refuse : s.refuse.Inv := hs.respond fun _ => rfl

/-- A descriptor slot may be written while no valid context refers to it (46_lifecycle.md R259, R263d). -/
theorem State.Inv.setDesc {d : Nat} {D : Descriptor} (hD : DescriptorInv D)
    (href : ∀ x ∈ s.ctx, x.valid = true → x.desc ≠ d) : (s.setDesc d D).Inv :=
  { hs with
    desc_count := by simpa using hs.desc_count
    desc_inv := fun E hE => (List.mem_or_eq_of_mem_set hE).elim (hs.desc_inv E) fun h => h ▸ hD
    ctx_inv := fun x hx =>
      { empty_zero := (hs.ctx_inv x hx).empty_zero
        live := fun hv => by
          obtain ⟨E, hE, hlive⟩ := (hs.ctx_inv x hx).live hv
          exact ⟨E, (List.getElem?_set_ne (href x hx hv).symm).trans hE, hlive⟩ } }

theorem State.Inv.setCtx (c : Nat) {x : Context} (hx : ContextInv s.desc x) : (s.setCtx c x).Inv :=
  { hs with
    ctx_count := by simpa using hs.ctx_count
    ctx_inv := fun y hy => (List.mem_or_eq_of_mem_set hy).elim (hs.ctx_inv y) fun h => h ▸ hx }

theorem State.Inv.raise (c : Nat) {x : Context} {D : Descriptor} (hx : BoundTo s.desc D x) (st : Status) :
    (s.raise c x st).Inv :=
  (hs.setCtx c hx.contextInv_dead).respond fun _ => rfl

theorem State.Inv.evict : s.evict.Inv :=
  { hs with
    filter_wf := evict_filter_wf hs.filter_wf
    filter_salts := fun t ht => hs.filter_salts t (mem_of_mem_evict ht) }

theorem State.Inv.afterCheck : s.afterCheck.Inv := hs.evict.setEnv _

theorem State.Inv.afterAdd {salt : Bytes} {m : Method} (hl : salt.length = keyLen m) : (s.afterAdd salt).Inv := by
  have hwf := afterAdd_filter_wf salt hs.filter_wf
  obtain ⟨F, ht, hF, -⟩ := afterAdd_cases s salt
  rw [ht] at hwf ⊢
  refine { hs with filter_wf := hwf, filter_salts := fun t htF => ?_ }
  have hmem : t = salt ∨ t ∈ s.evict.filter := by
    rcases hF with rfl | rfl
    · exact .inr htF
    · exact mem_saltInsert.1 htF
  rcases hmem with rfl | hmem
  · exact hl ▸ keyLen_cases m
  · exact hs.evict.filter_salts t hmem

end

/-! ### What each command keeps of the invariant -/

/-! #### Reset -/

/-- The state after reset meets the invariant, for 1 to 256 slots of each kind (10_state.md R44). -/
theorem resetWith_inv {nDesc nCtx : Nat} {cfg : Params} (hd : 1 ≤ nDesc ∧ nDesc ≤ 256) (hc : 1 ≤ nCtx ∧ nCtx ≤ 256)
    (hcfg : ParamsWf cfg) : (State.resetWith nDesc nCtx cfg).Inv where
  cfg_wf := hcfg
  desc_count := by simpa [State.resetWith] using hd
  ctx_count := by simpa [State.resetWith] using hc
  desc_inv D hD := by
    obtain rfl := List.eq_of_mem_replicate hD
    exact ⟨rfl, rfl, fun _ => rfl⟩
  ctx_inv x hx := by
    obtain rfl := List.eq_of_mem_replicate hx
    exact ⟨fun _ => rfl, fun h => by cases h⟩
  filter_wf := saltSet_wf cfg.f0
  filter_salts t ht := hcfg.f0_salts t (mem_saltSet.1 ht)
  response_out := by rintro r ⟨⟩

theorem State.Inv.resetEvent {s : State} (hs : s.Inv) : s.resetEvent.Inv :=
  { resetWith_inv hs.desc_count hs.ctx_count hs.cfg_wf with }

/-! #### The lifecycle commands -/

theorem newDescriptor_inv (m : Method) (password : Bytes) : DescriptorInv (newDescriptor m password) := by
  have hl : (deriveMaster password (keyLen m)).length = keyLen m := by
    have := keyLen_le m
    exact blake2b_length _ _ _ _ (by omega)
  exact ⟨(keyField_fit hl).length, (keyField_fit hl).rest, fun h => by cases h⟩

theorem empty_descriptorInv : DescriptorInv Descriptor.empty := ⟨rfl, rfl, fun _ => rfl⟩

theorem empty_contextInv (descs : List Descriptor) : ContextInv descs Context.empty := ⟨fun _ => rfl, fun h => by cases h⟩

/-- A context just made on a valid descriptor: its salt is drawn for the encrypt direction and zero for the other
(46_lifecycle.md R261). -/
theorem newContext_inv {descs : List Descriptor} {d : Nat} {D : Descriptor} {dir : Direction} {salt : Bytes}
    (hd : descs[d]? = some D) (hv : D.valid = true)
    (hsalt : dir = .decrypt ∧ salt = [] ∨ dir = .encrypt ∧ salt.length = keyLen D.method) :
    ContextInv descs (newContext d dir salt) := by
  have hfit : KeyField D.method (fit 32 salt) ∧ (dir = .decrypt → fit 32 salt = zeros 32) := by
    rcases hsalt with ⟨rfl, rfl⟩ | ⟨rfl, hl⟩
    · exact ⟨keyField_zeros _, fun _ => rfl⟩
    · exact ⟨keyField_fit hl, fun h => by cases h⟩
  have hfields : FieldsInv D.method (newContext d dir salt) :=
    ⟨hfit.1, keyField_zeros _, evenNonce_zeros _, fun _ => rfl, fun _ => rfl⟩
  have hpos : 0 < keyLen D.method := by have := keyLen_pos D.method; omega
  exact BoundTo.contextInv (D := D) ⟨rfl, hd, hv, hfields⟩ fun _ =>
    ⟨fun _ => ⟨rfl, hfit.2, hpos⟩, fun _ => Nat.zero_le _⟩

theorem cipherInit_inv {s t : State} (hs : s.Inv) {d : Nat} {m : Method} {password : Bytes}
    (h : exec (.cipherInit d m password) s = .next t) : t.Inv := by
  rcases cipherInit_cases h with rfl | ⟨⟨D, hD, hv⟩, -, rfl | rfl⟩
  · exact hs.refuse
  · exact (hs.setEnv _).respond fun _ => rfl
  · refine ((hs.setEnv _).setDesc (newDescriptor_inv m password) fun x hx hxv hxd => ?_).respond fun _ => rfl
    obtain ⟨E, hE, hEv, -⟩ := (hs.ctx_inv x hx).live hxv
    obtain rfl := Option.some.inj (hD.symm.trans (hxd ▸ hE))
    simp [hv] at hEv

theorem cipherFree_inv {s t : State} (hs : s.Inv) {d : Nat} (h : exec (.cipherFree d) s = .next t) : t.Inv := by
  rcases cipherFree_cases h with rfl | ⟨-, href, rfl⟩
  · exact hs.refuse
  · exact (hs.setDesc empty_descriptorInv (refs_eq_zero.1 href)).respond fun _ => rfl

theorem ctxNewAccepted_inv {s : State} (hs : s.Inv) {d : Nat} {D : Descriptor} (hd : s.desc[d]? = some D)
    (hv : D.valid = true) (c : Nat) (dir : Direction) : (ctxNewAccepted d c dir D.method s).Inv := by
  cases dir with
  | decrypt => exact (hs.setCtx c (newContext_inv hd hv (.inl ⟨rfl, rfl⟩))).respond fun _ => rfl
  | encrypt =>
    simp only [ctxNewAccepted]
    split
    · exact (hs.setEnv _).respond fun _ => rfl
    · have hl : (s.env.afterPrim.rngBytes (keyLen D.method)).length = keyLen D.method := by simp [Env.rngBytes]
      exact ((hs.setEnv (s.env.afterPrim.afterRng (keyLen D.method))).setCtx c
        (newContext_inv hd hv (.inr ⟨rfl, hl⟩))).respond fun _ => rfl

theorem ctxNew_inv {s t : State} (hs : s.Inv) {d c : Nat} {dir : Direction}
    (h : exec (.ctxNew d c dir) s = .next t) : t.Inv := by
  simp only [exec, execCtxNew] at h
  cases hd : s.validDesc d with
  | none =>
    rw [hd] at h
    cases h
    exact hs.refuse
  | some D =>
    rw [hd] at h
    cases h
    obtain ⟨hD, hv⟩ := validDesc_eq_some.1 hd
    split
    · exact ctxNewAccepted_inv hs hD hv c dir
    · exact hs.refuse

theorem ctxFree_inv {s t : State} (hs : s.Inv) {c : Nat} (h : exec (.ctxFree c) s = .next t) : t.Inv := by
  rcases ctxFree_cases h with rfl | ⟨-, rfl⟩
  · exact hs.refuse
  · exact (hs.setCtx c (empty_contextInv _)).respond fun _ => rfl

/-! #### The TCP commands -/

theorem tcpAccepts_of_fits {s : State} {c n : Nat} {dir : Direction} {x : Context} {D : Descriptor}
    (hc : s.ctx[c]? = some x) (hv : x.valid = true) (hdir : x.dir = dir) (hx : x.dead = false)
    (hD : s.desc[x.desc]? = some D) (hf : fits s.cfg.maxIn n = true) : TcpAccepts s c dir n x D :=
  ⟨hc, hv, hdir, hx, hD, fun b hb => by simpa [fits, hb] using hf⟩

/-- A TCP command that answers a next state was refused, or accepted on the context the slot holds. -/
theorem tcpEncrypt_accepted {s t : State} {c : Nat} {p : Bytes} (h : exec (.tcpEncrypt c p) s = .next t) :
    t = s.refuse ∨ ∃ x D, TcpAccepts s c .encrypt p.length x D ∧ t = tcpEncryptAccepted c p x D s := by
  rcases tcpEncrypt_cases h with rfl | ⟨x, D, -, -, -, hc, hv, hdir, hx, hf, hD, -⟩
  · exact .inl rfl
  · have hacc := tcpAccepts_of_fits hc hv hdir hx hD hf
    rw [hacc.exec_encrypt] at h
    exact .inr ⟨x, D, hacc, (Host.Outcome.next.inj h).symm⟩

theorem tcpDecrypt_accepted {s t : State} {c : Nat} {p : Bytes} (h : exec (.tcpDecrypt c p) s = .next t) :
    t = s.refuse ∨ ∃ x D, TcpAccepts s c .decrypt p.length x D ∧ t = tcpDecryptAccepted c p x D s := by
  rcases tcpDecrypt_cases h with rfl | ⟨x, D, -, -, -, -, hc, hv, hdir, hx, hf, hD, -⟩
  · exact .inl rfl
  · have hacc := tcpAccepts_of_fits hc hv hdir hx hD hf
    rw [hacc.exec_decrypt] at h
    exact .inr ⟨x, D, hacc, (Host.Outcome.next.inj h).symm⟩

/-- The end of a TCP command whose loop left a bound context, within the bounds of its phase if no status was raised. -/
theorem State.Inv.endRun {s : State} (hs : s.Inv) (c : Nat) {D : Descriptor} {r : Run} {st : Status}
    (hx : BoundTo s.desc D r.ctx) (hp : r.raised = none → PhaseInv D.method r.ctx) (hst : st ≠ .ok → r.out = []) :
    (s.endRun c r st).Inv := by
  cases hr : r.raised with
  | none =>
    rw [endRun_ok hr]
    exact ((hs.setEnv r.env).setCtx c (hx.contextInv fun _ => hp hr)).respond hst
  | some fatal =>
    rw [endRun_raised hr]
    exact ((hs.setEnv r.env).setCtx c hx.contextInv_dead).respond fun _ => rfl

/-- A running context and its bound descriptor: what both loops keep. -/
def RunningOn (descs : List Descriptor) (D : Descriptor) (x : Context) : Prop := BoundTo descs D x ∧ x.init = true

theorem RunningOn.encryptLoop {descs : List Descriptor} {D : Descriptor} (qs : List Bytes) {r : Run}
    (h : RunningOn descs D r.ctx) : RunningOn descs D (encryptLoop D.method qs r).ctx :=
  encryptLoop_ctx (fun _ ⟨hb, hi⟩ hs => ⟨hb.afterChunk hi hs, hi⟩) qs r h

theorem RunningOn.decryptLoop {descs : List Descriptor} {D : Descriptor} (n : Nat) {r : Run}
    (h : RunningOn descs D r.ctx) : RunningOn descs D (decryptLoop D.method n r).ctx :=
  decryptLoop_ctx (fun _ mlen ⟨hb, hi⟩ _ _ _ hs => ⟨(hb.rbufDrop (34 + mlen)).afterChunk hi hs, hi⟩) n r h

theorem tcpEncryptAccepted_inv {s : State} (hs : s.Inv) {c n : Nat} {x : Context} {D : Descriptor}
    (h : TcpAccepts s c .encrypt n x D) (p : Bytes) : (tcpEncryptAccepted c p x D s).Inv := by
  obtain ⟨hx, -, hD⟩ := h.boundTo hs
  rcases tcpEncryptAccepted_shape (s := s) (c := c) (x := x) p D with ⟨ht, -⟩ | ⟨r, -, hr, ht, -⟩ | ⟨-, -, ht⟩
  · rw [ht]
    exact hs.respond fun h => absurd rfl h
  · have hrun : RunningOn s.desc D r.ctx ∧ r.ctx.rbuf = [] := by
      rcases hr with ⟨hi, hr⟩ | ⟨-, hr⟩ <;> rw [hr]
      · exact ⟨⟨hx, hi⟩, hx.fields.encrypt_rbuf h.dir_eq⟩
      · exact ⟨⟨(hx.keyed hD s.cfg).started, rfl⟩, hx.fields.encrypt_rbuf h.dir_eq⟩
    obtain ⟨hb, hi⟩ := hrun.1.encryptLoop (splitChunks p)
    obtain ⟨k, hk⟩ := encryptLoop_frame D.method (splitChunks p) r
    rw [ht]
    exact hs.endRun c hb (fun _ => ⟨by simp [hi], by simp [hk, hrun.2]⟩) (fun h => absurd rfl h)
  · rw [ht]
    exact (hs.setEnv s.env.afterPrim).raise c (hx.keyed hD s.cfg) _

theorem decryptStatus_ne_ok {out : Bytes} (h : decryptStatus out ≠ .ok) : out = [] := by
  unfold decryptStatus at h
  cases out with
  | nil => rfl
  | cons b out => exact absurd rfl h

section
variable {s : State} (hs : s.Inv) (c : Nat) {x : Context} {D : Descriptor} (hx : BoundTo s.desc D x)
include hs hx

theorem tcpStream_inv (hi : x.init = true) : (tcpStream c x D.method s).Inv := by
  obtain ⟨hb, hi'⟩ := RunningOn.decryptLoop (r := { ctx := x, env := s.env, out := [], raised := none })
    x.rbuf.length ⟨hx, hi⟩
  exact hs.endRun c hb (fun hr => ⟨by simp [hi'], fun _ => decryptLoop_rbuf le_rfl rfl hr⟩) decryptStatus_ne_ok

theorem tcpStreamStart_inv (hD : DescriptorInv D) : (tcpStreamStart c x D s).Inv := by
  simp only [tcpStreamStart]
  split
  · exact (hs.setEnv s.env.afterPrim).raise c (hx.keyed hD s.cfg) _
  · exact tcpStream_inv (hs.setEnv _) c ((hx.keyed hD s.cfg).rbufDrop _).started rfl

theorem tcpTakeSalt_inv (hD : DescriptorInv D) (hl : keyLen D.method ≤ x.rbuf.length) :
    (tcpTakeSalt c x D s).Inv := by
  have hsalt : (x.rbufPeek 0 (keyLen D.method)).length = keyLen D.method := by simpa using hl
  have hx1 := hx.withSalt hsalt
  simp only [tcpTakeSalt]
  cases s.cfg.role with
  | client => exact tcpStreamStart_inv hs c hx1 hD
  | server =>
    have hadd := hs.afterCheck.afterAdd hsalt
    have hxa : BoundTo (s.afterCheck.afterAdd (x.rbufPeek 0 (keyLen D.method))).desc D
        { x with salt := fit 32 (x.rbufPeek 0 (keyLen D.method)) } := by simpa using hx1
    cases s.checkAnswer (x.rbufPeek 0 (keyLen D.method)) with
    | present => exact hs.afterCheck.raise c hx1 _
    | internalError => exact hs.afterCheck.raise c hx1 _
    | absent =>
      simp only
      cases s.afterCheck.addAnswer with
      | internalError => exact hadd.raise c hxa _
      | ok => exact tcpStreamStart_inv hadd c hxa hD

end

theorem tcpDecryptAccepted_inv {s : State} (hs : s.Inv) {c n : Nat} {x : Context} {D : Descriptor}
    (h : TcpAccepts s c .decrypt n x D) (p : Bytes) : (tcpDecryptAccepted c p x D s).Inv := by
  obtain ⟨hx, hp, hD⟩ := h.boundTo hs
  have hxp := hx.rbufAppend h.dir_eq p
  simp only [tcpDecryptAccepted]
  split
  · next hi => exact tcpStream_inv hs c hxp hi
  · next hi =>
    obtain ⟨hsub, hsalt, -⟩ := hp.start (by simpa using hi)
    split
    · next hl =>
      have hphase : PhaseInv D.method (x.rbufAppend p) := ⟨fun _ => ⟨hsub, hsalt, hl⟩, fun h => absurd h hi⟩
      exact (hs.setCtx c (hxp.contextInv fun _ => hphase)).respond fun _ => rfl
    · next hl => exact tcpTakeSalt_inv hs c hxp hD (Nat.not_lt.1 hl)

/-! #### The UDP commands -/

section
variable {s : State} (hs : s.Inv) {D : Descriptor} {salt : Bytes} (hl : salt.length = keyLen D.method)
include hs hl

theorem udpInsert_inv (plain : Bytes) : (udpInsert salt plain s).Inv := by
  unfold udpInsert
  cases s.cfg.role with
  | client => exact hs.respond fun h => absurd rfl h
  | server =>
    cases s.addAnswer with
    | internalError => exact (hs.afterAdd hl).respond fun _ => rfl
    | ok => exact (hs.afterAdd hl).respond fun h => absurd rfl h

theorem udpOpen_inv (body : Bytes) : (udpOpen D salt body s).Inv := by
  simp only [udpOpen]
  split
  · exact (hs.setEnv _).respond fun _ => rfl
  · split
    · exact (hs.setEnv _).respond fun _ => rfl
    · exact udpInsert_inv (hs.setEnv _) hl _

end

theorem udpDecryptAccepted_inv {s : State} (hs : s.Inv) (D : Descriptor) (datagram : Bytes) :
    (udpDecryptAccepted D datagram s).Inv := by
  simp only [udpDecryptAccepted]
  split
  · exact hs.respond fun _ => rfl
  · next hlen =>
    have hl : (datagram.take (keyLen D.method)).length = keyLen D.method := by
      rw [List.length_take]
      omega
    cases s.cfg.role with
    | client => exact udpOpen_inv hs hl _
    | server =>
      cases s.checkAnswer (datagram.take (keyLen D.method)) with
      | present => exact hs.afterCheck.respond fun _ => rfl
      | internalError => exact hs.afterCheck.respond fun _ => rfl
      | absent => exact udpOpen_inv hs.afterCheck hl _

theorem udpDecrypt_inv {s t : State} (hs : s.Inv) {d : Nat} {datagram : Bytes}
    (h : exec (.udpDecrypt d datagram) s = .next t) : t.Inv := by
  simp only [exec, execUdpDecrypt] at h
  split at h <;> cases h
  · exact udpDecryptAccepted_inv hs _ _
  · exact hs.refuse

theorem udpEncrypt_inv {s t : State} (hs : s.Inv) {d : Nat} {plain : Bytes}
    (h : exec (.udpEncrypt d plain) s = .next t) : t.Inv := by
  rcases udpEncrypt_cases h with rfl | ⟨-, e, st, out, -, -, -, rfl, hst⟩
  · exact hs.refuse
  · refine (hs.setEnv e).respond fun hne => ?_
    rcases hst with ⟨rfl, -⟩ | ⟨-, rfl⟩
    · exact absurd rfl hne
    · rfl

/-! #### The step -/

theorem exec_inv {i : Instr} {s t : State} (hs : s.Inv) (h : exec i s = .next t) : t.Inv := by
  cases i with
  | cipherInit d m password => exact cipherInit_inv hs h
  | cipherFree d => exact cipherFree_inv hs h
  | ctxNew d c dir => exact ctxNew_inv hs h
  | ctxFree c => exact ctxFree_inv hs h
  | tcpEncrypt c plain =>
    rcases tcpEncrypt_accepted h with rfl | ⟨x, D, hacc, rfl⟩
    · exact hs.refuse
    · exact tcpEncryptAccepted_inv hs hacc plain
  | tcpDecrypt c arrived =>
    rcases tcpDecrypt_accepted h with rfl | ⟨x, D, hacc, rfl⟩
    · exact hs.refuse
    · exact tcpDecryptAccepted_inv hs hacc arrived
  | udpEncrypt d plain => exact udpEncrypt_inv hs h
  | udpDecrypt d datagram => exact udpDecrypt_inv hs h

/-- What a step can be: waiting, the reset event, a word with no meaning, or a command; each but the first with the oldest
event taken out of the inbox. -/
theorem step_cases {s t : State} (h : step s = .next t) :
    t = s ∨ ∃ later, t = (s.withInbox later).resetEvent ∨ t = (s.withInbox later).refuse ∨
      ∃ i, exec i (s.withInbox later) = .next t := by
  unfold step at h
  split at h
  · exact .inl (Host.Outcome.next.inj h).symm
  · next later _ => exact .inr ⟨later, .inl (Host.Outcome.next.inj h).symm⟩
  · next later _ =>
    unfold runCommand at h
    split at h
    · next i _ => exact .inr ⟨later, .inr (.inr ⟨i, h⟩)⟩
    · exact .inr ⟨later, .inr (.inl (Host.Outcome.next.inj h).symm)⟩

theorem step_inv {s t : State} (hs : s.Inv) (h : step s = .next t) : t.Inv := by
  rcases step_cases h with rfl | ⟨later, rfl | rfl | ⟨i, hi⟩⟩
  · exact hs
  · exact (hs.withInbox later).resetEvent
  · exact (hs.withInbox later).refuse
  · exact exec_inv (hs.withInbox later) hi

/-- Settles O3: the operations on the state keep the invariant one by one, and every command is made of them. -/
theorem stepKeepsTheInvariant : Obligations.StepKeepsTheInvariant := fun _ _ hs h => step_inv hs h

/-! ### What a command changes of the slots -/

/-- What a command makes of the descriptor slots (10_state.md R22). -/
inductive DescEffect (i : Instr) (s : State) : List Descriptor → Prop where
  | kept : DescEffect i s s.desc
  | filled {d : Nat} {m : Method} {password : Bytes} {D : Descriptor} : i = .cipherInit d m password →
      s.desc[d]? = some D → D.valid = false → DescEffect i s (s.desc.set d (newDescriptor m password))
  | wiped {d : Nat} {D : Descriptor} : i = .cipherFree d → s.desc[d]? = some D → D.valid = true →
      DescEffect i s (s.desc.set d Descriptor.empty)

/-- What a command that comes to the state `t` makes of the context slots (10_state.md R27). -/
inductive CtxEffect (i : Instr) (s t : State) : List Context → Prop where
  | kept : CtxEffect i s t s.ctx
  | made {d c : Nat} {dir : Direction} {x : Context} {salt : Bytes} : i = .ctxNew d c dir → s.ctx[c]? = some x →
      x.valid = false → CtxEffect i s t (s.ctx.set c (newContext d dir salt))
  | wiped {c : Nat} {x : Context} : i = .ctxFree c → s.ctx[c]? = some x → x.valid = true →
      CtxEffect i s t (s.ctx.set c Context.empty)
  | ran {c : Nat} {p : Bytes} {x y : Context} {F : List Bytes} {st : Status} {out : Bytes} :
      (i = .tcpEncrypt c p ∨ i = .tcpDecrypt c p) → s.ctx[c]? = some x → x.dead = false →
      TcpAnswer s c x t F y st out → CtxEffect i s t (s.ctx.set c y)

/-- Besides the slots a command writes the filter, the draws and the response: the configuration and the inbox stay. -/
structure CommandEffect (i : Instr) (s t : State) : Prop where
  cfg : t.cfg = s.cfg
  inbox : t.inbox = s.inbox
  desc : DescEffect i s t.desc
  ctx : CtxEffect i s t t.ctx

theorem refuse_effect (i : Instr) (s : State) : CommandEffect i s s.refuse := ⟨rfl, rfl, .kept, .kept⟩

theorem TcpAnswer.effect {i : Instr} {s t : State} {c : Nat} {p : Bytes} {x y : Context} {F : List Bytes} {st : Status}
    {out : Bytes} (h : TcpAnswer s c x t F y st out) (hi : i = .tcpEncrypt c p ∨ i = .tcpDecrypt c p)
    (hc : s.ctx[c]? = some x) (hx : x.dead = false) : CommandEffect i s t := by
  have heff := CtxEffect.ran hi hc hx h
  obtain ⟨e, rfl⟩ := h.shape
  exact ⟨rfl, rfl, .kept, heff⟩

/-- What a command can do to the slots, the configuration and the inbox, read off the inversion lemma of each. -/
theorem exec_effect {i : Instr} {s t : State} (h : exec i s = .next t) : CommandEffect i s t := by
  cases i with
  | cipherInit d m password =>
    rcases cipherInit_cases h with rfl | ⟨⟨D, hD, hv⟩, -, rfl | rfl⟩
    · exact refuse_effect _ s
    · exact ⟨rfl, rfl, .kept, .kept⟩
    · exact ⟨rfl, rfl, .filled rfl hD hv, .kept⟩
  | cipherFree d =>
    rcases cipherFree_cases h with rfl | ⟨⟨D, hD, hv⟩, -, rfl⟩
    · exact refuse_effect _ s
    · exact ⟨rfl, rfl, .wiped rfl hD hv, .kept⟩
  | ctxNew d c dir =>
    rcases ctxNew_cases h with rfl | ⟨-, ⟨x, hx, hv⟩, rfl | ⟨e, salt, rfl⟩⟩
    · exact refuse_effect _ s
    · exact ⟨rfl, rfl, .kept, .kept⟩
    · exact ⟨rfl, rfl, .kept, .made rfl hx hv⟩
  | ctxFree c =>
    rcases ctxFree_cases h with rfl | ⟨⟨x, hx, hv⟩, rfl⟩
    · exact refuse_effect _ s
    · exact ⟨rfl, rfl, .kept, .wiped rfl hx hv⟩
  | tcpEncrypt c p =>
    rcases tcpEncrypt_cases h with rfl | ⟨x, D, y, st, out, hc, -, -, hx, -, -, ha, -⟩
    · exact refuse_effect _ s
    · exact ha.effect (.inl rfl) hc hx
  | tcpDecrypt c p =>
    rcases tcpDecrypt_cases h with rfl | ⟨x, D, F, y, st, out, hc, -, -, hx, -, -, ha, -⟩
    · exact refuse_effect _ s
    · exact ha.effect (.inr rfl) hc hx
  | udpEncrypt d p =>
    rcases udpEncrypt_cases h with rfl | ⟨D, e, st, out, -, -, -, rfl, -⟩
    · exact refuse_effect _ s
    · exact ⟨rfl, rfl, .kept, .kept⟩
  | udpDecrypt d p =>
    rcases udpDecrypt_cases h with rfl | ⟨D, F, e, st, out, -, -, -, rfl, -⟩
    · exact refuse_effect _ s
    · exact ⟨rfl, rfl, .kept, .kept⟩

theorem DescEffect.length_eq {i : Instr} {s : State} {l : List Descriptor} (h : DescEffect i s l) :
    l.length = s.desc.length := by
  cases h <;> simp

theorem CtxEffect.length_eq {i : Instr} {s t : State} {l : List Context} (h : CtxEffect i s t l) :
    l.length = s.ctx.length := by
  cases h <;> simp

/-- Writing one slot of a list changes no other. -/
theorem eq_of_getElem?_set_ne {α : Type} {l : List α} {j k : Nat} {a : α} (h : (l.set j a)[k]? ≠ l[k]?) : j = k :=
  not_imp_comm.1 (fun hne => List.getElem?_set_ne hne) h

/-- Settles O43: `CIPHER_INIT` fills the empty slot it names and `CIPHER_FREE` wipes the valid one, and nothing else writes a
descriptor slot. -/
theorem descriptorsAreImmutable : Obligations.DescriptorsAreImmutable := by
  intro i s t k h hne
  have heff := (exec_effect h).desc
  generalize t.desc = l at heff hne
  cases heff with
  | kept => exact absurd rfl hne
  | filled hi hD hv =>
    obtain rfl := eq_of_getElem?_set_ne hne
    exact .inl ⟨_, _, _, hi, hD, hv⟩
  | wiped hi hD hv =>
    obtain rfl := eq_of_getElem?_set_ne hne
    exact .inr ⟨_, hi, hD, hv⟩

/-- Settles O45. -/
theorem configurationIsConstant : Obligations.ConfigurationIsConstant := by
  refine ⟨fun s t h => ?_, fun i s t h => ⟨(exec_effect h).cfg, (exec_effect h).inbox⟩⟩
  rcases step_cases h with rfl | ⟨later, rfl | rfl | ⟨i, hi⟩⟩
  · exact ⟨rfl, rfl, rfl⟩
  · exact ⟨rfl, by simp, by simp⟩
  · exact ⟨rfl, rfl, rfl⟩
  · have heff := exec_effect hi
    exact ⟨heff.cfg, heff.desc.length_eq, heff.ctx.length_eq⟩

/-- The context `y` is still the running context `x`, in all that R28 to R30 name. -/
def StreamKept (x y : Context) : Prop :=
  y.valid = true ∧ y.init = true ∧ y.salt = x.salt ∧ y.subkey = x.subkey ∧ y.desc = x.desc ∧ y.dir = x.dir

theorem TcpAnswer.streamKept {s t : State} {c : Nat} {x y : Context} {F : List Bytes} {st : Status} {out : Bytes}
    (h : TcpAnswer s c x t F y st out) (hv : x.valid = true) (hi : x.init = true) : StreamKept x y := by
  obtain ⟨hinit, hsalt, hsub⟩ := h.keys hi
  exact ⟨h.valid.trans hv, hinit, hsalt, hsub, h.desc, h.dir⟩

/-- Settles O46: `CTX_NEW` needs an empty slot, and a TCP command on a running context keeps its keys. -/
theorem initAndKeysAreWrittenOnce : Obligations.InitAndKeysAreWrittenOnce := by
  intro i s t c x hc hv hi h hne
  show ∃ y, t.ctx[c]? = some y ∧ StreamKept x y
  have untouched : ∀ {l : List Context}, l[c]? = s.ctx[c]? → ∃ y, l[c]? = some y ∧ StreamKept x y := fun hl =>
    ⟨x, hl.trans hc, hv, hi, rfl, rfl, rfl, rfl⟩
  have heff := (exec_effect h).ctx
  generalize t.ctx = l at heff ⊢
  cases heff with
  | kept => exact untouched rfl
  | @made _ k _ z _ _ hz hzv =>
    have hkc : k ≠ c := by
      rintro rfl
      simp [Option.some.inj (hc.symm.trans hz), hzv] at hv
    exact untouched (List.getElem?_set_ne hkc)
  | @wiped k _ hik =>
    have hkc : k ≠ c := by
      rintro rfl
      exact hne hik
    exact untouched (List.getElem?_set_ne hkc)
  | @ran k _ z y _ _ _ _ hz _ ha =>
    by_cases hkc : k = c
    · subst hkc
      obtain rfl := Option.some.inj (hc.symm.trans hz)
      exact ⟨y, List.getElem?_set_self (List.getElem?_eq_some_iff.1 hc).1, ha.streamKept hv hi⟩
    · exact untouched (List.getElem?_set_ne hkc)

/-! ### Reset and the step -/

/-- Settles O1. -/
theorem resetStateIsAsTabulated : Obligations.ResetStateIsAsTabulated :=
  fun _ _ _ => ⟨rfl, rfl, fun _ => mem_saltSet, rfl, rfl⟩

/-- The configuration of `State.reset` is within the ranges of 00_scope.md R6. -/
theorem paramsWf_atReset : ParamsWf Params.atReset := ⟨by decide, by decide, fun _ h => by cases h⟩

/-- Settles O2. -/
theorem resetMeetsTheInvariant : Obligations.ResetMeetsTheInvariant :=
  ⟨fun _ _ _ hd hd' hc hc' hcfg => resetWith_inv ⟨hd, hd'⟩ ⟨hc, hc'⟩ hcfg,
    resetWith_inv (by decide) (by decide) paramsWf_atReset⟩

theorem step_command {s : State} {w : CommandWord} {input : Bytes} {later : List HostEvent}
    (h : s.inbox = .command w input :: later) : step s = runCommand w input (s.withInbox later) := by
  simp only [step, h]

theorem step_reset {s : State} {later : List HostEvent} (h : s.inbox = .reset :: later) :
    step s = .next (s.withInbox later).resetEvent := by
  simp only [step, h]

theorem step_nil {s : State} (h : s.inbox = []) : step s = .next s := by
  simp only [step, h]

/-- Settles O9. -/
theorem stepRunsTheDecodedCommand : Obligations.StepRunsTheDecodedCommand := by
  refine ⟨fun s w input later i hin hdec => ?_, fun s h => step_nil h⟩
  rw [step_command hin, runCommand, hdec]
  rfl

/-- Settles O11. -/
theorem resetEventWipesEverySlot : Obligations.ResetEventWipesEverySlot :=
  fun _ _ hin => ⟨_, step_reset hin, rfl, rfl, fun _ => mem_saltSet, rfl, rfl⟩

end Sys2Proof.Machine

/-! PROOFS. The family of 20_memory.md: a command touches no context slot but the one it names, and a TCP command sees no
other. -/

namespace Sys2Proof.Machine

/-! ### A command writes its own context only -/

/-- Settles O44: each way a command writes the context slots writes the one slot its operand names. -/
theorem commandsTouchOnlyTheirContext : Obligations.CommandsTouchOnlyTheirContext := by
  intro i s t k h hne
  have heff := (exec_effect h).ctx
  generalize t.ctx = l at heff hne
  cases heff with
  | kept => exact absurd rfl hne
  | made hi =>
    subst hi
    exact eq_of_getElem?_set_ne hne
  | wiped hi =>
    subst hi
    exact eq_of_getElem?_set_ne hne
  | ran hi =>
    rcases hi with rfl | rfl <;> exact eq_of_getElem?_set_ne hne

/-! ### What a TCP command reads

Two states that agree on all that a command naming the context slot `c` may read are kept in agreement by every operation of
the TCP codec, and answer alike. -/

/-- The states agree on everything but the other contexts, the host's later events and the last response. -/
structure AgreeAt (c : Nat) (s u : State) : Prop where
  cfg : u.cfg = s.cfg
  desc : u.desc = s.desc
  filter : u.filter = s.filter
  env : u.env = s.env
  ctx : u.ctx[c]? = s.ctx[c]?

/-- The states agree, and the command that led to them gave the same response. -/
structure AnswerAlike (c : Nat) (t v : State) : Prop extends AgreeAt c t v where
  response : v.response = t.response

section
variable {c : Nat} {s u : State} (h : AgreeAt c s u)
include h

/-! #### The operations on the state -/

theorem AgreeAt.setEnv (e : Env) : AgreeAt c (s.setEnv e) (u.setEnv e) := { h with env := rfl }

theorem AgreeAt.setCtx (x : Context) : AgreeAt c (s.setCtx c x) (u.setCtx c x) :=
  { h with ctx := by simp only [State.setCtx_ctx, List.getElem?_set_self', h.ctx] }

theorem AgreeAt.respond (st : Status) (out : Bytes) : AnswerAlike c (s.respond st out) (u.respond st out) :=
  { h with response := rfl }

theorem AgreeAt.refuse : AnswerAlike c s.refuse u.refuse := h.respond .refused []

theorem AgreeAt.raise (x : Context) (st : Status) : AnswerAlike c (s.raise c x st) (u.raise c x st) :=
  (h.setCtx _).respond st []

theorem AgreeAt.endRun (r : Run) (st : Status) : AnswerAlike c (s.endRun c r st) (u.endRun c r st) := by
  unfold State.endRun
  cases r.raised with
  | some fatal => exact (h.setEnv r.env).raise r.ctx fatal
  | none => exact ((h.setEnv r.env).setCtx r.ctx).respond st r.out

theorem AgreeAt.evict : AgreeAt c s.evict u.evict :=
  { h with
    filter := by simp only [State.evict_filter, h.filter, h.env]
    env := by simp only [State.evict_env, h.env] }

/-! #### The replay filter -/

theorem AgreeAt.checkAnswer (salt : Bytes) : u.checkAnswer salt = s.checkAnswer salt := by
  simp only [State.checkAnswer, h.evict.filter, h.evict.env]

theorem AgreeAt.addAnswer : u.addAnswer = s.addAnswer := by
  simp only [State.addAnswer, h.evict.env]

theorem AgreeAt.afterCheck : AgreeAt c s.afterCheck u.afterCheck := by
  unfold State.afterCheck
  rw [h.evict.env]
  exact h.evict.setEnv _

theorem AgreeAt.afterAdd (salt : Bytes) : AgreeAt c (s.afterAdd salt) (u.afterAdd salt) := by
  unfold State.afterAdd
  rw [h.evict.env, h.evict.filter]
  cases s.evict.env.addDraw with
  | ok => exact { h with filter := rfl, env := rfl }
  | failedClean => exact h.evict.setEnv _
  | failedInserted => exact { h with filter := rfl, env := rfl }

/-! #### The TCP codec -/

theorem AgreeAt.liveCtx (dir : Direction) (n : Nat) : u.liveCtx c dir n = s.liveCtx c dir n := by
  simp only [State.liveCtx, h.ctx, h.cfg]

theorem AgreeAt.tcpStream (x : Context) (m : Method) : AnswerAlike c (tcpStream c x m s) (tcpStream c x m u) := by
  simp only [Machine.tcpStream, h.env]
  exact h.endRun _ _

theorem AgreeAt.tcpStreamStart (x : Context) (D : Descriptor) :
    AnswerAlike c (tcpStreamStart c x D s) (tcpStreamStart c x D u) := by
  simp only [Machine.tcpStreamStart, h.env, h.cfg]
  split
  · exact (h.setEnv _).raise _ _
  · exact (h.setEnv _).tcpStream _ _

theorem AgreeAt.tcpTakeSalt (x : Context) (D : Descriptor) :
    AnswerAlike c (tcpTakeSalt c x D s) (tcpTakeSalt c x D u) := by
  simp only [Machine.tcpTakeSalt, h.cfg, h.checkAnswer, h.afterCheck.addAnswer]
  cases s.cfg.role with
  | client => exact h.tcpStreamStart _ D
  | server =>
    cases s.checkAnswer (x.rbufPeek 0 (keyLen D.method)) with
    | present => exact h.afterCheck.raise _ _
    | internalError => exact h.afterCheck.raise _ _
    | absent =>
      cases s.afterCheck.addAnswer with
      | internalError => exact (h.afterCheck.afterAdd _).raise _ _
      | ok => exact (h.afterCheck.afterAdd _).tcpStreamStart _ D

theorem AgreeAt.tcpDecryptAccepted (arrived : Bytes) (x : Context) (D : Descriptor) :
    AnswerAlike c (tcpDecryptAccepted c arrived x D s) (tcpDecryptAccepted c arrived x D u) := by
  simp only [Machine.tcpDecryptAccepted]
  split
  · exact h.tcpStream _ _
  · split
    · exact (h.setCtx _).respond _ _
    · exact h.tcpTakeSalt _ D

theorem AgreeAt.tcpEncryptAccepted (plain : Bytes) (x : Context) (D : Descriptor) :
    AnswerAlike c (tcpEncryptAccepted c plain x D s) (tcpEncryptAccepted c plain x D u) := by
  simp only [Machine.tcpEncryptAccepted, h.env, h.cfg]
  split
  · exact h.respond _ _
  · split
    · exact h.endRun _ _
    · split
      · exact (h.setEnv _).raise _ _
      · exact h.endRun _ _

/-! #### The TCP commands -/

theorem AgreeAt.exec_tcpEncrypt {p : Bytes} {t : State} (ht : exec (.tcpEncrypt c p) s = .next t) :
    ∃ v, exec (.tcpEncrypt c p) u = .next v ∧ AnswerAlike c t v := by
  simp only [exec, execTcpEncrypt, h.liveCtx, h.desc] at ht ⊢
  split at ht
  · cases ht
    exact ⟨_, rfl, h.refuse⟩
  · split at ht <;> cases ht
    exact ⟨_, rfl, h.tcpEncryptAccepted p _ _⟩

theorem AgreeAt.exec_tcpDecrypt {p : Bytes} {t : State} (ht : exec (.tcpDecrypt c p) s = .next t) :
    ∃ v, exec (.tcpDecrypt c p) u = .next v ∧ AnswerAlike c t v := by
  simp only [exec, execTcpDecrypt, h.liveCtx, h.desc] at ht ⊢
  split at ht
  · cases ht
    exact ⟨_, rfl, h.refuse⟩
  · split at ht <;> cases ht
    exact ⟨_, rfl, h.tcpDecryptAccepted p _ _⟩

end

/-- Settles O53: a TCP command reads of the contexts only the one it names, so states that agree there answer alike. -/
theorem tcpCommandsSeeOnlyTheirContext : Obligations.TcpCommandsSeeOnlyTheirContext := by
  intro i s t u c p hi hcfg hdesc hfilter henv hctx ht
  have h : AgreeAt c s u := ⟨hcfg, hdesc, hfilter, henv, hctx⟩
  have halike : ∃ v, exec i u = .next v ∧ AnswerAlike c t v := by
    rcases hi with rfl | rfl
    · exact h.exec_tcpEncrypt ht
    · exact h.exec_tcpDecrypt ht
  obtain ⟨v, hv, ha⟩ := halike
  exact ⟨v, hv, ha.response, ha.ctx, ha.filter⟩

end Sys2Proof.Machine

/-! PROOFS. The family of 30_encoding.md: decoding and encoding are inverse, the rows of the opcode table read on the fields of a
word, the words that R103 refuses, and which response carries an output. -/

namespace Sys2Proof

open Machine

/-! ### Decoding and encoding are inverse -/

theorem whenUnused_eq_ok {ok : Bool} {i j : Instr} : whenUnused ok i = .ok j ↔ ok = true ∧ i = j := by
  cases ok <;> simp [whenUnused]

theorem whenUnusedNoInput_eq_ok {ok : Bool} {input : Bytes} {i j : Instr} :
    whenUnusedNoInput ok input i = .ok j ↔ ok = true ∧ input = [] ∧ i = j := by
  cases ok <;> cases input <;> simp [whenUnusedNoInput]

theorem decodeCipherInit_eq_ok {w : CommandWord} {input : Bytes} {i : Instr} :
    decodeCipherInit w input = .ok i ↔
      scField w = 0 ∧ ∃ m, argField w = methodId m ∧ i = .cipherInit (sdField w) m input := by
  unfold decodeCipherInit
  constructor
  · intro h
    split at h
    · next m hm =>
      simp only [whenUnused_eq_ok, beq_iff_eq] at h
      exact ⟨h.1, m, methodOfId_eq_some hm, h.2.symm⟩
    · cases h
  · rintro ⟨hc, m, hm, rfl⟩
    simp [hm, hc, methodOfId_methodId, whenUnused]

theorem decodeCtxNew_eq_ok {w : CommandWord} {input : Bytes} {i : Instr} :
    decodeCtxNew w input = .ok i ↔
      input = [] ∧ ∃ dir, argField w = directionBit dir ∧ i = .ctxNew (sdField w) (scField w) dir := by
  unfold decodeCtxNew
  constructor
  · intro h
    split at h
    · next dir hdir =>
      simp only [whenUnusedNoInput_eq_ok, true_and] at h
      exact ⟨h.1, dir, directionOfArg_eq_some hdir, h.2.symm⟩
    · cases h
  · rintro ⟨rfl, dir, hdir, rfl⟩
    simp [hdir, directionOfArg_directionBit, whenUnusedNoInput]

theorem directionBit_lt (dir : Direction) : directionBit dir < 2 := by cases dir <;> decide

theorem opField_lt (w : CommandWord) : opField w < 256 := (w.extractLsb 31 24).isLt

theorem sdField_lt (w : CommandWord) : sdField w < 256 := (w.extractLsb 23 16).isLt

theorem scField_lt (w : CommandWord) : scField w < 256 := (w.extractLsb 15 8).isLt

theorem argField_lt (w : CommandWord) : argField w < 256 := (w.extractLsb 7 0).isLt

/-- What decodes, on the word's fields: one line per row of the table (30_encoding.md R99, R100, R103). -/
theorem decode_eq_ok_iff {w : CommandWord} {input : Bytes} {i : Instr} :
    decode w input = .ok i ↔
      (opField w = 1 ∧ scField w = 0 ∧ ∃ m, argField w = methodId m ∧ i = .cipherInit (sdField w) m input) ∨
      (opField w = 2 ∧ scField w = 0 ∧ argField w = 0 ∧ input = [] ∧ i = .cipherFree (sdField w)) ∨
      (opField w = 3 ∧ input = [] ∧ ∃ dir, argField w = directionBit dir ∧ i = .ctxNew (sdField w) (scField w) dir) ∨
      (opField w = 4 ∧ sdField w = 0 ∧ argField w = 0 ∧ input = [] ∧ i = .ctxFree (scField w)) ∨
      (opField w = 5 ∧ sdField w = 0 ∧ argField w = 0 ∧ i = .tcpEncrypt (scField w) input) ∨
      (opField w = 6 ∧ sdField w = 0 ∧ argField w = 0 ∧ i = .tcpDecrypt (scField w) input) ∨
      (opField w = 7 ∧ scField w = 0 ∧ argField w = 0 ∧ i = .udpEncrypt (sdField w) input) ∨
      (opField w = 8 ∧ scField w = 0 ∧ argField w = 0 ∧ i = .udpDecrypt (sdField w) input) := by
  unfold decode
  split
  case h_1 hop => simp [hop, decodeCipherInit_eq_ok]
  case h_3 hop => simp [hop, decodeCtxNew_eq_ok]
  case h_9 => simp_all
  all_goals
    next hop => simp [hop, whenUnused_eq_ok, whenUnusedNoInput_eq_ok, and_assoc, eq_comm (a := i)]

theorem fields_packWord {op sd sc arg : Nat} (ho : op < 256) (hd : sd < 256) (hc : sc < 256) (ha : arg < 256) :
    opField (packWord op sd sc arg) = op ∧ sdField (packWord op sd sc arg) = sd ∧
      scField (packWord op sd sc arg) = sc ∧ argField (packWord op sd sc arg) = arg :=
  ⟨opField_packWord ho hd hc ha, sdField_packWord ho hd hc ha, scField_packWord ho hd hc ha,
    argField_packWord ho hd hc ha⟩

/-- Settles O5: each field of the packed word reads back as it was written. -/
theorem decodeEncodeAgree : Obligations.DecodeEncodeAgree := by
  intro i hi
  cases i with
  | cipherInit d m password =>
    have hd : d < 256 := slotFits_iff.1 hi
    have hm : methodId m < 256 := (methodId_lt m).trans (by decide)
    simp [encode, decode_eq_ok_iff, fields_packWord, hd, hm]
  | ctxNew d c dir =>
    obtain ⟨hd, hc⟩ : d < 256 ∧ c < 256 := by simpa [Instr.wellFormed] using hi
    have ha : directionBit dir < 256 := (directionBit_lt dir).trans (by decide)
    simp [encode, decode_eq_ok_iff, fields_packWord, hd, hc, ha]
  | cipherFree d | udpEncrypt d _ | udpDecrypt d _ =>
    have hd : d < 256 := slotFits_iff.1 hi
    simp [encode, decode_eq_ok_iff, fields_packWord, hd]
  | ctxFree c | tcpEncrypt c _ | tcpDecrypt c _ =>
    have hc : c < 256 := slotFits_iff.1 hi
    simp [encode, decode_eq_ok_iff, fields_packWord, hc]

theorem packWord_eq_of_fields {w : CommandWord} {op sd sc arg : Nat} (ho : opField w = op) (hd : sdField w = sd)
    (hc : scField w = sc) (ha : argField w = arg) : packWord op sd sc arg = w := by
  rw [← ho, ← hd, ← hc, ← ha, packWord_fields]

/-- Settles O6: an accepted word has its opcode, its operands and zero in its fields, and is the word packed of them. -/
theorem encodeDecodeAgree : Obligations.EncodeDecodeAgree := by
  intro w input i h
  have hd : slotFits (sdField w) = true := slotFits_iff.2 (sdField_lt w)
  have hc : slotFits (scField w) = true := slotFits_iff.2 (scField_lt w)
  rcases decode_eq_ok_iff.1 h with ⟨hop, hz, m, ha, rfl⟩ | ⟨hop, hz, ha, rfl, rfl⟩ | ⟨hop, rfl, dir, ha, rfl⟩ |
    ⟨hop, hz, ha, rfl, rfl⟩ | ⟨hop, hz, ha, rfl⟩ | ⟨hop, hz, ha, rfl⟩ | ⟨hop, hz, ha, rfl⟩ | ⟨hop, hz, ha, rfl⟩
  · exact ⟨hd, Prod.ext (packWord_eq_of_fields hop rfl hz ha) rfl⟩
  · exact ⟨hd, Prod.ext (packWord_eq_of_fields hop rfl hz ha) rfl⟩
  · exact ⟨Bool.and_eq_true_iff.2 ⟨hd, hc⟩, Prod.ext (packWord_eq_of_fields hop rfl rfl ha) rfl⟩
  · exact ⟨hc, Prod.ext (packWord_eq_of_fields hop hz rfl ha) rfl⟩
  · exact ⟨hc, Prod.ext (packWord_eq_of_fields hop hz rfl ha) rfl⟩
  · exact ⟨hc, Prod.ext (packWord_eq_of_fields hop hz rfl ha) rfl⟩
  · exact ⟨hd, Prod.ext (packWord_eq_of_fields hop rfl hz ha) rfl⟩
  · exact ⟨hd, Prod.ext (packWord_eq_of_fields hop rfl hz ha) rfl⟩

/-- Settles O8. -/
theorem sampleWordsDecode : Obligations.SampleWordsDecode := ⟨rfl, rfl, rfl, rfl, rfl, rfl, rfl, rfl⟩

/-! ### The rows of the opcode table -/

theorem exists_eq_methodId_iff {n : Nat} : (∃ m, n = methodId m) ↔ n < 6 := by
  refine ⟨fun ⟨m, hm⟩ => hm ▸ methodId_lt m, fun h => ?_⟩
  have hsome : ∀ k < 6, (methodOfId k).isSome = true := by decide
  obtain ⟨m, hm⟩ := Option.isSome_iff_exists.1 (hsome n h)
  exact ⟨m, methodOfId_eq_some hm⟩

theorem exists_eq_directionBit_iff {n : Nat} : (∃ dir, n = directionBit dir) ↔ n < 2 := by
  refine ⟨fun ⟨dir, hdir⟩ => hdir ▸ directionBit_lt dir, fun h => ?_⟩
  have hsome : ∀ k < 2, (directionOfArg k).isSome = true := by decide
  obtain ⟨dir, hdir⟩ := Option.isSome_iff_exists.1 (hsome n h)
  exact ⟨dir, directionOfArg_eq_some hdir⟩

/-- A word and an input decode exactly when the word's fields are those of a row of the table and the input is one that row
allows (30_encoding.md R99, R100, R103). -/
theorem exists_decode_eq_ok_iff (w : CommandWord) (input : Bytes) :
    (∃ i, decode w input = .ok i) ↔
      (opField w = 1 ∧ scField w = 0 ∧ argField w < 6) ∨
      ((opField w = 2 ∧ scField w = 0 ∧ argField w = 0) ∧ input = []) ∨
      ((opField w = 3 ∧ argField w < 2) ∧ input = []) ∨
      ((opField w = 4 ∧ sdField w = 0 ∧ argField w = 0) ∧ input = []) ∨
      (opField w = 5 ∧ sdField w = 0 ∧ argField w = 0) ∨
      (opField w = 6 ∧ sdField w = 0 ∧ argField w = 0) ∨
      (opField w = 7 ∧ scField w = 0 ∧ argField w = 0) ∨
      (opField w = 8 ∧ scField w = 0 ∧ argField w = 0) := by
  simp [decode_eq_ok_iff, exists_or, exists_eq_methodId_iff, exists_eq_directionBit_iff, and_comm,
    and_left_comm]

theorem word_ext_iff {w v : CommandWord} :
    w = v ↔ opField w = opField v ∧ sdField w = sdField v ∧ scField w = scField v ∧ argField w = argField v :=
  ⟨fun h => h ▸ ⟨rfl, rfl, rfl, rfl⟩, fun ⟨ho, hd, hc, ha⟩ =>
    (packWord_eq_of_fields ho hd hc ha).symm.trans (packWord_fields v)⟩

theorem opField_and (w v : CommandWord) : opField (w &&& v) = opField w &&& opField v := by
  simp [opField, BitVec.extractLsb_and]

theorem sdField_and (w v : CommandWord) : sdField (w &&& v) = sdField w &&& sdField v := by
  simp [sdField, BitVec.extractLsb_and]

theorem scField_and (w v : CommandWord) : scField (w &&& v) = scField w &&& scField v := by
  simp [scField, BitVec.extractLsb_and]

theorem argField_and (w v : CommandWord) : argField (w &&& v) = argField w &&& argField v := by
  simp [argField, BitVec.extractLsb_and]

theorem and_ff_of_lt {n : Nat} (h : n < 256) : n &&& 0xFF = n :=
  (Nat.and_two_pow_sub_one_eq_mod n 8).trans (Nat.mod_eq_of_lt h)

/-- A mask and a match value, read field by field (30_encoding.md R101). -/
theorem and_eq_iff_fields {w mask v : CommandWord} :
    w &&& mask = v ↔ opField w &&& opField mask = opField v ∧ sdField w &&& sdField mask = sdField v ∧
      scField w &&& scField mask = scField v ∧ argField w &&& argField mask = argField v := by
  rw [word_ext_iff, opField_and, sdField_and, scField_and, argField_and]

section Rows

variable {w : CommandWord} {op : Nat} (hop : op < 256)
include hop

/-- The row of a command that names a descriptor slot only. -/
theorem descRow_iff : w &&& packWord 0xFF 0 0xFF 0xFF = packWord op 0 0 0 ↔
    opField w = op ∧ scField w = 0 ∧ argField w = 0 := by
  simp [and_eq_iff_fields, fields_packWord, hop, and_ff_of_lt, opField_lt, scField_lt, argField_lt]

/-- The row of a command that names a context slot only. -/
theorem ctxRow_iff : w &&& packWord 0xFF 0xFF 0 0xFF = packWord op 0 0 0 ↔
    opField w = op ∧ sdField w = 0 ∧ argField w = 0 := by
  simp [and_eq_iff_fields, fields_packWord, hop, and_ff_of_lt, opField_lt, sdField_lt, argField_lt]

end Rows

/-- A mask of the `k` bits above the lowest `j`. -/
theorem and_high_eq_zero_iff {n j k : Nat} (h : n < 2 ^ (j + k)) : n &&& (2 ^ k - 1) * 2 ^ j = 0 ↔ n < 2 ^ j := by
  have hq : (n &&& (2 ^ k - 1) * 2 ^ j) / 2 ^ j = n / 2 ^ j := by
    rw [Nat.and_div_two_pow, Nat.mul_div_cancel _ (Nat.two_pow_pos j), Nat.and_two_pow_sub_one_eq_mod,
      Nat.mod_eq_of_lt (Nat.div_lt_of_lt_mul (by rwa [← Nat.pow_add]))]
  have hr : (n &&& (2 ^ k - 1) * 2 ^ j) % 2 ^ j = 0 := by
    rw [Nat.and_mod_two_pow, Nat.mul_mod_left, Nat.and_zero]
  rw [← Nat.div_eq_zero_iff_lt (Nat.two_pow_pos j), ← hq]
  exact ⟨fun h0 => by rw [h0, Nat.zero_div], Nat.eq_zero_of_dvd_of_div_eq_zero (Nat.dvd_of_mod_eq_zero hr)⟩

theorem and_f8_eq_zero_iff {n : Nat} (h : n < 256) : n &&& 0xF8 = 0 ↔ n < 8 := and_high_eq_zero_iff (j := 3) (k := 5) h

theorem and_fe_eq_zero_iff {n : Nat} (h : n < 256) : n &&& 0xFE = 0 ↔ n < 2 := and_high_eq_zero_iff (j := 1) (k := 7) h

/-- The row of `CIPHER_INIT` leaves three bits of `ARG` free, and six of their eight values name a method. -/
theorem cipherInitRow_iff {w : CommandWord} :
    (w &&& packWord 0xFF 0 0xFF 0xF8 = packWord 1 0 0 0 ∧ (w &&& 0x00000007).toNat < 6) ↔
      opField w = 1 ∧ scField w = 0 ∧ argField w < 6 := by
  have hlow : (w &&& 0x00000007).toNat = argField w % 8 := by
    rw [argField_eq, BitVec.toNat_and]
    exact (Nat.and_two_pow_sub_one_eq_mod w.toNat 3).trans (by omega)
  have hrow : w &&& packWord 0xFF 0 0xFF 0xF8 = packWord 1 0 0 0 ↔ opField w = 1 ∧ scField w = 0 ∧ argField w < 8 := by
    simp [and_eq_iff_fields, fields_packWord, and_ff_of_lt, opField_lt, scField_lt, argField_lt, and_f8_eq_zero_iff]
  rw [hrow, hlow]
  omega

/-- The row of `CTX_NEW` leaves one bit of `ARG` free. -/
theorem ctxNewRow_iff {w : CommandWord} : w &&& packWord 0xFF 0 0 0xFE = packWord 3 0 0 0 ↔
    opField w = 3 ∧ argField w < 2 := by
  simp [and_eq_iff_fields, fields_packWord, and_ff_of_lt, opField_lt, argField_lt, and_fe_eq_zero_iff]

/-- Settles O7: each mask and match value says of the fields what its row asks of them. -/
theorem decodeAcceptsExactlyTheTable : Obligations.DecodeAcceptsExactlyTheTable := by
  intro w input
  have desc {op : Nat} (hop : op < 256) := (descRow_iff (w := w) hop).symm
  have ctx {op : Nat} (hop : op < 256) := (ctxRow_iff (w := w) hop).symm
  exact (exists_decode_eq_ok_iff w input).trans <| or_congr cipherInitRow_iff.symm <|
    or_congr (and_congr_left' (desc (by decide))) <| or_congr (and_congr_left' ctxNewRow_iff.symm) <|
    or_congr (and_congr_left' (ctx (by decide))) <| or_congr (ctx (by decide)) <| or_congr (ctx (by decide)) <|
    or_congr (desc (by decide)) (desc (by decide))

/-! ### The words that R103 refuses -/

/-- The command names a slot that the machine does not have (60_exceptions.md R296, condition 3). -/
def NamesNoSlot (s : State) : Instr → Prop
  | .cipherInit d _ _ | .cipherFree d | .udpEncrypt d _ | .udpDecrypt d _ => s.desc.length ≤ d
  | .ctxNew d c _ => s.desc.length ≤ d ∨ s.ctx.length ≤ c
  | .ctxFree c | .tcpEncrypt c _ | .tcpDecrypt c _ => s.ctx.length ≤ c

theorem descriptor_none_of_length_le {s : State} {d : Nat} (h : s.desc.length ≤ d) :
    s.validDesc d = none ∧ s.descEmpty d = false := by
  simp [State.validDesc, State.descEmpty, List.getElem?_eq_none h]

theorem context_none_of_length_le {s : State} {c : Nat} (h : s.ctx.length ≤ c) :
    s.ctxEmpty c = false ∧ s.ctxValid c = false ∧ ∀ dir n, s.liveCtx c dir n = none := by
  simp [State.ctxEmpty, State.ctxValid, State.liveCtx, List.getElem?_eq_none h]

/-- A command that names no slot is refused (60_exceptions.md R295, R296). -/
theorem exec_of_namesNoSlot {s : State} {i : Instr} (h : NamesNoSlot s i) : exec i s = .next s.refuse := by
  cases i with
  | cipherInit d m p => simp [exec, execCipherInit, descriptor_none_of_length_le h]
  | cipherFree d => simp [exec, execCipherFree, descriptor_none_of_length_le h]
  | ctxNew d c dir =>
    rcases h with hd | hc
    · simp [exec, execCtxNew, descriptor_none_of_length_le hd]
    · cases hD : s.validDesc d <;> simp [exec, execCtxNew, hD, context_none_of_length_le hc]
  | ctxFree c => simp [exec, execCtxFree, context_none_of_length_le h]
  | tcpEncrypt c p => simp [exec, execTcpEncrypt, context_none_of_length_le h]
  | tcpDecrypt c p => simp [exec, execTcpDecrypt, context_none_of_length_le h]
  | udpEncrypt d p => simp [exec, execUdpEncrypt, State.udpDesc, descriptor_none_of_length_le h]
  | udpDecrypt d p => simp [exec, execUdpDecrypt, State.udpDesc, descriptor_none_of_length_le h]

/-- A word is refused if it does not decode or names no slot. -/
theorem runCommand_eq_refuse {s : State} {w : CommandWord} {input : Bytes}
    (h : ∀ i, decode w input = .ok i → NamesNoSlot s i) : runCommand w input s = .next s.refuse := by
  unfold runCommand
  split
  · next i hi => exact exec_of_namesNoSlot (h i hi)
  · rfl

/-- Settles O10: a word with one of R103's reasons that still decodes has the one reason left, that it names no slot. -/
theorem refusedWordsChangeNothing : Obligations.RefusedWordsChangeNothing := by
  intro s w input later op sd sc arg hin hop hsd hsc harg hreason
  rw [← opField_eq] at hop
  rw [← sdField_eq] at hsd
  rw [← scField_eq] at hsc
  rw [← argField_eq] at harg
  subst hop hsd hsc harg
  rw [step_command hin]
  refine runCommand_eq_refuse fun i hi => ?_
  rcases decode_eq_ok_iff.1 hi with ⟨hop, hz, m, ha, rfl⟩ | ⟨hop, hz, ha, rfl, rfl⟩ | ⟨hop, rfl, dir, ha, rfl⟩ |
    ⟨hop, hz, ha, rfl, rfl⟩ | ⟨hop, hz, ha, rfl⟩ | ⟨hop, hz, ha, rfl⟩ | ⟨hop, hz, ha, rfl⟩ | ⟨hop, hz, ha, rfl⟩
  case inl =>
    have hslot : 6 ≤ methodId m ∨ s.desc.length ≤ sdField w := by simpa [hop, hz, ha] using hreason
    exact hslot.resolve_left (methodId_lt m).not_ge
  case inr.inr.inl =>
    have hslot : 2 ≤ directionBit dir ∨ s.desc.length ≤ sdField w ∨ s.ctx.length ≤ scField w := by
      simpa [hop, ha] using hreason
    exact hslot.resolve_left (directionBit_lt dir).not_ge
  all_goals simpa [NamesNoSlot, hop, hz, ha] using hreason

/-! ### Which response carries an output -/

/-- Settles O49: read off the inversion lemma of each command. -/
theorem onlyOkCarriesOutput : Obligations.OnlyOkCarriesOutput := by
  intro i s t r h hr
  cases i with
  | cipherInit d m p =>
    rcases cipherInit_cases h with rfl | ⟨-, -, rfl | rfl⟩ <;> obtain rfl := Option.some.inj hr <;> simp
  | cipherFree d =>
    rcases cipherFree_cases h with rfl | ⟨-, -, rfl⟩ <;> obtain rfl := Option.some.inj hr <;> simp
  | ctxNew d c dir =>
    rcases ctxNew_cases h with rfl | ⟨-, -, rfl | ⟨e, salt, rfl⟩⟩ <;> obtain rfl := Option.some.inj hr <;> simp
  | ctxFree c =>
    rcases ctxFree_cases h with rfl | ⟨-, rfl⟩ <;> obtain rfl := Option.some.inj hr <;> simp
  | tcpEncrypt c p =>
    rcases tcpEncrypt_cases h with rfl | ⟨x, D, y, st, out, -, -, -, -, -, -, ha, hst⟩
    · obtain rfl := Option.some.inj hr
      simp
    · obtain ⟨⟨e, rfl⟩, -, -, -, -, hout, -⟩ := ha
      obtain rfl := Option.some.inj hr
      refine ⟨hout, fun hok => ?_⟩
      rcases hst with ⟨-, hp⟩ | h | h
      · exact hp
      · cases hok.symm.trans h
      · cases hok.symm.trans h
  | tcpDecrypt c p =>
    rcases tcpDecrypt_cases h with rfl | ⟨x, D, F, y, st, out, -, -, -, -, -, -, ha, hd⟩
    · obtain rfl := Option.some.inj hr
      simp
    · obtain ⟨⟨e, rfl⟩, -, -, -, -, hout, -⟩ := ha
      obtain rfl := Option.some.inj hr
      exact ⟨hout, hd.ok⟩
  | udpEncrypt d p =>
    rcases udpEncrypt_cases h with rfl | ⟨D, e, st, out, -, -, -, rfl, ⟨rfl, hout⟩ | ⟨rfl, rfl⟩⟩ <;>
      obtain rfl := Option.some.inj hr <;> simp [*]
  | udpDecrypt d p =>
    rcases udpDecrypt_cases h with rfl | ⟨D, F, e, st, out, -, -, -, rfl, ⟨rfl, hout⟩ | ⟨hst, rfl⟩, -⟩
      <;> obtain rfl := Option.some.inj hr
    · simp
    · simp [hout]
    · refine ⟨fun _ => rfl, fun hok => ?_⟩
      simp [show st = .ok from hok] at hst

end Sys2Proof

/-! PROOFS. The family of 40_keying.md: the lengths of the derived keys, the spec's example and the part of the salt
that a subkey depends on. -/

namespace Sys2Proof

open Machine

/-! ### The derived keys -/

theorem deriveMaster_length (password : Bytes) {outlen : Nat} (h : outlen ≤ 64) :
    (deriveMaster password outlen).length = outlen :=
  blake2b_length password [] [] [] h

theorem deriveSubkey_length (personal salt : Bytes) {master : Bytes} (h : master.length ≤ 64) :
    (deriveSubkey personal master salt).length = master.length :=
  blake2b_length [] master (salt16 salt) (pers16 personal) h

/-- Settles O55: a hash has the length asked of it up to 64 bytes, and no method's key is longer than 32. -/
theorem derivedKeyLengths : Obligations.DerivedKeyLengths := by
  intro m password personal master salt hmaster
  have hkey : keyLen m ≤ 64 := (keyLen_le m).trans (by decide)
  exact ⟨deriveMaster_length password hkey,
    (deriveSubkey_length personal salt (hmaster.trans_le hkey)).trans hmaster⟩

/-- Settles O56: the password is one block, so the kernel evaluates a single compression. -/
theorem deriveMasterOfTest : Obligations.DeriveMasterOfTest := by
  unfold Obligations.DeriveMasterOfTest
  decide +kernel

/-! ### The part of the salt that reaches the subkey -/

/-- A string that fills its field is cut to it, with no zeros behind. -/
theorem fit_of_le_length {n : Nat} {s : Bytes} (h : n ≤ s.length) : fit n s = s.take n := by
  simp [fit, zeros, Nat.sub_eq_zero_of_le h]

/-- 40_keying.md R134, for a salt that needs no padding. -/
theorem salt16_eq_take {salt : Bytes} (h : 16 ≤ salt.length) : salt16 salt = salt.take 16 :=
  fit_of_le_length h

/-- Settles O57: the salt enters the subkey through `salt16` alone. -/
theorem subkeyUsesTheFirst16SaltBytes : Obligations.SubkeyUsesTheFirst16SaltBytes := by
  intro personal master salt h
  rw [deriveSubkey, salt16_eq_take h]

end Sys2Proof

/-! PROOFS. The family of 42_aead_nonce.md: the nonce's successor, and what a chunk that would start at the exhaustion point
makes of a TCP command. -/

namespace Sys2Proof.Machine

/-! ### The successor of a nonce -/

/-- `NonceInc` on the string's value, the carry out of the last byte discarded (42_aead_nonce.md R170). -/
theorem le_nonceInc (n : Bytes) : le (nonceInc n) = (le n + 1) % 256 ^ n.length := by
  rw [nonceInc, le_unle, Nat.mod_mod]

/-- Settles O54. -/
theorem nonceIncIsLittleEndianSuccessor : Obligations.NonceIncIsLittleEndianSuccessor :=
  fun n => ⟨nonceInc_length n, le_nonceInc n⟩

/-! ### A chunk at the exhaustion point -/

theorem nonceSpent_iff {m : Method} {stored : Bytes} :
    nonceSpent m stored = true ↔ 256 ^ nonceLen m - 2 ≤ le (stored.take (nonceLen m)) :=
  decide_eq_true_iff

/-- The exhaustion point itself is spent. -/
theorem nonceSpent_nonceField_last (m : Method) : nonceSpent m (nonceField m (256 ^ nonceLen m - 2)) = true := by
  rw [nonceSpent_nonceField le_rfl, decide_eq_true_iff]

/-- The encoder tests the nonce before the first AEAD call of a chunk, so nothing is drawn and nothing comes out
(42_aead_nonce.md R171). -/
theorem encryptLoop_spent {m : Method} {qs : List Bytes} {r : Run} (hqs : qs ≠ []) (hs : nonceSpent m r.ctx.nonce = true) :
    encryptLoop m qs r = { r with raised := some .nonceExhausted } := by
  obtain ⟨q, qs, rfl⟩ := List.exists_cons_of_ne_nil hqs
  have hp : encryptPass m q r = { r with raised := some .nonceExhausted } := if_pos hs
  simp only [encryptLoop, hp]

/-- The decoder looks at the buffer's length first, then at the nonce (44_tcp.md R210, 42_aead_nonce.md R171). -/
theorem decryptPass_spent {m : Method} {x : Context} {e : Env} (hl : 34 < x.rbuf.length)
    (hs : nonceSpent m x.nonce = true) : decryptPass m x e = .raised .nonceExhausted e :=
  (if_neg (Nat.not_le.2 hl)).trans (if_pos hs)

theorem decryptLoop_spent {m : Method} {n : Nat} {r : Run} (hn : n ≠ 0) (hl : 34 < r.ctx.rbuf.length)
    (hs : nonceSpent m r.ctx.nonce = true) : decryptLoop m n r = { r with raised := some .nonceExhausted } := by
  obtain ⟨n, rfl⟩ := Nat.exists_eq_succ_of_ne_zero hn
  simp only [decryptLoop, decryptPass_spent hl hs]

/-- Fatal entry at the end of a loop that has taken `draws` draws (60_exceptions.md R290). -/
theorem endRun_eq_diedAt {w : State} {c draws : Nat} {r : Run} {fatal st : Status} (hr : r.raised = some fatal)
    (he : r.env = Env.afterPrim^[draws] w.env) : w.endRun c r st = w.diedAt c r.ctx draws fatal := by
  rw [endRun_raised hr, he]
  rfl

/-- Settles O20: a command that has started its chunks answers what its loop reaches, and the loop's next pass finds the nonce
spent before it draws. -/
theorem nonceExhaustionKillsTheContext : Obligations.NonceExhaustionKillsTheContext := by
  refine ⟨fun s c p x D hc hv hx hi hD hf hspent => ?_, fun s w c n v p y D h hv => ?_,
    fun s w c v p rest y D good h hv => ?_⟩
  · have hs := nonceSpent_iff.2 hspent
    refine ⟨fun hdir hp => ?_, fun hdir hl => ?_⟩
    · obtain ⟨out, hexec⟩ := (EncryptStarts.armed ⟨hc, hv, hdir, hx, hD, hf⟩ hp hi).exec
      rw [hexec, encryptLoop_spent (splitChunks_ne_nil hp) hs]
      exact congrArg _ (endRun_eq_diedAt (draws := 0) rfl rfl)
    · have hrbuf : 34 < (x.rbuf ++ p).length := by rwa [List.length_append]
      rw [(DecryptStarts.streaming ⟨hc, hv, hdir, hx, hD, hf⟩ hi).exec, tcpStream,
        decryptLoop_spent (Nat.ne_zero_of_lt hrbuf) hrbuf hs]
      exact congrArg _ (endRun_eq_diedAt (draws := 0) rfl rfl)
  · subst hv
    obtain ⟨q, rs, out, hexec⟩ := h.exec
    rw [hexec, encryptLoop_spent (List.cons_ne_nil q rs) (nonceSpent_nonceField_last _)]
    exact congrArg _ (endRun_eq_diedAt rfl rfl)
  · subst hv
    obtain ⟨n, r, hexec, hr⟩ := h.exec
    rw [hexec, hr, decryptLoop_spent n.succ_ne_zero h.more (nonceSpent_nonceField_last _)]
    exact congrArg _ (endRun_eq_diedAt rfl rfl)

end Sys2Proof.Machine

/-! PROOFS. The family of 43_udp.md: each UDP command stage by stage, one equation for every answer of a draw, of the tag and of
the replay filter; then the frame, the two completions, and what becomes of a datagram that was sent or comes again. -/

namespace Sys2Proof.Machine

/-! ### The descriptor of a UDP command -/

theorem udpDesc_of_bound {s : State} {d n : Nat} {D : Descriptor} (hD : s.desc[d]? = some D) (hv : D.valid = true)
    (hf : ∀ b, s.cfg.maxDgram = some b → n ≤ b) : s.udpDesc d n = some D :=
  udpDesc_eq_some.2 ⟨hD, hv, fits_of_bound hf⟩

theorem exec_udpEncrypt {s : State} {d : Nat} {plain : Bytes} {D : Descriptor} (h : s.udpDesc d plain.length = some D) :
    exec (.udpEncrypt d plain) s = .next (udpEncryptAccepted D plain s) := by
  simp only [exec, execUdpEncrypt, h]

theorem exec_udpDecrypt {s : State} {d : Nat} {datagram : Bytes} {D : Descriptor}
    (h : s.udpDesc d datagram.length = some D) :
    exec (.udpDecrypt d datagram) s = .next (udpDecryptAccepted D datagram s) := by
  simp only [exec, execUdpDecrypt, h]

theorem exec_udpDecrypt_refused {s : State} {d : Nat} {datagram : Bytes} (h : s.udpDesc d datagram.length = none) :
    exec (.udpDecrypt d datagram) s = .next s.refuse := by
  simp only [exec, execUdpDecrypt, h]

/-! ### Step 5 of UDP_DECRYPT: the insertion -/

section
variable {s : State} (salt plain : Bytes)

theorem udpInsert_client (hr : s.cfg.role = .client) : udpInsert salt plain s = s.respond .ok plain := by
  simp only [udpInsert, hr]

theorem udpInsert_server_ok (ha : s.addAnswer = .ok) (hr : s.cfg.role = .server) :
    udpInsert salt plain s = (s.afterAdd salt).respond .ok plain := by
  simp only [udpInsert, hr, ha]

theorem udpInsert_server_failed (ha : s.addAnswer = .internalError) (hr : s.cfg.role = .server) :
    udpInsert salt plain s = (s.afterAdd salt).respond .internal [] := by
  simp only [udpInsert, hr, ha]

end

/-- An insertion that answers `Ok` has put the salt into the filter (45_replay_filter.md R242). -/
theorem mem_afterAdd_filter {s : State} {salt : Bytes} (ha : s.addAnswer = .ok) : salt ∈ (s.afterAdd salt).filter := by
  obtain ⟨F, hs, -, hF⟩ := afterAdd_cases s salt
  rw [hs]
  exact hF ha ▸ mem_saltInsert.2 (.inl rfl)

/-! ### Steps 4 to 6 of UDP_DECRYPT: the draw, then the tag, then the insertion -/

section
variable {D : Descriptor} {salt body : Bytes} {s : State}

theorem udpOpen_primFail (hp : s.env.primFires = true) :
    udpOpen D salt body s = (s.setEnv s.env.afterPrim).respond .internal [] :=
  if_pos hp

theorem udpOpen_authFail (hp : s.env.primFires = false)
    (hd : aeadDec D.method D.key (udpNonce D.method) body = none) :
    udpOpen D salt body s = (s.setEnv s.env.afterPrim).respond .authFail [] := by
  simp [udpOpen, hp, hd]

theorem udpOpen_verified {plain : Bytes} (hp : s.env.primFires = false)
    (hd : aeadDec D.method D.key (udpNonce D.method) body = some plain) :
    udpOpen D salt body s = udpInsert salt plain (s.setEnv s.env.afterPrim) := by
  simp [udpOpen, hp, hd]

/-- The salt is the filter's key only, and a client never probes the filter, so there it does not matter (43_udp.md R185). -/
theorem udpOpen_client_salt (hr : s.cfg.role = .client) (salt' : Bytes) :
    udpOpen D salt body s = udpOpen D salt' body s := by
  cases hp : s.env.primFires with
  | true => rw [udpOpen_primFail hp, udpOpen_primFail hp]
  | false =>
    cases hd : aeadDec D.method D.key (udpNonce D.method) body with
    | none => rw [udpOpen_authFail hp hd, udpOpen_authFail hp hd]
    | some plain =>
      have hr' : (s.setEnv s.env.afterPrim).cfg.role = .client := hr
      rw [udpOpen_verified hp hd, udpOpen_verified hp hd, udpInsert_client _ _ hr', udpInsert_client _ _ hr']

/-- On a server no plaintext is released before the insertion of the salt has succeeded (43_udp.md R183). -/
theorem udpOpen_server_ok {out : Bytes} (hr : s.cfg.role = .server)
    (h : (udpOpen D salt body s).response = some ⟨.ok, out⟩) : salt ∈ (udpOpen D salt body s).filter := by
  cases hp : s.env.primFires with
  | true => simp [udpOpen_primFail hp] at h
  | false =>
    cases hd : aeadDec D.method D.key (udpNonce D.method) body with
    | none => simp [udpOpen_authFail hp hd] at h
    | some plain =>
      rw [udpOpen_verified hp hd] at h ⊢
      cases ha : (s.setEnv s.env.afterPrim).addAnswer with
      | internalError => simp [udpInsert_server_failed salt plain ha hr] at h
      | ok =>
        rw [udpInsert_server_ok salt plain ha hr]
        exact mem_afterAdd_filter ha

end

/-! ### UDP_DECRYPT once accepted: the length, then the replay check -/

section
variable {D : Descriptor} {datagram : Bytes} {s : State}

theorem udpDecryptAccepted_tooShort (hl : datagram.length ≤ keyLen D.method + tagLen) :
    udpDecryptAccepted D datagram s = s.respond .tooShort [] :=
  if_pos hl

variable (hl : keyLen D.method + tagLen < datagram.length)
include hl

theorem udpDecryptAccepted_client (hr : s.cfg.role = .client) :
    udpDecryptAccepted D datagram s =
      udpOpen D (datagram.take (keyLen D.method)) (datagram.drop (keyLen D.method)) s := by
  simp only [udpDecryptAccepted, Nat.not_le.2 hl, if_false, hr]

theorem udpDecryptAccepted_present (hr : s.cfg.role = .server)
    (hc : s.checkAnswer (datagram.take (keyLen D.method)) = .present) :
    udpDecryptAccepted D datagram s = s.afterCheck.respond .replayDetected [] := by
  simp only [udpDecryptAccepted, Nat.not_le.2 hl, if_false, hr, hc]

theorem udpDecryptAccepted_checkFailed (hr : s.cfg.role = .server)
    (hc : s.checkAnswer (datagram.take (keyLen D.method)) = .internalError) :
    udpDecryptAccepted D datagram s = s.afterCheck.respond .internal [] := by
  simp only [udpDecryptAccepted, Nat.not_le.2 hl, if_false, hr, hc]

theorem udpDecryptAccepted_absent (hr : s.cfg.role = .server)
    (hc : s.checkAnswer (datagram.take (keyLen D.method)) = .absent) :
    udpDecryptAccepted D datagram s =
      udpOpen D (datagram.take (keyLen D.method)) (datagram.drop (keyLen D.method)) s.afterCheck := by
  simp only [udpDecryptAccepted, Nat.not_le.2 hl, if_false, hr, hc]

end

/-- On a client a datagram counts by its length and its body alone (43_udp.md R185, R186c). -/
theorem udpDecryptAccepted_client_congr {D : Descriptor} {g g' : Bytes} {s : State} (hr : s.cfg.role = .client)
    (hlen : g.length = g'.length) (hbody : g.drop (keyLen D.method) = g'.drop (keyLen D.method)) :
    udpDecryptAccepted D g s = udpDecryptAccepted D g' s := by
  rcases Nat.lt_or_ge (keyLen D.method + tagLen) g.length with hl | hl
  · rw [udpDecryptAccepted_client hl hr, udpDecryptAccepted_client (hlen ▸ hl) hr, hbody]
    exact udpOpen_client_salt hr _
  · rw [udpDecryptAccepted_tooShort hl, udpDecryptAccepted_tooShort (hlen ▸ hl)]

/-- A datagram that a server answers with `OK` is longer than its salt and a tag, and its salt is in the filter afterwards. -/
theorem udpDecryptAccepted_server_ok {D : Descriptor} {datagram out : Bytes} {s : State} (hr : s.cfg.role = .server)
    (h : (udpDecryptAccepted D datagram s).response = some ⟨.ok, out⟩) :
    keyLen D.method + tagLen < datagram.length ∧
      datagram.take (keyLen D.method) ∈ (udpDecryptAccepted D datagram s).filter := by
  rcases Nat.lt_or_ge (keyLen D.method + tagLen) datagram.length with hl | hl
  · refine ⟨hl, ?_⟩
    cases hc : s.checkAnswer (datagram.take (keyLen D.method)) with
    | present => simp [udpDecryptAccepted_present hl hr hc] at h
    | internalError => simp [udpDecryptAccepted_checkFailed hl hr hc] at h
    | absent =>
      rw [udpDecryptAccepted_absent hl hr hc] at h ⊢
      exact udpOpen_server_ok hr h
  · simp [udpDecryptAccepted_tooShort hl] at h

/-! ### The commands complete -/

/-- Settles O33: the two draws and the AEAD call stand in the command in the statement's order. -/
theorem udpEncryptBuildsTheDatagram : Obligations.UdpEncryptBuildsTheDatagram := by
  intro s d p D hD hv hf
  rw [exec_udpEncrypt (udpDesc_of_bound hD hv hf)]
  rfl

/-- Settles O35: on a client only the draw and the tag decide. -/
theorem udpDecryptOnAClient : Obligations.UdpDecryptOnAClient := by
  intro s d g D hr hD hv hf hl
  rw [exec_udpDecrypt (udpDesc_of_bound hD hv hf), udpDecryptAccepted_client hl hr]
  cases hp : s.env.primFires with
  | true => exact congrArg _ (udpOpen_primFail hp)
  | false =>
    rw [if_neg Bool.false_ne_true]
    split
    · next hd => exact congrArg _ (udpOpen_authFail hp hd)
    · next plain hd => exact congrArg _ ((udpOpen_verified hp hd).trans (udpInsert_client _ plain hr))

/-- Settles O36: the clauses are the branches of the command, in its order. -/
theorem udpDecryptOnAServer : Obligations.UdpDecryptOnAServer := by
  rintro s u d g D _ hr hD hv hf hl rfl hu
  obtain rfl : u = s.afterCheck.setEnv s.afterCheck.env.afterPrim := hu
  refine ⟨_, exec_udpDecrypt (udpDesc_of_bound hD hv hf), udpDecryptAccepted_present hl hr,
    udpDecryptAccepted_checkFailed hl hr,
    fun hc hp => (udpDecryptAccepted_absent hl hr hc).trans (udpOpen_primFail hp), fun hc hp => ?_⟩
  rw [udpDecryptAccepted_absent hl hr hc]
  split
  · next hd => exact udpOpen_authFail hp hd
  · next plain hd =>
    rw [udpOpen_verified hp hd]
    refine ⟨fun ha => ?_, fun ha => udpInsert_server_failed _ plain ha hr⟩
    rw [udpInsert_server_ok _ plain ha hr]
    exact ⟨rfl, mem_afterAdd_filter ha⟩

/-! ### The frame of the UDP commands -/

/-- Settles O40: read off the inversion lemmas of the two commands. -/
theorem udpTouchesNoSlot : Obligations.UdpTouchesNoSlot := by
  refine fun s t d p => ⟨fun h => ?_, fun h => ?_⟩
  · rcases udpEncrypt_cases h with rfl | ⟨D, e, st, out, -, -, -, rfl, -⟩ <;> exact ⟨rfl, rfl, rfl, rfl, rfl⟩
  · rcases udpDecrypt_cases h with rfl | ⟨D, F, e, st, out, -, -, -, rfl, -, hF, -⟩
    · exact ⟨rfl, rfl, rfl, rfl, fun _ => rfl⟩
    · exact ⟨rfl, rfl, rfl, rfl, hF⟩

/-! ### The salt on the wire -/

/-- Settles O39: the two datagrams have one length and one body. -/
theorem udpSaltIsNotAuthenticated : Obligations.UdpSaltIsNotAuthenticated := by
  intro s d salt1 salt2 body D hr hD h1 h2
  have hlen : (salt1 ++ body).length = (salt2 ++ body).length := by simp [h1, h2]
  cases hu : s.udpDesc d (salt1 ++ body).length with
  | none => rw [exec_udpDecrypt_refused hu, exec_udpDecrypt_refused (hlen ▸ hu)]
  | some E =>
    obtain rfl := Option.some.inj (hD.symm.trans (udpDesc_eq_some.1 hu).1)
    rw [exec_udpDecrypt hu, exec_udpDecrypt (hlen ▸ hu)]
    exact congrArg _ (udpDecryptAccepted_client_congr hr hlen ((List.drop_left' h1).trans (List.drop_left' h2).symm))

/-- Settles O38: the accepted salt is in the filter, eviction keeps it, and a faithful check finds it. -/
theorem udpReplayIsRejected : Obligations.UdpReplayIsRejected := by
  rintro s t d g out D hr hD ⟨hexec, hok⟩ hkept hfaithful
  obtain ⟨hdesc, -, hcfg, -⟩ := (udpTouchesNoSlot s t d g).2 hexec
  cases hu : s.udpDesc d g.length with
  | none =>
    rw [exec_udpDecrypt_refused hu] at hexec
    cases hexec
    simp at hok
  | some E =>
    obtain ⟨hE, hv, hf⟩ := udpDesc_eq_some.1 hu
    obtain rfl := Option.some.inj (hD.symm.trans hE)
    obtain rfl := Host.Outcome.next.inj ((exec_udpDecrypt hu).symm.trans hexec)
    obtain ⟨hl, hmem⟩ := udpDecryptAccepted_server_ok hr hok
    have hpresent := (checkAnswer_faithful hfaithful).2 (List.mem_filter.2 ⟨hmem, by simp [hkept]⟩)
    refine ⟨_, exec_udpDecrypt (udpDesc_eq_some.2 ⟨hdesc ▸ hD, hv, hcfg ▸ hf⟩), ?_⟩
    rw [udpDecryptAccepted_present hl (hcfg ▸ hr) hpresent]
    rfl

/-! ### The round trip -/

/-- What `UDP_ENCRYPT` answers for the drawn salt `salt` (43_udp.md R181, R182). -/
def udpDatagram (D : Descriptor) (salt plain : Bytes) : Bytes :=
  salt ++ aeadEnc D.method D.key (udpNonce D.method) plain

theorem exec_udpEncrypt_ok {s : State} {d : Nat} {plain : Bytes} {D : Descriptor}
    (h : s.udpDesc d plain.length = some D) (hrng : s.env.primFires = false)
    (haead : (s.env.afterPrim.afterRng (keyLen D.method)).primFires = false) :
    exec (.udpEncrypt d plain) s =
      .next ((s.setEnv (s.env.afterPrim.afterRng (keyLen D.method)).afterPrim).respond .ok
        (udpDatagram D (s.env.afterPrim.rngBytes (keyLen D.method)) plain)) := by
  simp [exec_udpEncrypt h, udpEncryptAccepted, hrng, haead, udpDatagram]

section
variable {s : State} {D : Descriptor} {salt : Bytes} (hsalt : salt.length = keyLen D.method)
include hsalt

theorem udpDatagram_length (plain : Bytes) :
    (udpDatagram D salt plain).length = keyLen D.method + plain.length + tagLen := by
  simp only [udpDatagram, List.length_append, aeadEnc_length, hsalt]
  omega

theorem udpDatagram_take (plain : Bytes) : (udpDatagram D salt plain).take (keyLen D.method) = salt :=
  List.take_left' hsalt

theorem udpDatagram_drop (plain : Bytes) :
    (udpDatagram D salt plain).drop (keyLen D.method) = aeadEnc D.method D.key (udpNonce D.method) plain :=
  List.drop_left' hsalt

variable {plain : Bytes} (hplain : plain ≠ [])
include hplain

/-- The length test of `UDP_DECRYPT` stops no datagram but that of an empty plaintext (43_udp.md R183). -/
theorem lt_udpDatagram_length : keyLen D.method + tagLen < (udpDatagram D salt plain).length := by
  have := List.length_pos_iff.2 hplain
  rw [udpDatagram_length hsalt]
  omega

variable (hkey : D.key.length = keyLen D.method)
include hkey

/-- The tag verifies under the key and the nonce that made it (42_aead_nonce.md R163). -/
theorem udpDecryptAccepted_datagram_client (hr : s.cfg.role = .client) (hp : s.env.primFires = false) :
    udpDecryptAccepted D (udpDatagram D salt plain) s = (s.setEnv s.env.afterPrim).respond .ok plain := by
  rw [udpDecryptAccepted_client (lt_udpDatagram_length hsalt hplain) hr, udpDatagram_drop hsalt,
    udpOpen_verified hp (aeadDec_aeadEnc plain hkey (zeros_length _))]
  exact udpInsert_client _ plain hr

theorem udpDecryptAccepted_datagram_server (hr : s.cfg.role = .server) (hc : s.checkAnswer salt = .absent)
    (hp : s.afterCheck.env.primFires = false)
    (ha : (s.afterCheck.setEnv s.afterCheck.env.afterPrim).addAnswer = .ok) :
    udpDecryptAccepted D (udpDatagram D salt plain) s =
      ((s.afterCheck.setEnv s.afterCheck.env.afterPrim).afterAdd salt).respond .ok plain := by
  have hc' : s.checkAnswer ((udpDatagram D salt plain).take (keyLen D.method)) = .absent := by
    rwa [udpDatagram_take hsalt]
  rw [udpDecryptAccepted_absent (lt_udpDatagram_length hsalt hplain) hr hc', udpDatagram_take hsalt,
    udpDatagram_drop hsalt, udpOpen_verified hp (aeadDec_aeadEnc plain hkey (zeros_length _))]
  exact udpInsert_server_ok salt plain ha hr

end

/-- Settles O37: the sent datagram passes the length test, its salt and its body come apart where they were joined, and the
receiver finds the state that the sender's draws left. -/
theorem udpRoundTrip : Obligations.UdpRoundTrip := by
  rintro s w d p salt D _ hs hD hv hf hplain rfl hrng haead hw rfl hcase
  obtain rfl : w = s.setEnv (s.env.afterPrim.afterRng (keyLen D.method)).afterPrim := hw
  have hkey := (hs.desc_inv D (List.mem_of_getElem? hD)).key_length_eq
  have hsalt : (s.env.afterPrim.rngBytes (keyLen D.method)).length = keyLen D.method := by simp [Env.rngBytes]
  have hin : s.udpDesc d p.length = some D :=
    udpDesc_of_bound hD hv fun b hb => by
      have := hf b hb
      omega
  have hout : s.udpDesc d (udpDatagram D (s.env.afterPrim.rngBytes (keyLen D.method)) p).length = some D :=
    udpDesc_of_bound hD hv fun b hb => (udpDatagram_length hsalt p).trans_le (hf b hb)
  have hsend := exec_udpEncrypt_ok hin hrng haead
  rcases hcase with ⟨hr, hp⟩ | ⟨hr, hc, hp, ha⟩
  · refine ⟨_, _, _, ⟨hsend, rfl⟩, ⟨Eq.trans (exec_udpDecrypt hout) (congrArg Host.Outcome.next
      (udpDecryptAccepted_datagram_client hsalt hplain hkey hr hp)), rfl⟩, fun h => ?_⟩
    cases hr.symm.trans h
  · exact ⟨_, _, _, ⟨hsend, rfl⟩, ⟨Eq.trans (exec_udpDecrypt hout) (congrArg Host.Outcome.next
      (udpDecryptAccepted_datagram_server hsalt hplain hkey hr hc hp ha)), rfl⟩, fun _ => mem_afterAdd_filter ha⟩

end Sys2Proof.Machine

/-! PROOFS. The family of 44_tcp.md, the encoder: the greedy split, the encoder's loop over a whole plaintext and each answer
of TCP_ENCRYPT. -/

namespace Sys2Proof.Machine

/-! ### The greedy split -/

/-- Cutting off the first piece; a string with no bytes has no pieces. -/
theorem splitUpTo_succ {n : Nat} {p : Bytes} (hp : p ≠ []) :
    splitUpTo (n + 1) p = p.take chunkMax :: splitUpTo n (p.drop chunkMax) := by
  simp [splitUpTo, hp]

theorem splitUpTo_nil (n : Nat) : splitUpTo n [] = [] := by
  cases n <;> rfl

/-- What is left after the first piece needs one pass less. -/
theorem length_drop_chunkMax_le {n : Nat} {p : Bytes} (h : p.length ≤ n + 1) : (p.drop chunkMax).length ≤ n := by
  simp only [List.length_drop, chunkMax]
  omega

theorem flatten_splitUpTo {n : Nat} {p : Bytes} (h : p.length ≤ n) : (splitUpTo n p).flatten = p := by
  induction n generalizing p with
  | zero => simp [splitUpTo, List.length_eq_zero_iff.1 (Nat.le_zero.1 h)]
  | succ n ih =>
    by_cases hp : p = []
    · rw [hp, splitUpTo_nil, List.flatten_nil]
    · rw [splitUpTo_succ hp, List.flatten_cons, ih (length_drop_chunkMax_le h), List.take_append_drop]

/-- Piece `i` is what stands behind `i` full pieces, cut to a full one. -/
theorem getElem?_splitUpTo {n : Nat} {p : Bytes} (h : p.length ≤ n) (i : Nat) :
    (splitUpTo n p)[i]? = if i * chunkMax < p.length then some ((p.drop (i * chunkMax)).take chunkMax) else none := by
  induction n generalizing p i with
  | zero => simp [splitUpTo, Nat.le_zero.1 h]
  | succ n ih =>
    by_cases hp : p = []
    · simp [hp, splitUpTo_nil]
    · rw [splitUpTo_succ hp]
      cases i with
      | zero => simp [List.length_pos_iff.2 hp]
      | succ i =>
        have hlt : i * chunkMax < p.length - chunkMax ↔ (i + 1) * chunkMax < p.length := by
          rw [Nat.succ_mul]
          omega
        simp only [List.getElem?_cons_succ, ih (length_drop_chunkMax_le h), List.length_drop, hlt, List.drop_drop,
          Nat.succ_mul, Nat.add_comm chunkMax]

theorem getElem?_splitChunks (p : Bytes) (i : Nat) :
    (splitChunks p)[i]? = if i * chunkMax < p.length then some ((p.drop (i * chunkMax)).take chunkMax) else none :=
  getElem?_splitUpTo le_rfl i

theorem flatten_splitChunks (p : Bytes) : (splitChunks p).flatten = p := flatten_splitUpTo le_rfl

/-- There is a piece `i` exactly while `i` full pieces do not use up the plaintext (44_tcp.md R204). -/
theorem length_splitChunks (p : Bytes) : (splitChunks p).length = (p.length + 0x3FFE) / 0x3FFF := by
  have key : ∀ i, (splitChunks p).length ≤ i ↔ p.length ≤ i * 0x3FFF := fun i => by
    rw [← List.getElem?_eq_none_iff, getElem?_splitChunks, ite_eq_right_iff, ← Nat.not_lt]
    simp [chunkMax]
  have hlast := key ((p.length + 0x3FFE) / 0x3FFF)
  have hfirst := key ((p.length + 0x3FFE) / 0x3FFF - 1)
  omega

theorem length_of_mem_splitChunks {p q : Bytes} (h : q ∈ splitChunks p) : 1 ≤ q.length ∧ q.length ≤ 0x3FFF := by
  obtain ⟨i, hi⟩ := List.mem_iff_getElem?.1 h
  rw [getElem?_splitChunks] at hi
  split at hi
  · next hlt =>
    cases hi
    simp only [List.length_take, List.length_drop, chunkMax] at hlt ⊢
    omega
  · cases hi

theorem splitChunks_of_length_le {p : Bytes} (hp : p ≠ []) (h : p.length ≤ 0x3FFF) : splitChunks p = [p] := by
  obtain ⟨b, p, rfl⟩ := List.exists_cons_of_ne_nil hp
  have hd : (b :: p).drop chunkMax = [] := List.drop_eq_nil_of_le h
  rw [splitChunks, List.length_cons, splitUpTo_succ hp, hd, splitUpTo_nil, List.take_of_length_le (i := chunkMax) h]

/-- Settles O58: piece `k` is known, and so is whether another one follows. -/
theorem splitIsGreedy : Obligations.SplitIsGreedy := by
  intro p hp
  refine ⟨flatten_splitChunks p, length_splitChunks p, fun k q hq => ?_⟩
  have hlen := length_splitChunks p
  have hbound := length_of_mem_splitChunks (List.mem_of_getElem? hq)
  rw [getElem?_splitChunks] at hq
  split at hq
  · cases hq
    simp only [List.length_take, List.length_drop, chunkMax] at hbound ⊢
    split <;> omega
  · cases hq

/-! ### The draws of a command -/

theorem Env.quiet.mono {a b : Nat} {e : Env} (h : e.quiet b) (hab : a ≤ b) : e.quiet a :=
  (quiet_add (b := b - a)).1 (by rwa [Nat.add_sub_of_le hab]) |>.1

/-! ### The end of a TCP command that raises nothing -/

/-- The state `w` after `draws` more `PrimFail` draws, with the context `y` in slot `c` and the response `(st, out)`
(60_exceptions.md R280). -/
def State.answeredAt (w : State) (c : Nat) (y : Context) (draws : Nat) (st : Status) (out : Bytes) : State :=
  { w with
    env := Env.afterPrim^[draws] w.env
    ctx := w.ctx.set c y
    response := some { status := st, out := out } }

theorem endRun_eq_answeredAt {w : State} {c draws : Nat} {r : Run} (hr : r.raised = none)
    (he : r.env = Env.afterPrim^[draws] w.env) (st : Status) :
    w.endRun c r st = w.answeredAt c r.ctx draws st r.out := by
  rw [endRun_ok hr, he]
  rfl

/-! ### Each answer of TCP_ENCRYPT -/

/-- The subkey that the AEAD calls of a stream under `salt` use (44_tcp.md R203, R209). -/
def streamKey (cfg : Params) (D : Descriptor) (salt : Bytes) : Bytes :=
  (fit 32 (deriveSubkey cfg.personal D.key salt)).take (keyLen D.method)

theorem deriveSubkey_key_length {D : Descriptor} (hD : DescriptorInv D) (personal salt : Bytes) :
    (deriveSubkey personal D.key salt).length = keyLen D.method := by
  have hkey : D.key.length = keyLen D.method := hD.key_length_eq
  have hle : D.key.length ≤ 64 := hkey ▸ (keyLen_le D.method).trans (by decide)
  exact (deriveSubkey_length personal salt hle).trans hkey

/-- On a descriptor of the invariant the derived subkey fills its part of the stored field exactly. -/
theorem fit_deriveSubkey {D : Descriptor} (hD : DescriptorInv D) (personal salt : Bytes) :
    fit 32 (deriveSubkey personal D.key salt) = deriveSubkey personal D.key salt ++ zeros (32 - keyLen D.method) := by
  have hl := deriveSubkey_key_length hD personal salt
  rw [fit_of_length_le (hl ▸ keyLen_le D.method), hl]

theorem streamKey_eq {D : Descriptor} (hD : DescriptorInv D) (cfg : Params) (salt : Bytes) :
    streamKey cfg D salt = deriveSubkey cfg.personal D.key salt := by
  rw [streamKey, fit_deriveSubkey hD, List.take_left' (deriveSubkey_key_length hD _ _)]

/-- The meaningful part of a 32-byte key field has `key_len` bytes (10_state.md R27). -/
theorem take_keyLen_length {m : Method} {k : Bytes} (h : k.length = 32) : (k.take (keyLen m)).length = keyLen m := by
  have := keyLen_le m
  rw [List.length_take, h]
  omega

theorem chunksFrom_length (m : Method) (sk : Bytes) (v : Nat) (qs : List Bytes) :
    (chunksFrom m sk v qs).length = qs.flatten.length + 34 * qs.length := by
  induction qs generalizing v with
  | nil => rfl
  | cons q qs ih =>
    simp only [chunksFrom, List.length_append, aeadEnc_length, be16_length, ih, List.flatten_cons, List.length_cons, tagLen]
    omega

/-- The encoder's loop over a whole plaintext when no status is raised (44_tcp.md R205). -/
theorem endRun_encryptLoop {w : State} {m : Method} {x : Context} {p : Bytes} {v : Nat} (c : Nat) (out : Bytes)
    (hn : x.nonce = nonceField m v) (hb : v + 2 * (splitChunks p).length ≤ 256 ^ nonceLen m - 2)
    (hq : w.env.quiet (2 * (splitChunks p).length)) :
    w.endRun c (encryptLoop m (splitChunks p) { ctx := x, env := w.env, out := out, raised := none }) .ok =
      w.answeredAt c { x with nonce := nonceField m (v + 2 * (splitChunks p).length) } (2 * (splitChunks p).length) .ok
        (out ++ chunksFrom m (x.liveSubkey m) v (splitChunks p)) := by
  have hg := encryptLoop_good [] (splitChunks p) v { ctx := x, env := w.env, out := out, raised := none } rfl hn hb hq
  rw [List.append_nil] at hg
  rw [hg]
  exact endRun_eq_answeredAt rfl rfl .ok

/-- An answer that draws nothing and writes back the context the slot holds is a response only. -/
theorem answeredAt_self {s : State} {c : Nat} {x : Context} (h : s.ctx[c]? = some x) (st : Status) (out : Bytes) :
    s.answeredAt c x 0 st out = s.respond st out :=
  congrArg (State.respond · st out) (setCtx_self h)

/-- The context that the arming call starts its chunks with (44_tcp.md R203). -/
theorem started_keyed (x : Context) (cfg : Params) (D : Descriptor) :
    (x.keyed cfg D).started D.method = x.begun cfg D (x.liveSalt D.method) := by
  rw [Context.started, storedZeroNonce_eq]
  rfl

theorem withNonce_self {x : Context} {n : Bytes} (h : x.nonce = n) : { x with nonce := n } = x := by
  rw [← h]

section
variable {s : State} {c : Nat} {p : Bytes} {x : Context} {D : Descriptor}

theorem tcpEncryptAccepted_armed (hp : p ≠ []) (hi : x.init = true) :
    tcpEncryptAccepted c p x D s = s.endRun c
      (encryptLoop D.method (splitChunks p) { ctx := x, env := s.env, out := [], raised := none }) .ok := by
  simp [tcpEncryptAccepted, hp, hi]

theorem tcpEncryptAccepted_keyFails (hp : p ≠ []) (hi : x.init = false) (hf : s.env.primFires = true) :
    tcpEncryptAccepted c p x D s = (s.setEnv s.env.afterPrim).raise c (x.keyed s.cfg D) .internal := by
  simp [tcpEncryptAccepted, hp, hi, hf]

theorem tcpEncryptAccepted_arms (hp : p ≠ []) (hi : x.init = false) (hf : s.env.primFires = false) :
    tcpEncryptAccepted c p x D s = (s.setEnv s.env.afterPrim).endRun c (encryptLoop D.method (splitChunks p)
      { ctx := x.begun s.cfg D (x.liveSalt D.method), env := s.env.afterPrim, out := x.liveSalt D.method
        raised := none }) .ok := by
  simp only [tcpEncryptAccepted, List.isEmpty_iff, hp, hi, hf, Bool.false_eq_true, if_false, started_keyed]
  rfl

/-- 44_tcp.md R202: the test for no bytes comes before everything else. -/
theorem TcpAccepts.encrypt_nil {n : Nat} (h : TcpAccepts s c .encrypt n x D) :
    exec (.tcpEncrypt c []) s = .next (s.respond .ok []) :=
  TcpAccepts.exec_encrypt (p := []) { h with fits := fun _ _ => Nat.zero_le _ }

/-- An armed context: chunks only. With no bytes there are none, and the stored nonce is the one that stood there. -/
theorem TcpAccepts.encrypt_armed {v : Nat} (h : TcpAccepts s c .encrypt p.length x D) (hi : x.init = true)
    (hn : x.nonce = nonceField D.method v) (hb : v + 2 * (splitChunks p).length ≤ 256 ^ nonceLen D.method - 2)
    (hq : s.env.quiet (2 * (splitChunks p).length)) :
    exec (.tcpEncrypt c p) s = .next
      (s.answeredAt c { x with nonce := nonceField D.method (v + 2 * (splitChunks p).length) }
        (2 * (splitChunks p).length) .ok (chunksFrom D.method (x.liveSubkey D.method) v (splitChunks p))) := by
  by_cases hp : p = []
  · subst hp
    rw [h.encrypt_nil, ← answeredAt_self h.slot]
    exact congrArg (fun y => Host.Outcome.next (s.answeredAt c y 0 .ok [])) (withNonce_self hn).symm
  · rw [h.exec_encrypt, tcpEncryptAccepted_armed hp hi, endRun_encryptLoop c [] hn hb hq, List.nil_append]

/-- The call that arms the context: the salt, then the chunks from nonce zero on (44_tcp.md R203). -/
theorem TcpAccepts.encrypt_arms (h : TcpAccepts s c .encrypt p.length x D) (hp : p ≠ []) (hi : x.init = false)
    (hb : 2 * (splitChunks p).length ≤ 256 ^ nonceLen D.method - 2)
    (hq : s.env.quiet (2 * (splitChunks p).length + 1)) :
    exec (.tcpEncrypt c p) s = .next
      (s.answeredAt c { x.begun s.cfg D (x.liveSalt D.method) with
          nonce := nonceField D.method (2 * (splitChunks p).length) } (2 * (splitChunks p).length + 1) .ok
        (x.liveSalt D.method ++ chunksFrom D.method (streamKey s.cfg D (x.liveSalt D.method)) 0 (splitChunks p))) := by
  obtain ⟨hprim, hquiet⟩ := hq
  have hloop := endRun_encryptLoop (w := s.setEnv s.env.afterPrim) (m := D.method) (v := 0) c (x.liveSalt D.method)
    (x := x.begun s.cfg D (x.liveSalt D.method)) (nonceField_zero _).symm (by rwa [Nat.zero_add]) hquiet
  rw [Nat.zero_add] at hloop
  rw [h.exec_encrypt, tcpEncryptAccepted_arms hp hi hprim]
  exact congrArg Host.Outcome.next hloop

end

/-- Settles O16. -/
theorem tcpEncryptEmptyInputDoesNothing : Obligations.TcpEncryptEmptyInputDoesNothing :=
  fun _ _ _ _ hc hv hdir hx hD =>
    TcpAccepts.encrypt_nil (n := 0) ⟨hc, hv, hdir, hx, hD, fun _ _ => Nat.zero_le _⟩

/-- Settles O17: the arming call with the single piece `p`, its nonces 0, 1 and 2 written out. -/
theorem tcpEncryptFirstChunkCarriesTheSalt : Obligations.TcpEncryptFirstChunkCarriesTheSalt := by
  intro s c p x D sk hs hc hv hdir hx hi hD hp hp' hf hq hsk
  have hacc : TcpAccepts s c .encrypt p.length x D := ⟨hc, hv, hdir, hx, hD, hf⟩
  have hdesc := (hacc.inv hs).2
  have hne : p ≠ [] := List.length_pos_iff.1 hp
  have hone : splitChunks p = [p] := splitChunks_of_length_le hne hp'
  have hpoint : 2 ≤ 256 ^ nonceLen D.method - 2 := by cases D.method <;> decide
  have hexec := hacc.encrypt_arms hne hi (by rwa [hone]) (by rwa [hone])
  have hkey : streamKey s.cfg D (x.liveSalt D.method) = sk := (streamKey_eq hdesc _ _).trans hsk.symm
  have hfield : fit 32 sk = sk ++ zeros (32 - keyLen D.method) := hsk ▸ fit_deriveSubkey hdesc _ _
  have hnonce1 : unle (nonceLen D.method) 1 = [1] ++ zeros (nonceLen D.method - 1) := by cases D.method <;> rfl
  have hnonce2 : nonceField D.method 2 = [2] ++ zeros 23 := by cases D.method <;> rfl
  rw [hexec, hone, hkey]
  simp only [List.length_singleton, Nat.mul_one, chunksFrom, hnonce2, Nat.zero_add, hnonce1, unle_zero, List.append_nil,
    ← List.append_assoc]
  rw [← hfield, hsk]
  rfl

/-- The exhaustion point is even, so below it there is room for a whole chunk (10_state.md R31, 42_aead_nonce.md R171). -/
theorem LiveContextInv.room_for_chunk {m : Method} {x : Context} (h : LiveContextInv m x)
    (hlt : le (x.nonce.take (nonceLen m)) < 256 ^ nonceLen m - 2) :
    le (x.nonce.take (nonceLen m)) + 2 ≤ 256 ^ nonceLen m - 2 := by
  have heven : le (x.nonce.take (nonceLen m)) % 2 = 0 := h.nonce_even
  have hpoint : 256 ^ nonceLen m % 2 = 0 :=
    Nat.mod_eq_zero_of_dvd (dvd_pow (by decide) (by have := nonceLen_pos m; omega))
  omega

/-- The value of a nonce up to the exhaustion point is read back from its string. -/
theorem le_unle_of_le_point {m : Method} {v : Nat} (h : v ≤ 256 ^ nonceLen m - 2) : le (unle (nonceLen m) v) = v := by
  have : 0 < 256 ^ nonceLen m := by positivity
  rw [le_unle, Nat.mod_eq_of_lt (by omega)]

theorem le_take_nonceField {m : Method} {v : Nat} (h : v ≤ 256 ^ nonceLen m - 2) :
    le ((nonceField m v).take (nonceLen m)) = v :=
  (congrArg le (liveNonce_nonceField m v)).trans (le_unle_of_le_point h)

/-- Settles O18: the three nonces are the strings of the stored value and of the next two. -/
theorem tcpEncryptOneChunk : Obligations.TcpEncryptOneChunk := by
  intro s c p x D sk n0 hs hc hv hdir hx hi hD hp hp' hf hsk hn0 hlt hq
  have hacc : TcpAccepts s c .encrypt p.length x D := ⟨hc, hv, hdir, hx, hD, hf⟩
  have hlive := (hacc.inv hs).1
  have hroom := hlive.room_for_chunk (hn0 ▸ hlt)
  have hone : splitChunks p = [p] := splitChunks_of_length_le (List.length_pos_iff.1 hp) hp'
  have hexec := hacc.encrypt_armed hi hlive.nonce_eq (by rwa [hone]) (by rwa [hone])
  rw [← hn0] at hroom hexec
  have hstr : unle (nonceLen D.method) (le n0) = n0 := by
    have hlen : n0.length = nonceLen D.method := hn0 ▸ liveNonce_length hlive.nonce_length
    rw [← hlen, unle_le]
  refine ⟨unle (nonceLen D.method) (le n0 + 1), unle (nonceLen D.method) (le n0 + 2), unle_length _ _, unle_length _ _,
    le_unle_of_le_point (by omega), le_unle_of_le_point hroom, ?_⟩
  rw [hexec, hone]
  simp only [chunksFrom, List.append_nil, hstr, hsk]
  rfl

/-- Settles O19: both answers are known exactly, and a chunk is 34 bytes longer than its piece. -/
theorem tcpEncryptOutputLengthAndNonce : Obligations.TcpEncryptOutputLengthAndNonce := by
  intro s c p x D n hs hc hv hdir hx hD hp hf hn hroom hq
  have hacc : TcpAccepts s c .encrypt p.length x D := ⟨hc, hv, hdir, hx, hD, hf⟩
  have hlive := (hacc.inv hs).1
  obtain rfl : n = (splitChunks p).length := hn.trans (length_splitChunks p).symm
  cases hi : x.init with
  | true =>
    refine ⟨_, _, _, hacc.encrypt_armed hi hlive.nonce_eq hroom (hq.mono (by omega)), rfl, ?_, rfl, hi, hx,
      le_take_nonceField hroom⟩
    rw [chunksFrom_length, flatten_splitChunks]
    simp
  | false =>
    have hzero : le (x.nonce.take (nonceLen D.method)) = 0 := by
      rw [hlive.start_nonce hi, ← nonceField_zero D.method, le_take_nonceField (Nat.zero_le _)]
    rw [hzero, Nat.zero_add] at hroom ⊢
    refine ⟨_, _, _, hacc.encrypt_arms (List.length_pos_iff.1 hp) hi hroom (hq.mono (by omega)), rfl, ?_, rfl, rfl, hx,
      le_take_nonceField hroom⟩
    have hsalt : (x.liveSalt D.method).length = keyLen D.method := take_keyLen_length hlive.salt_length
    rw [List.length_append, hsalt, chunksFrom_length, flatten_splitChunks]
    simp [Nat.add_assoc]

/-! ### An AEAD call of the encoder fails -/

section
variable {m : Method} {qs : List Bytes} {r : Run} (hqs : qs ≠ []) (hs : nonceSpent m r.ctx.nonce = false)
include hqs hs

theorem encryptLoop_headerFails (hf : r.env.primFires = true) :
    encryptLoop m qs r = { r with env := r.env.afterPrim, raised := some .internal } := by
  obtain ⟨q, qs, rfl⟩ := List.exists_cons_of_ne_nil hqs
  have hp : encryptPass m q r = { r with env := r.env.afterPrim, raised := some .internal } := by
    simp [encryptPass, hs, hf]
  simp only [encryptLoop, hp]

theorem encryptLoop_payloadFails (hq : r.env.primFires = false) (hf : r.env.afterPrim.primFires = true) :
    encryptLoop m qs r = { r with env := r.env.afterPrim.afterPrim, raised := some .internal } := by
  obtain ⟨q, qs, rfl⟩ := List.exists_cons_of_ne_nil hqs
  have hp : encryptPass m q r = { r with env := r.env.afterPrim.afterPrim, raised := some .internal } := by
    simp [encryptPass, hs, hq, hf]
  simp only [encryptLoop, hp]

end

end Sys2Proof.Machine

/-! PROOFS. The family of 44_tcp.md, the decoder: each end of a pass, the salt, the stream of a running context, and the statuses
that a pass raises. -/

namespace Sys2Proof.Machine

/-! ### Each end of a pass of the decoder's loop -/

/-- Steps 5 and 6 when the payload's AEAD call does not fail (44_tcp.md R214). -/
theorem decryptPayload_eq {m : Method} {x : Context} {n : Nat} {e : Env} (hq : e.primFires = false) :
    decryptPayload m x n e =
      match aeadDec m (x.liveSubkey m) (nonceInc (liveNonce m x.nonce)) ((x.rbuf.drop 18).take (n + 16)) with
      | none => .raised .authFail e.afterPrim
      | some plain => .took { x with rbuf := x.rbuf.drop (34 + n), nonce := nonceAfterChunk m x.nonce } e.afterPrim plain := by
  have hpeek : x.rbufPeek (2 + tagLen) (2 + 2 * tagLen + n) = (x.rbuf.drop 18).take (n + 16) := by
    rw [Context.rbufPeek, show 2 + 2 * tagLen + n - (2 + tagLen) = n + 16 by simp only [tagLen]; omega]
    rfl
  simp only [decryptPayload, hq, hpeek, Bool.false_eq_true, if_false] <;> rfl

section
variable {m : Method} {x : Context} {e : Env} (hl : 34 < x.rbuf.length) (hs : nonceSpent m x.nonce = false)
include hl hs

/-- R218 at the length header. -/
theorem decryptPass_headerFails (hf : e.primFires = true) : decryptPass m x e = .raised .internal e.afterPrim := by
  simp only [decryptPass, hs, hf, tagLen]
  exact if_neg (Nat.not_le.2 hl)

variable (hq : e.primFires = false)
include hq

/-- Past the tests a pass decrypts the length header (44_tcp.md R211). -/
theorem decryptPass_header : decryptPass m x e =
    match aeadDec m (x.liveSubkey m) (liveNonce m x.nonce) (x.rbuf.take 18) with
    | none => .raised .authFail e.afterPrim
    | some lr =>
      if unbe16 lr = 0 ∨ chunkMax < unbe16 lr then .raised .authFail e.afterPrim
      else if x.rbuf.length < 34 + unbe16 lr then .stop e.afterPrim
      else decryptPayload m x (unbe16 lr) e.afterPrim := by
  have hlong : ¬ x.rbuf.length ≤ 2 + 2 * tagLen := Nat.not_le.2 hl
  simp only [decryptPass, hs, hq, if_neg hlong, Bool.false_eq_true, if_false, rbufPeek_zero] <;> rfl

/-- R211: the header does not verify. -/
theorem decryptPass_headerRejected
    (hdec : aeadDec m (x.liveSubkey m) (liveNonce m x.nonce) (x.rbuf.take 18) = none) :
    decryptPass m x e = .raised .authFail e.afterPrim := by
  rw [decryptPass_header hl hs hq, hdec]

variable {lr : Bytes} (hdec : aeadDec m (x.liveSubkey m) (liveNonce m x.nonce) (x.rbuf.take 18) = some lr)
include hdec

/-- R212: a verified length that no chunk has. -/
theorem decryptPass_illegalLength (hlr : unbe16 lr = 0 ∨ 0x3FFF < unbe16 lr) :
    decryptPass m x e = .raised .authFail e.afterPrim := by
  rw [decryptPass_header hl hs hq, hdec]
  exact if_pos hlr

variable (hpos : 1 ≤ unbe16 lr) (hmax : unbe16 lr ≤ 0x3FFF)
include hpos hmax

/-- R213: the chunk is not wholly buffered. -/
theorem decryptPass_partial (hpart : x.rbuf.length < 34 + unbe16 lr) : decryptPass m x e = .stop e.afterPrim := by
  rw [decryptPass_header hl hs hq, hdec]
  exact (if_neg (by simp only [chunkMax]; omega)).trans (if_pos hpart)

variable (hfull : 34 + unbe16 lr ≤ x.rbuf.length)
include hfull

/-- R214: a wholly buffered chunk. -/
theorem decryptPass_payload : decryptPass m x e = decryptPayload m x (unbe16 lr) e.afterPrim := by
  rw [decryptPass_header hl hs hq, hdec]
  exact (if_neg (by simp only [chunkMax]; omega)).trans (if_neg (Nat.not_lt.2 hfull))

/-- R218 at the payload. -/
theorem decryptPass_payloadFails (hf : e.afterPrim.primFires = true) :
    decryptPass m x e = .raised .internal e.afterPrim.afterPrim := by
  rw [decryptPass_payload hl hs hq hdec hpos hmax hfull]
  exact if_pos hf

variable (hq' : e.afterPrim.primFires = false)
include hq'

/-- R214: the payload does not verify. -/
theorem decryptPass_payloadRejected
    (hpay : aeadDec m (x.liveSubkey m) (nonceInc (liveNonce m x.nonce)) ((x.rbuf.drop 18).take (unbe16 lr + 16)) = none) :
    decryptPass m x e = .raised .authFail e.afterPrim.afterPrim := by
  rw [decryptPass_payload hl hs hq hdec hpos hmax hfull, decryptPayload_eq hq', hpay]

/-- R214: the chunk is consumed. -/
theorem decryptPass_consumed {plain : Bytes}
    (hpay : aeadDec m (x.liveSubkey m) (nonceInc (liveNonce m x.nonce)) ((x.rbuf.drop 18).take (unbe16 lr + 16)) =
      some plain) :
    decryptPass m x e = .took { x with rbuf := x.rbuf.drop (34 + unbe16 lr), nonce := nonceAfterChunk m x.nonce }
      e.afterPrim.afterPrim plain := by
  rw [decryptPass_payload hl hs hq hdec hpos hmax hfull, decryptPayload_eq hq', hpay]

end

/-! ### What TCP_DECRYPT answers when a pass ends its loop -/

/-- A pass that raises a status had more than 34 bytes to look at (44_tcp.md R210). -/
theorem lt_length_of_decryptPass_raised {m : Method} {x : Context} {e e' : Env} {st : Status}
    (h : decryptPass m x e = .raised st e') : 34 < x.rbuf.length := by
  by_contra hle
  rw [decryptPass_short (Nat.not_lt.1 hle)] at h
  cases h

/-- The first pass raises a status: fatal entry on the context as the loop found it. -/
theorem tcpDecrypt_firstPass_raised {s w : State} {c draws : Nat} {p : Bytes} {y : Context} {D : Descriptor} {st : Status}
    (h : DecryptStarts s c p y D w) (hp : decryptPass D.method y w.env = .raised st (Env.afterPrim^[draws] w.env)) :
    exec (.tcpDecrypt c p) s = .next (w.diedAt c y draws st) := by
  obtain ⟨n, hn⟩ := Nat.exists_eq_succ_of_ne_zero (Nat.ne_zero_of_lt (lt_length_of_decryptPass_raised hp))
  rw [h.exec, tcpStream, hn]
  simp only [decryptLoop, hp]
  exact congrArg _ (endRun_eq_diedAt rfl rfl)

/-- The draws of the good chunks and then those of the failing one. -/
theorem iterate_afterPrim_add (a b : Nat) (e : Env) :
    Env.afterPrim^[b] (Env.afterPrim^[a] e) = Env.afterPrim^[a + b] e := by
  rw [Nat.add_comm, Function.iterate_add_apply]

/-- The pass after the good chunks raises a status: fatal entry past them (44_tcp.md R217). -/
theorem tcpDecrypt_laterPass_raised {s w : State} {c v draws : Nat} {p rest : Bytes} {y : Context} {D : Descriptor}
    {good : List Bytes} {st : Status} (h : DecryptAtChunk s c p y D w good rest v)
    (hp : decryptPass D.method { y with nonce := nonceField D.method v, rbuf := rest }
      (Env.afterPrim^[2 * good.length] w.env) = .raised st (Env.afterPrim^[draws] (Env.afterPrim^[2 * good.length] w.env))) :
    exec (.tcpDecrypt c p) s = .next
      (w.diedAt c { y with nonce := nonceField D.method v, rbuf := rest } (2 * good.length + draws) st) := by
  obtain ⟨n, r, hexec, rfl⟩ := h.exec
  rw [hexec]
  simp only [decryptLoop, hp]
  exact congrArg _ (endRun_eq_diedAt rfl (iterate_afterPrim_add _ _ _))

/-- Below the exhaustion point a pass may begin (42_aead_nonce.md R171). -/
theorem nonceSpent_eq_false {m : Method} {stored : Bytes} (h : le (stored.take (nonceLen m)) < 256 ^ nonceLen m - 2) :
    nonceSpent m stored = false :=
  decide_eq_false (Nat.not_le.2 h)

theorem nonceSpent_nonceField_lt {m : Method} {v : Nat} (h : v < 256 ^ nonceLen m - 2) :
    nonceSpent m (nonceField m v) = false := by
  rw [nonceSpent_nonceField h.le]
  exact decide_eq_false h.ne

/-! ### The salt of a TCP_DECRYPT -/

/-- With at most 34 bytes buffered the decoder's loop does nothing, however many passes are allowed (44_tcp.md R210). -/
theorem decryptLoop_short {m : Method} {r : Run} (h : r.ctx.rbuf.length ≤ 34) (n : Nat) : decryptLoop m n r = r := by
  cases n with
  | zero => rfl
  | succ n => simp only [decryptLoop, decryptPass_short h]

theorem tcpStream_short {s : State} {x : Context} {m : Method} (c : Nat) (h : x.rbuf.length ≤ 34) :
    tcpStream c x m s = s.answeredAt c x 0 .needMore [] := by
  rw [tcpStream, decryptLoop_short h]
  exact endRun_eq_answeredAt rfl rfl _

theorem afterAdd_env (s : State) (salt : Bytes) : (s.afterAdd salt).env = s.env.afterForget.afterAdd := by
  obtain ⟨F, hs, -⟩ := afterAdd_cases s salt
  rw [hs]

/-- An insertion brings in the salt and nothing else (45_replay_filter.md R242). -/
theorem mem_of_mem_afterAdd {s : State} {salt t : Bytes} (h : t ∈ (s.afterAdd salt).filter) : t = salt ∨ t ∈ s.filter := by
  obtain ⟨F, hs, hF, -⟩ := afterAdd_cases s salt
  rw [hs] at h
  rcases hF with rfl | rfl
  · exact .inr (mem_of_mem_evict h)
  · exact (mem_saltInsert.1 h).imp_right mem_of_mem_evict

/-- The replay probe lets the salt pass and leaves the state `u`: there is none on a client, and on a server the check answers
`Absent` and the insertion `Ok` (44_tcp.md R209, 45_replay_filter.md R246). -/
def ProbePasses (s : State) (salt : Bytes) (u : State) : Prop :=
  s.cfg.role = .client ∧ u = s ∨
    s.cfg.role = .server ∧ s.checkAnswer salt = .absent ∧ s.afterCheck.addAnswer = .ok ∧ u = s.afterCheck.afterAdd salt

section
variable {s u : State} {c : Nat} {p salt : Bytes} {x : Context} {D : Descriptor}

theorem ProbePasses.cfg_eq (h : ProbePasses s salt u) : u.cfg = s.cfg := by
  rcases h with ⟨-, rfl⟩ | ⟨-, -, -, rfl⟩
  · rfl
  · rw [State.afterAdd_cfg, State.afterCheck_cfg]

/-- The derivation fails: the salt and the computed subkey stay in the dead context (44_tcp.md R208,
notes/assumptions/12.md). -/
theorem tcpStreamStart_keyFails (hl : salt.length = keyLen D.method) (hf : u.env.primFires = true) :
    tcpStreamStart c { x with salt := fit 32 salt } D u =
      u.diedAt c { x.withSubkey u.cfg D salt with salt := fit 32 salt } 1 .internal := by
  simp only [tcpStreamStart, hf, if_true, keyed_fit hl]
  rfl

/-- The stream begins, with too few bytes behind the salt for a chunk (44_tcp.md R209, R210). -/
theorem tcpStreamStart_short (hD : DescriptorInv D) (hl : salt.length = keyLen D.method) (hf : u.env.primFires = false)
    (hshort : x.rbuf.length ≤ keyLen D.method + 34) :
    tcpStreamStart c { x with salt := fit 32 salt } D u = u.answeredAt c
      { x with
        init := true
        salt := fit 32 salt
        subkey := deriveSubkey u.cfg.personal D.key salt ++ zeros (32 - keyLen D.method)
        nonce := zeros 24
        rbuf := x.rbuf.drop (keyLen D.method) } 1 .needMore [] := by
  rw [tcpStreamStart_begun hf hl, tcpStream_short c (by rw [List.length_drop]; omega), ← fit_deriveSubkey hD]
  rfl

/-- From the derivation on the filter is left alone (45_replay_filter.md R246). -/
theorem tcpStreamStart_filter (hx : x.dead = false) (hi : x.init = false) : (tcpStreamStart c x D u).filter = u.filter := by
  obtain ⟨_, _, _, ⟨⟨e, ht⟩, _⟩, _⟩ := tcpStreamStart_answer (s := u) (c := c) (D := D) hx hi
  rw [ht]

variable (h : TcpAccepts s c .decrypt p.length x D) (hi : x.init = false)
include h hi

/-- 44_tcp.md R209: bytes short of a salt are kept. -/
theorem TcpAccepts.decrypt_awaits (hl : (x.rbuf ++ p).length < keyLen D.method) :
    exec (.tcpDecrypt c p) s = .next (s.answeredAt c { x with rbuf := x.rbuf ++ p } 0 .needMore []) := by
  have hshort : (x.rbufAppend p).rbuf.length < keyLen D.method := hl
  rw [h.exec_decrypt]
  simp only [tcpDecryptAccepted, if_neg (Bool.eq_false_iff.1 hi), if_pos hshort]
  rfl

variable (hl : keyLen D.method ≤ (x.rbuf ++ p).length) (hsalt : salt = (x.rbuf ++ p).take (keyLen D.method))
include hl hsalt

/-- 44_tcp.md R208: past the probe the subkey is derived. -/
theorem TcpAccepts.decrypt_derives (hprobe : ProbePasses s salt u) : exec (.tcpDecrypt c p) s =
    .next (tcpStreamStart c { x with salt := fit 32 salt, rbuf := x.rbuf ++ p } D u) := by
  rw [h.exec_decrypt, tcpDecryptAccepted_salt hi hl, tcpTakeSalt]
  rcases hprobe with ⟨hr, rfl⟩ | ⟨hr, hc, ha, rfl⟩
  · simp only [rbufPeek_zero, hr, Context.rbufAppend, ← hsalt]
  · simp only [rbufPeek_zero, hr, Context.rbufAppend, ← hsalt, hc, ha]

/-- 45_replay_filter.md R245, R246: `Present`, or a check that fails. -/
theorem TcpAccepts.decrypt_rejects (hr : s.cfg.role = .server) (hc : s.checkAnswer salt ≠ .absent) :
    exec (.tcpDecrypt c p) s = .next (s.afterCheck.diedAt c { x with salt := fit 32 salt, rbuf := x.rbuf ++ p } 0
      (if s.checkAnswer salt = .present then .replayDetected else .internal)) := by
  rw [h.exec_decrypt, tcpDecryptAccepted_salt hi hl, tcpTakeSalt]
  simp only [rbufPeek_zero, hr, Context.rbufAppend, ← hsalt]
  cases ha : s.checkAnswer salt with
  | absent => exact absurd ha hc
  | present => rfl
  | internalError => rfl

/-- 45_replay_filter.md R245, R246: the insertion fails. -/
theorem TcpAccepts.decrypt_addFails (hr : s.cfg.role = .server) (hc : s.checkAnswer salt = .absent)
    (ha : s.afterCheck.addAnswer = .internalError) : exec (.tcpDecrypt c p) s = .next
      ((s.afterCheck.afterAdd salt).diedAt c { x with salt := fit 32 salt, rbuf := x.rbuf ++ p } 0 .internal) := by
  rw [h.exec_decrypt, tcpDecryptAccepted_salt hi hl, tcpTakeSalt]
  simp only [rbufPeek_zero, hr, Context.rbufAppend, ← hsalt, hc, ha]
  rfl

end

/-- The stored field of a whole salt (10_state.md R27). -/
theorem fit_salt {m : Method} {b salt : Bytes} (hsalt : salt = b.take (keyLen m)) (hl : keyLen m ≤ b.length) :
    salt.length = keyLen m ∧ fit 32 salt = salt ++ zeros (32 - keyLen m) := by
  have hlen : salt.length = keyLen m := by
    rw [hsalt, List.length_take]
    omega
  exact ⟨hlen, by rw [fit_of_length_le (hlen ▸ keyLen_le m), hlen]⟩

/-- Settles O22. -/
theorem tcpDecryptAwaitsTheSalt : Obligations.TcpDecryptAwaitsTheSalt := by
  intro s c p x D hc hv hdir hx hi hD hf hlen
  exact TcpAccepts.decrypt_awaits ⟨hc, hv, hdir, hx, hD, hf⟩ hi (by rwa [List.length_append])

/-- Settles O23. -/
theorem tcpDecryptTakesTheSaltOnAClient : Obligations.TcpDecryptTakesTheSaltOnAClient := by
  intro s c p x D salt hs hr hc hv hdir hx hi hD hf hle hshort hsalt hprim
  have hacc : TcpAccepts s c .decrypt p.length x D := ⟨hc, hv, hdir, hx, hD, hf⟩
  rw [← List.length_append] at hle hshort
  obtain ⟨hlen, hfit⟩ := fit_salt hsalt hle
  rw [hacc.decrypt_derives hi hle hsalt (.inl ⟨hr, rfl⟩),
    tcpStreamStart_short (x := { x with rbuf := x.rbuf ++ p }) (hacc.inv hs).2 hlen hprim hshort, hfit]
  rfl

/-- Settles O24: the filter is what the insertion left, and no part of the command behind the insertion touches it. -/
theorem tcpDecryptRecordsTheSaltFirst : Obligations.TcpDecryptRecordsTheSaltFirst := by
  intro s c p x D salt hr hc hv hdir hx hi hD hf hle hsalt hcheck hadd
  have hacc : TcpAccepts s c .decrypt p.length x D := ⟨hc, hv, hdir, hx, hD, hf⟩
  rw [← List.length_append] at hle ⊢
  obtain ⟨hlen, hfit⟩ := fit_salt hsalt hle
  have hexec := hacc.decrypt_derives hi hle hsalt (.inr ⟨hr, hcheck, hadd, rfl⟩)
  have hfilter := tcpStreamStart_filter (u := s.afterCheck.afterAdd salt) (c := c) (D := D)
    (x := { x with salt := fit 32 salt, rbuf := x.rbuf ++ p }) hx hi
  refine ⟨_, hexec, ?_, fun u hu => ?_, fun hs hshort hprim => ?_⟩
  · rw [hfilter]
    exact mem_afterAdd_filter hadd
  · rw [hfilter] at hu
    exact (mem_of_mem_afterAdd hu).imp_right mem_of_mem_evict
  · rw [tcpStreamStart_short (x := { x with rbuf := x.rbuf ++ p }) (hacc.inv hs).2 hlen hprim hshort, hfit]
    simp only [State.answeredAt, State.afterAdd_ctx, State.afterAdd_cfg]
    rfl

/-- Settles O25. -/
theorem tcpDecryptRejectsAReplayedSalt : Obligations.TcpDecryptRejectsAReplayedSalt := by
  intro s c p x D salt hr hc hv hdir hx hi hD hf hle hsalt hcheck
  rw [← List.length_append] at hle
  obtain ⟨-, hfit⟩ := fit_salt hsalt hle
  refine ⟨_, TcpAccepts.decrypt_rejects ⟨hc, hv, hdir, hx, hD, hf⟩ hi hle hsalt hr hcheck, rfl, ?_, rfl, rfl,
    fun u hu => mem_of_mem_evict hu⟩
  rw [← hfit]
  rfl

/-- Settles O26. -/
theorem tcpDecryptFailedInsertionIsFatal : Obligations.TcpDecryptFailedInsertionIsFatal := by
  intro s c p x D salt hr hc hv hdir hx hi hD hf hle hsalt hcheck hadd
  rw [← List.length_append] at hle
  obtain ⟨-, hfit⟩ := fit_salt hsalt hle
  refine ⟨_, TcpAccepts.decrypt_addFails ⟨hc, hv, hdir, hx, hD, hf⟩ hi hle hsalt hr hcheck hadd, rfl, ?_,
    State.afterAdd_desc _ _, (congrArg Env.prim (afterAdd_env s.afterCheck salt)).trans rfl, rfl⟩
  rw [← hfit]
  exact congrArg (List.set · c _) (State.afterAdd_ctx _ _)

/-! ### The stream of a running context -/

/-- Settles O27. -/
theorem tcpDecryptShortBufferNeedsMore : Obligations.TcpDecryptShortBufferNeedsMore := by
  intro s c p x D hc hv hdir hx hi hD hf hshort
  rw [(DecryptStarts.streaming ⟨hc, hv, hdir, hx, hD, hf⟩ hi).exec,
    tcpStream_short c (by rwa [List.length_append])]
  rfl

/-- A first pass that stops leaves the context as the loop found it: no nonce is committed (44_tcp.md R213). -/
theorem tcpStream_stop {s : State} {m : Method} {x : Context} {draws : Nat} (c : Nat) (hl : 34 < x.rbuf.length)
    (hp : decryptPass m x s.env = .stop (Env.afterPrim^[draws] s.env)) :
    tcpStream c x m s = s.answeredAt c x draws .needMore [] := by
  obtain ⟨n, hn⟩ := Nat.exists_eq_succ_of_ne_zero (Nat.ne_zero_of_lt hl)
  rw [tcpStream, hn]
  simp only [decryptLoop, hp]
  exact endRun_eq_answeredAt rfl rfl _

/-- Settles O28. -/
theorem tcpDecryptPartialChunkKeepsTheNonce : Obligations.TcpDecryptPartialChunkKeepsTheNonce := by
  intro s c p x D lr hc hv hdir hx hi hD hf hlong hlt hq hdec hpos hmax hpart
  rw [← List.length_append] at hlong hpart
  have hpass := decryptPass_partial (x := { x with rbuf := x.rbuf ++ p }) hlong (nonceSpent_eq_false hlt) hq hdec hpos hmax
    hpart
  rw [(DecryptStarts.streaming ⟨hc, hv, hdir, hx, hD, hf⟩ hi).exec, tcpStream_stop (draws := 1) c hlong hpass]
  rfl

/-- A first pass that consumes a chunk and leaves too little for a second one (44_tcp.md R214, R216). -/
theorem tcpStream_took {s : State} {m : Method} {x x' : Context} {draws : Nat} {plain : Bytes} (c : Nat)
    (hp : decryptPass m x s.env = .took x' (Env.afterPrim^[draws] s.env) plain) (hshort : x'.rbuf.length ≤ 34) :
    tcpStream c x m s = s.answeredAt c x' draws .ok plain := by
  obtain ⟨mlen, hpos, -, hplain, hfull, -, -⟩ := decryptPass_took hp
  obtain ⟨n, hn⟩ : ∃ n, x.rbuf.length = n + 1 := ⟨x.rbuf.length - 1, by omega⟩
  have hok : decryptStatus plain = .ok := by
    cases plain with
    | nil => simp at hplain; omega
    | cons => rfl
  have hrest := decryptLoop_short (m := m)
    (r := { ctx := x', env := Env.afterPrim^[draws] s.env, out := plain, raised := none }) hshort n
  rw [tcpStream, hn]
  simp only [decryptLoop, hp, List.nil_append, hrest, hok]
  exact endRun_eq_answeredAt rfl rfl _

/-- Settles O29. -/
theorem tcpDecryptWholeChunkIsConsumed : Obligations.TcpDecryptWholeChunkIsConsumed := by
  intro s c p x D lr plain n0 hc hv hdir hx hi hD hf hn0 hlt hq hdec hpos hmax hfull hrest hpay
  subst hn0
  obtain ⟨hq1, hq2, -⟩ := hq
  rw [← List.length_append] at hfull hrest
  have hpass := decryptPass_consumed (x := { x with rbuf := x.rbuf ++ p }) (show 34 < (x.rbuf ++ p).length by omega)
    (nonceSpent_eq_false hlt) hq1 hdec hpos hmax hfull hq2 hpay
  have hlen : (nonceInc (nonceInc (liveNonce D.method x.nonce))).length = (x.nonce.take (nonceLen D.method)).length := by
    rw [nonceInc_length, nonceInc_length, liveNonce]
  have hnonce : nonceAfterChunk D.method x.nonce = nonceInc (nonceInc (x.nonce.take (nonceLen D.method))) ++
      zeros (24 - (x.nonce.take (nonceLen D.method)).length) := by
    have hfits : (x.nonce.take (nonceLen D.method)).length ≤ 24 := (List.length_take_le _ _).trans (nonceLen_le _)
    rw [nonceAfterChunk, storeNonce, fit_of_length_le (hlen.trans_le hfits), hlen]
    rfl
  rw [(DecryptStarts.streaming ⟨hc, hv, hdir, hx, hD, hf⟩ hi).exec,
    tcpStream_took (draws := 2) c hpass (by simp only [List.length_drop]; omega), ← hnonce]
  rfl

/-- Settles O30: both AEAD calls find what the encoder wrote, so this is a whole chunk with nothing behind it. -/
theorem tcpDecryptReturnsAnEncryptedChunk : Obligations.TcpDecryptReturnsAnEncryptedChunk := by
  intro s c p q x D sk n0 hs hc hv hdir hx hi hD hf hsk hn0 hlt hq hpos hmax hwire
  obtain ⟨hlive, -⟩ := TcpAccepts.inv (n := p.length) ⟨hc, hv, hdir, hx, hD, hf⟩ hs
  have hklen : sk.length = keyLen D.method := hsk ▸ take_keyLen_length hlive.subkey_length
  have hnlen : n0.length = nonceLen D.method := hn0 ▸ liveNonce_length hlive.nonce_length
  have hheader : (aeadEnc D.method sk n0 (be16 q.length)).length = 18 := by simp [tagLen]
  have hbody : (aeadEnc D.method sk (nonceInc n0) q).length = q.length + 16 := by simp [tagLen]
  have hlen : x.rbuf.length + p.length = 34 + q.length := by
    rw [← List.length_append, hwire, List.length_append, hheader, hbody]
    omega
  have hmlen : unbe16 (be16 q.length) = q.length := unbe16_be16 (by omega)
  have hexec := tcpDecryptWholeChunkIsConsumed s c p x D (be16 q.length) q n0 hc hv hdir hx hi hD hf hn0 hlt hq
  rw [hwire, List.take_left' hheader, List.drop_left' hheader, hmlen, hnlen, ← hsk] at hexec
  rw [hexec (aeadDec_aeadEnc _ hklen hnlen) hpos hmax hlen.ge (by omega)
    (by rw [List.take_of_length_le hbody.le]; exact aeadDec_aeadEnc q hklen (by rw [nonceInc_length, hnlen])),
    List.drop_eq_nil_of_le (by rw [List.length_append, hheader, hbody]; omega)]

/-! ### A pass that raises a status -/

/-- Settles O31. -/
theorem tcpDecryptIllegalLengthIsFatal : Obligations.TcpDecryptIllegalLengthIsFatal := by
  refine ⟨fun s c p x D lr hc hv hdir hx hi hD hf hlong hlt hq hdec hlr => ?_,
    fun s w c v p rest lr y D good h hlt hq hdec hlr => ?_⟩
  · rw [← List.length_append] at hlong
    have hpass := decryptPass_illegalLength (x := { x with rbuf := x.rbuf ++ p }) hlong (nonceSpent_eq_false hlt) hq hdec hlr
    exact tcpDecrypt_firstPass_raised (draws := 1) (.streaming ⟨hc, hv, hdir, hx, hD, hf⟩ hi) hpass
  · rw [← liveNonce_nonceField] at hdec
    exact tcpDecrypt_laterPass_raised (draws := 1) h
      (decryptPass_illegalLength h.more (nonceSpent_nonceField_lt hlt) hq hdec hlr)

/-- Settles O32. -/
theorem tcpDecryptTagFailureIsFatal : Obligations.TcpDecryptTagFailureIsFatal := by
  refine ⟨fun s c p x D hc hv hdir hx hi hD hf hlong hlt hq => ?_, fun s w c v p rest y D good e h hlt he hq => ?_⟩
  · have hstarts : DecryptStarts s c p { x with rbuf := x.rbuf ++ p } D s := .streaming ⟨hc, hv, hdir, hx, hD, hf⟩ hi
    rw [← List.length_append] at hlong ⊢
    have hs := nonceSpent_eq_false hlt
    refine ⟨_, hstarts.exec, fun hdec => ?_, fun lr hdec hpos hmax hfull hq' hpay => ?_⟩ <;>
      refine Host.Outcome.next.inj (hstarts.exec.symm.trans ?_)
    · exact tcpDecrypt_firstPass_raised (draws := 1) hstarts (decryptPass_headerRejected hlong hs hq hdec)
    · exact tcpDecrypt_firstPass_raised (draws := 2) hstarts
        (decryptPass_payloadRejected hlong hs hq hdec hpos hmax hfull hq' hpay)
  · subst he
    have hs := nonceSpent_nonceField_lt hlt
    have hnext : nonceInc (unle (nonceLen D.method) v) = unle (nonceLen D.method) (v + 1) := nonceInc_unle (by omega)
    obtain ⟨n, r, hexec, -⟩ := h.exec
    rw [← hnext, ← liveNonce_nonceField]
    refine ⟨_, hexec, fun hdec => ?_, fun lr hdec hpos hmax hfull hq' hpay => ?_⟩ <;>
      refine Host.Outcome.next.inj (hexec.symm.trans ?_)
    · exact tcpDecrypt_laterPass_raised (draws := 1) h (decryptPass_headerRejected h.more hs hq hdec)
    · exact tcpDecrypt_laterPass_raised (draws := 2) h
        (decryptPass_payloadRejected h.more hs hq hdec hpos hmax hfull hq' hpay)

/-- Settles O21: the failing draw is the derivation's, or that of the next pass of a command that has started. -/
theorem primFailKillsATcpContext : Obligations.PrimFailKillsATcpContext := by
  refine ⟨fun s c p x D hc hv hx hi hD hf hlt hfire => ⟨fun hdir hp => ?_, fun hdir hlong => ?_⟩,
    fun s w c n v p y D e h hlt he => ?_, fun s w c v p rest y D good e h hlt he => ?_,
    fun s c p x D hacc hi hp hfire => ?_, fun s u c p salt x D hacc hi hl hsalt hprobe hfire => ?_⟩
  · obtain ⟨out, hexec⟩ := (EncryptStarts.armed ⟨hc, hv, hdir, hx, hD, hf⟩ hp hi).exec
    rw [hexec, encryptLoop_headerFails (splitChunks_ne_nil hp) (nonceSpent_eq_false hlt) hfire]
    exact congrArg _ (endRun_eq_diedAt (draws := 1) rfl rfl)
  · rw [← List.length_append] at hlong
    have hpass := decryptPass_headerFails (x := { x with rbuf := x.rbuf ++ p }) hlong (nonceSpent_eq_false hlt) hfire
    exact tcpDecrypt_firstPass_raised (draws := 1) (.streaming ⟨hc, hv, hdir, hx, hD, hf⟩ hi) hpass
  · subst he
    obtain ⟨q, rs, out, hexec⟩ := h.exec
    have hs := nonceSpent_nonceField_lt hlt
    refine ⟨fun hfire => ?_, fun hq hfire => ?_⟩ <;> rw [hexec]
    · rw [encryptLoop_headerFails (List.cons_ne_nil q rs) hs hfire]
      exact congrArg _ (endRun_eq_diedAt rfl (iterate_afterPrim_add _ 1 _))
    · rw [encryptLoop_payloadFails (List.cons_ne_nil q rs) hs hq hfire]
      exact congrArg _ (endRun_eq_diedAt rfl (iterate_afterPrim_add _ 2 _))
  · subst he
    have hs := nonceSpent_nonceField_lt hlt
    refine ⟨fun hfire => ?_, fun lr hq hdec hpos hmax hfull hfire => ?_⟩
    · exact tcpDecrypt_laterPass_raised (draws := 1) h (decryptPass_headerFails h.more hs hfire)
    · rw [← liveNonce_nonceField] at hdec
      exact tcpDecrypt_laterPass_raised (draws := 2) h (decryptPass_payloadFails h.more hs hq hdec hpos hmax hfull hfire)
  · rw [hacc.exec_encrypt, tcpEncryptAccepted_keyFails hp hi hfire]
    rfl
  · have hlen := (fit_salt hsalt hl).1
    have hcfg : u.cfg = s.cfg := ProbePasses.cfg_eq hprobe
    rw [hacc.decrypt_derives hi hl hsalt hprobe,
      tcpStreamStart_keyFails (x := { x with rbuf := x.rbuf ++ p }) hlen hfire, hcfg]
    rfl

end Sys2Proof.Machine

/-! PROOFS. The round trip of 44_tcp.md R223: the sender's wire, what a decrypt context makes of any beginning of it, and the two
runs put together. -/

namespace Sys2Proof.Machine

/-! ### The pieces of the plaintexts -/

/-- The pieces that one `TCP_ENCRYPT` for each plaintext makes (44_tcp.md R204). -/
def pieces (ps : List Bytes) : List Bytes := ps.flatMap splitChunks

theorem pieces_cons (p : Bytes) (ps : List Bytes) : pieces (p :: ps) = splitChunks p ++ pieces ps := List.flatMap_cons

theorem length_pieces (ps : List Bytes) : (pieces ps).length = chunkCount ps := List.length_flatMap

theorem flatten_pieces (ps : List Bytes) : (pieces ps).flatten = ps.flatten := by
  induction ps with
  | nil => rfl
  | cons p ps ih => rw [pieces_cons, List.flatten_append, flatten_splitChunks, ih, List.flatten_cons]

theorem length_of_mem_pieces {ps : List Bytes} {q : Bytes} (h : q ∈ pieces ps) : 1 ≤ q.length ∧ q.length ≤ 0x3FFF := by
  obtain ⟨p, -, hq⟩ := List.mem_flatMap.1 h
  exact length_of_mem_splitChunks hq

theorem chunkCount_cons (p : Bytes) (ps : List Bytes) : chunkCount (p :: ps) = (splitChunks p).length + chunkCount ps := rfl

theorem chunksFrom_append (m : Method) (sk : Bytes) (v : Nat) (qs rs : List Bytes) :
    chunksFrom m sk v (qs ++ rs) = chunksFrom m sk v qs ++ chunksFrom m sk (v + 2 * qs.length) rs := by
  induction qs generalizing v with
  | nil => rfl
  | cons q qs ih =>
    simp only [List.cons_append, chunksFrom, ih, List.append_assoc, List.length_cons]
    rw [show v + 2 + 2 * qs.length = v + 2 * (qs.length + 1) by omega]

theorem chunksFrom_cons (m : Method) (sk : Bytes) (v : Nat) (q : Bytes) (qs : List Bytes) :
    chunksFrom m sk v (q :: qs) = chunksFrom m sk v [q] ++ chunksFrom m sk (v + 2) qs :=
  chunksFrom_append m sk v [q] qs

/-- All that a stream of the pieces `qs` puts on the wire: nothing for no pieces, else the salt and the chunks
(30_encoding.md R90). -/
def streamWire (cfg : Params) (D : Descriptor) (salt : Bytes) (qs : List Bytes) : Bytes :=
  if qs = [] then [] else salt ++ chunksFrom D.method (streamKey cfg D salt) 0 qs

theorem streamWire_of_ne_nil {cfg : Params} {D : Descriptor} {salt : Bytes} {qs : List Bytes} (h : qs ≠ []) :
    streamWire cfg D salt qs = salt ++ chunksFrom D.method (streamKey cfg D salt) 0 qs := if_neg h

section
variable {cfg : Params} {D : Descriptor} {salt b : Bytes} {qs : List Bytes} (hsalt : salt.length = keyLen D.method)
include hsalt

/-- Less than a salt is the whole wire only when no piece was sent. -/
theorem eq_nil_of_streamWire_short (h : b = streamWire cfg D salt qs) (hb : b.length < keyLen D.method) : qs = [] := by
  by_contra hne
  rw [h, streamWire_of_ne_nil hne, List.length_append, hsalt] at hb
  omega

/-- A beginning of the wire that holds the salt: the chunks stand behind it. -/
theorem streamWire_cut {future : Bytes} (h : b ++ future = streamWire cfg D salt qs) (hb : keyLen D.method ≤ b.length) :
    salt = b.take (keyLen D.method) ∧
      b.drop (keyLen D.method) ++ future = chunksFrom D.method (streamKey cfg D salt) 0 qs := by
  have hne : qs ≠ [] := by
    rintro rfl
    have hnil : b = [] := (List.append_eq_nil_iff.1 h).1
    have := keyLen_pos D.method
    simp only [hnil, List.length_nil] at hb
    omega
  rw [streamWire_of_ne_nil hne] at h
  constructor
  · rw [← List.take_append_of_le_length (l₂ := future) hb, h, List.take_left' hsalt]
  · rw [← List.drop_append_of_le_length hb, h, List.drop_left' hsalt]

end

/-! ### Runs of TCP commands on one context -/

/-- A TCP command of direction `dir` is accepted on the context `x` of slot `c` with an input of any length. -/
structure AcceptsAny (s : State) (c : Nat) (dir : Direction) (x : Context) (D : Descriptor) : Prop where
  inv : s.Inv
  unbounded : s.cfg.maxIn = none
  accepts : TcpAccepts s c dir 0 x D

/-- The fields of a context that no TCP command changes but by fatal entry. -/
structure SameBinding (x y : Context) : Prop where
  valid : y.valid = x.valid
  desc : y.desc = x.desc
  dir : y.dir = x.dir
  dead : y.dead = x.dead

/-- From `s` to `t` only TCP commands on slot `c` have run, without a filter: they have left the context `y` there and have
taken `draws` draws. -/
structure WorkedOn (s t : State) (c : Nat) (y : Context) (draws : Nat) : Prop where
  inv : t.Inv
  cfg : t.cfg = s.cfg
  desc : t.desc = s.desc
  ctx : t.ctx = s.ctx.set c y
  env : t.env = Env.afterPrim^[draws] s.env

section
variable {s t u : State} {c : Nat} {x y z : Context} {D : Descriptor} {dir : Direction} {i j : Nat}

theorem AcceptsAny.of_length (h : AcceptsAny s c dir x D) (n : Nat) : TcpAccepts s c dir n x D :=
  { h.accepts with fits := by simp [h.unbounded] }

theorem WorkedOn.refl (hs : s.Inv) (hc : s.ctx[c]? = some x) : WorkedOn s s c x 0 :=
  ⟨hs, rfl, rfl, (congrArg State.ctx (setCtx_self hc)).symm, rfl⟩

theorem WorkedOn.trans (h : WorkedOn s t c y i) (h' : WorkedOn t u c z j) : WorkedOn s u c z (i + j) :=
  ⟨h'.inv, h'.cfg.trans h.cfg, h'.desc.trans h.desc, by rw [h'.ctx, h.ctx, List.set_set],
    by rw [h'.env, h.env, iterate_afterPrim_add]⟩

theorem workedOn_of_exec {ins : Instr} {st : Status} {out : Bytes} (hs : s.Inv)
    (h : exec ins s = .next (s.answeredAt c y j st out)) : WorkedOn s (s.answeredAt c y j st out) c y j :=
  ⟨exec_inv hs h, rfl, rfl, rfl, rfl⟩

theorem WorkedOn.getElem?_self (h : WorkedOn s t c y i) (hc : s.ctx[c]? = some x) : t.ctx[c]? = some y := by
  obtain ⟨hlt, -⟩ := List.getElem?_eq_some_iff.1 hc
  rw [h.ctx, List.getElem?_set_self hlt]

theorem WorkedOn.getElem?_ne (h : WorkedOn s t c y i) {k : Nat} (hk : c ≠ k) : t.ctx[k]? = s.ctx[k]? := by
  rw [h.ctx, List.getElem?_set_ne hk]

theorem WorkedOn.acceptsAny (h : WorkedOn s t c y i) (ha : AcceptsAny s c dir x D) (hy : SameBinding x y) :
    AcceptsAny t c dir y D where
  inv := h.inv
  unbounded := h.cfg ▸ ha.unbounded
  accepts :=
    { slot := h.getElem?_self ha.accepts.slot
      valid := hy.valid.trans ha.accepts.valid
      dir_eq := hy.dir.trans ha.accepts.dir_eq
      live := hy.dead.trans ha.accepts.live
      desc := by rw [h.desc, hy.desc]; exact ha.accepts.desc
      fits := fun _ _ => Nat.zero_le _ }

end

/-- A context whose stream has not begun has the nonce zero (10_state.md R31). -/
theorem AcceptsAny.nonce_of_start {s : State} {c : Nat} {dir : Direction} {x : Context} {D : Descriptor}
    (h : AcceptsAny s c dir x D) (hi : x.init = false) : x.nonce = nonceField D.method 0 :=
  ((h.accepts.inv h.inv).1.start_nonce hi).trans (nonceField_zero _).symm

/-! ### The sender -/

theorem sendAll_cons {s t : State} {c : Nat} {p out : Bytes} (ps : List Bytes) (h : exec (.tcpEncrypt c p) s = .next t)
    (hr : t.response = some { status := .ok, out := out }) :
    sendAll c (p :: ps) s = (sendAll c ps t).map fun w => (out ++ w.1, w.2) := by
  simp only [sendAll, h, hr]

/-- An armed context sends the chunks of all pieces, one after another. -/
theorem sendAll_armed {c : Nat} {D : Descriptor} (ps : List Bytes) {s : State} {x : Context} {v : Nat}
    (ha : AcceptsAny s c .encrypt x D) (hi : x.init = true) (hn : x.nonce = nonceField D.method v)
    (hroom : v + 2 * chunkCount ps ≤ 256 ^ nonceLen D.method - 2) (hq : s.env.quiet (2 * chunkCount ps)) :
    ∃ t, sendAll c ps s = some (chunksFrom D.method (x.liveSubkey D.method) v (pieces ps), t) ∧
      WorkedOn s t c { x with nonce := nonceField D.method (v + 2 * chunkCount ps) } (2 * chunkCount ps) := by
  induction ps generalizing s x v with
  | nil =>
    exact ⟨s, rfl, (withNonce_self hn).symm ▸ .refl ha.inv ha.accepts.slot⟩
  | cons p ps ih =>
    rw [chunkCount_cons, Nat.mul_add] at hroom hq ⊢
    obtain ⟨hq1, hq2⟩ := quiet_add.1 hq
    have hexec := (ha.of_length p.length).encrypt_armed hi hn (by omega) hq1
    have hwork := workedOn_of_exec ha.inv hexec
    obtain ⟨t, hsend, hrest⟩ := ih (hwork.acceptsAny ha ⟨rfl, rfl, rfl, rfl⟩) hi rfl (by omega) hq2
    refine ⟨t, ?_, ?_⟩
    · rw [sendAll_cons ps hexec rfl, hsend, pieces_cons, chunksFrom_append]
      rfl
    · have := hwork.trans hrest
      rwa [Nat.add_assoc] at this

/-- A fresh context sends the salt before its first chunk; empty plaintexts leave it fresh (44_tcp.md R202, R203). -/
theorem sendAll_fresh {c : Nat} {D : Descriptor} {x : Context} (hi : x.init = false) (ps : List Bytes) {s : State}
    (ha : AcceptsAny s c .encrypt x D) (hroom : 2 * chunkCount ps ≤ 256 ^ nonceLen D.method - 2)
    (hq : s.env.quiet (2 * chunkCount ps + 1)) :
    ∃ t y draws, sendAll c ps s = some (streamWire s.cfg D (x.liveSalt D.method) (pieces ps), t) ∧
      WorkedOn s t c y draws ∧ draws ≤ 2 * chunkCount ps + 1 ∧ y.nonce = nonceField D.method (2 * chunkCount ps) := by
  induction ps generalizing s with
  | nil =>
    exact ⟨s, x, 0, rfl, .refl ha.inv ha.accepts.slot, Nat.zero_le _, ha.nonce_of_start hi⟩
  | cons p ps ih =>
    rw [chunkCount_cons, Nat.mul_add] at hroom hq ⊢
    by_cases hp : p = []
    · subst hp
      have hnone : 2 * (splitChunks []).length = 0 := rfl
      rw [hnone, Nat.zero_add] at hroom hq ⊢
      have hexec := ha.accepts.encrypt_nil
      rw [← answeredAt_self ha.accepts.slot] at hexec
      have hwork := workedOn_of_exec ha.inv hexec
      obtain ⟨t, y, draws, hsend, hrest, hdraws, hnonce⟩ :=
        ih (hwork.acceptsAny ha ⟨rfl, rfl, rfl, rfl⟩) hroom hq
      refine ⟨t, y, 0 + draws, ?_, hwork.trans hrest, by omega, hnonce⟩
      rw [sendAll_cons ps hexec rfl, hsend, pieces_cons]
      rfl
    · rw [Nat.add_right_comm] at hq ⊢
      obtain ⟨hq1, hq2⟩ := quiet_add.1 hq
      have hexec := (ha.of_length p.length).encrypt_arms hp hi (by omega) hq1
      have hwork := workedOn_of_exec ha.inv hexec
      obtain ⟨t, hsend, hrest⟩ := sendAll_armed ps (hwork.acceptsAny ha ⟨rfl, rfl, rfl, rfl⟩) rfl rfl hroom hq2
      refine ⟨t, _, _, ?_, hwork.trans hrest, le_rfl, rfl⟩
      have hne : splitChunks p ++ pieces ps ≠ [] := List.append_ne_nil_of_left_ne_nil (splitChunks_ne_nil hp) _
      rw [sendAll_cons ps hexec rfl, hsend, pieces_cons, streamWire_of_ne_nil hne, chunksFrom_append, Nat.zero_add,
        ← List.append_assoc]
      rfl

/-! ### What has arrived of the wire -/

/-- Whatever arrived of the chunks of the pieces `qs` is some whole chunks and a part of the next one. -/
theorem exists_wholeChunks_and_part {m : Method} {sk future : Bytes} (qs : List Bytes) {v : Nat} {b : Bytes}
    (h : b ++ future = chunksFrom m sk v qs) : ∃ done left rest, qs = done ++ left ∧ b = chunksFrom m sk v done ++ rest ∧
      rest ++ future = chunksFrom m sk (v + 2 * done.length) left ∧ ∀ q ∈ left.head?, rest.length < 34 + q.length := by
  induction qs generalizing v b with
  | nil => exact ⟨[], [], b, rfl, rfl, h, by simp⟩
  | cons q qs ih =>
    by_cases hpart : b.length < 34 + q.length
    · exact ⟨[], q :: qs, b, rfl, rfl, h, by simpa using hpart⟩
    · have hchunk : (chunksFrom m sk v [q]).length = 34 + q.length := by simp [chunksFrom_length, Nat.add_comm]
      rw [chunksFrom_cons] at h
      obtain ⟨b', rfl⟩ : ∃ b', b = chunksFrom m sk v [q] ++ b' := by
        have htake : b.take (34 + q.length) = chunksFrom m sk v [q] := by
          rw [← List.take_append_of_le_length (l₂ := future) (Nat.not_lt.1 hpart), h, List.take_left' hchunk]
        exact ⟨b.drop (34 + q.length), by rw [← htake, List.take_append_drop]⟩
      rw [List.append_assoc] at h
      obtain ⟨done, left, rest, rfl, rfl, hrest, hhead⟩ := ih (List.append_cancel_left h)
      refine ⟨q :: done, left, rest, rfl, ?_, ?_, hhead⟩
      · rw [chunksFrom_cons m sk v q done, List.append_assoc]
      · rw [hrest, List.length_cons, Nat.mul_succ, Nat.add_assoc, Nat.add_comm 2]

/-- A pass on a part of a chunk stops: at once, or behind a length header that verifies (44_tcp.md R210, R213). -/
theorem decryptPass_part {m : Method} {x : Context} {e : Env} {v : Nat} {left : List Bytes} {future : Bytes}
    (hk : (x.liveSubkey m).length = keyLen m) (hn : x.nonce = nonceField m v)
    (hroom : v + 2 * left.length ≤ 256 ^ nonceLen m - 2) (hlegal : ∀ q ∈ left, 1 ≤ q.length ∧ q.length ≤ 0x3FFF)
    (he : e.primFires = false) (hwire : x.rbuf ++ future = chunksFrom m (x.liveSubkey m) v left)
    (hpart : ∀ q ∈ left.head?, x.rbuf.length < 34 + q.length) :
    ∃ k ≤ 1, decryptPass m x e = .stop (Env.afterPrim^[k] e) := by
  by_cases hl : 34 < x.rbuf.length
  · cases left with
    | nil =>
      have hnil : x.rbuf = [] := (List.append_eq_nil_iff.1 hwire).1
      simp [hnil] at hl
    | cons q left =>
      obtain ⟨hpos, hmax⟩ := hlegal q (by simp)
      rw [List.length_cons] at hroom
      have hs : nonceSpent m x.nonce = false := hn ▸ nonceSpent_nonceField_lt (by omega)
      have hheader : x.rbuf.take 18 = aeadEnc m (x.liveSubkey m) (unle (nonceLen m) v) (be16 q.length) := by
        rw [← List.take_append_of_le_length (l₂ := future) (show 18 ≤ x.rbuf.length by omega), hwire, chunksFrom,
          List.append_assoc]
        exact List.take_left' (by simp [tagLen])
      have hdec : aeadDec m (x.liveSubkey m) (liveNonce m x.nonce) (x.rbuf.take 18) = some (be16 q.length) := by
        rw [hheader, hn, liveNonce_nonceField]
        exact aeadDec_aeadEnc _ hk (unle_length _ _)
      have hmlen : unbe16 (be16 q.length) = q.length := unbe16_be16 (by omega)
      exact ⟨1, le_rfl, decryptPass_partial hl hs he hdec (by omega) (by omega) (by rw [hmlen]; exact hpart q rfl)⟩
  · exact ⟨0, Nat.zero_le _, decryptPass_short (Nat.not_lt.1 hl)⟩

/-! ### The receiver -/

theorem receiveAll_cons {s t : State} {c : Nat} {p out : Bytes} (cuts : List Bytes)
    (h : exec (.tcpDecrypt c p) s = .next t) (hr : t.response = some { status := decryptStatus out, out := out }) :
    receiveAll c (p :: cuts) s = (receiveAll c cuts t).map fun w => (out ++ w.1, w.2) := by
  cases out with
  | nil =>
    simp only [receiveAll, h, hr, decryptStatus, List.isEmpty_nil, if_true, List.nil_append]
    exact Option.map_id'.symm
  | cons b out => simp [receiveAll, h, hr, decryptStatus]

/-- A command that has come to its loop with a beginning of the wire consumes the whole chunks and keeps the part behind them
(44_tcp.md R213 to R216). -/
theorem tcpDecrypt_takes_wholeChunks {s w : State} {c v : Nat} {p future : Bytes} {y : Context} {D : Descriptor} {qs : List Bytes}
    (hs : s.Inv) (h : DecryptStarts s c p y D w) (hn : y.nonce = nonceField D.method v)
    (hlegal : ∀ q ∈ qs, 1 ≤ q.length ∧ q.length ≤ 0x3FFF) (hroom : v + 2 * qs.length ≤ 256 ^ nonceLen D.method - 2)
    (hq : w.env.quiet (2 * qs.length + 1)) (hwire : y.rbuf ++ future = chunksFrom D.method (y.liveSubkey D.method) v qs) :
    ∃ done left rest k, qs = done ++ left ∧ k ≤ 1 ∧
      rest ++ future = chunksFrom D.method (y.liveSubkey D.method) (v + 2 * done.length) left ∧
      (∀ q ∈ left.head?, rest.length < 34 + q.length) ∧
      exec (.tcpDecrypt c p) s = .next (w.answeredAt c
        { y with nonce := nonceField D.method (v + 2 * done.length), rbuf := rest } (2 * done.length + k)
        (decryptStatus done.flatten) done.flatten) := by
  have hk := (h.ctx hs).2
  obtain ⟨done, left, rest, rfl, hbuf, hrest, hhead⟩ := exists_wholeChunks_and_part qs hwire
  rw [List.length_append] at hroom hq
  obtain ⟨hq1, hq2⟩ := quiet_add.1 (hq.mono (show 2 * done.length + 1 ≤ _ by omega))
  obtain ⟨k, hk1, hpass⟩ := decryptPass_part
    (x := { y with nonce := nonceField D.method (v + 2 * done.length), rbuf := rest }) hk rfl
    (by rw [Nat.mul_add] at hroom; omega) (fun q hq => hlegal q (List.mem_append_right _ hq)) hq2.1 hrest hhead
  refine ⟨done, left, rest, k, rfl, hk1, hrest, hhead, ?_⟩
  have hgood := decryptLoop_good (y.rbuf.length + 1) rest done v { ctx := y, env := w.env, out := [], raised := none } rfl hn
    hk (fun q hq => hlegal q (List.mem_append_left _ hq)) (by omega) hq1 hbuf
  have hmore := decryptLoop_more (m := D.method) (k := y.rbuf.length + 1 + done.length)
    (r := { ctx := y, env := w.env, out := [], raised := none }) le_rfl (Nat.le_add_right_of_le (Nat.le_succ _))
  rw [h.exec, tcpStream, ← hmore, hgood]
  simp only [decryptLoop, hpass, List.nil_append]
  exact congrArg _ (endRun_eq_answeredAt rfl (iterate_afterPrim_add _ _ _) _)

/-- The decrypt context `x` is in STREAM with nothing but a part of a chunk buffered, and `future` is what the wire still holds
behind that part: the chunks of the pieces `left`, the first under the nonce of value `v`. -/
structure Streaming (s : State) (c : Nat) (x : Context) (D : Descriptor) (future : Bytes) (left : List Bytes) (v : Nat) :
    Prop extends AcceptsAny s c .decrypt x D where
  init : x.init = true
  nonce : x.nonce = nonceField D.method v
  legal : ∀ q ∈ left, 1 ≤ q.length ∧ q.length ≤ 0x3FFF
  room : v + 2 * left.length ≤ 256 ^ nonceLen D.method - 2
  wire : x.rbuf ++ future = chunksFrom D.method (x.liveSubkey D.method) v left
  part : ∀ q ∈ left.head?, x.rbuf.length < 34 + q.length

/-- With the whole wire delivered no part of a chunk is left over. -/
theorem Streaming.finished {s : State} {c v : Nat} {x : Context} {D : Descriptor} {left : List Bytes}
    (h : Streaming s c x D [] left v) : left = [] ∧ x.rbuf = [] := by
  have hwire := h.wire
  rw [List.append_nil] at hwire
  cases left with
  | nil => exact ⟨rfl, hwire⟩
  | cons q left =>
    have hpart := h.part q rfl
    rw [hwire, chunksFrom_length, List.flatten_cons, List.length_append, List.length_cons] at hpart
    omega

/-- A delivery to a context in STREAM, or one that brings the salt and `i = 1` more draw. -/
theorem delivery_streams {s w : State} {c v i : Nat} {p future : Bytes} {x y : Context} {D : Descriptor} {qs : List Bytes}
    (ha : AcceptsAny s c .decrypt x D) (h : DecryptStarts s c p y D w) (hw : w = s.setEnv (Env.afterPrim^[i] s.env))
    (hy : SameBinding x y) (hi : y.init = true) (hn : y.nonce = nonceField D.method v)
    (hlegal : ∀ q ∈ qs, 1 ≤ q.length ∧ q.length ≤ 0x3FFF) (hroom : v + 2 * qs.length ≤ 256 ^ nonceLen D.method - 2)
    (hq : s.env.quiet (i + (2 * qs.length + 1)))
    (hwire : y.rbuf ++ future = chunksFrom D.method (y.liveSubkey D.method) v qs) :
    ∃ done left t z draws, qs = done ++ left ∧ draws ≤ i + 2 * done.length + 1 ∧ exec (.tcpDecrypt c p) s = .next t ∧
      t.response = some { status := decryptStatus done.flatten, out := done.flatten } ∧ WorkedOn s t c z draws ∧
      Streaming t c z D future left (v + 2 * done.length) := by
  subst hw
  obtain ⟨done, left, rest, k, rfl, hk, hrest, hhead, hexec⟩ :=
    tcpDecrypt_takes_wholeChunks ha.inv h hn hlegal hroom (quiet_add.1 hq).2 hwire
  have hwork : WorkedOn s _ c _ (i + (2 * done.length + k)) :=
    ⟨exec_inv ha.inv hexec, rfl, rfl, rfl, iterate_afterPrim_add _ _ _⟩
  rw [List.length_append, Nat.mul_add, ← Nat.add_assoc] at hroom
  exact ⟨done, left, _, _, _, rfl, by omega, hexec, rfl, hwork,
    { hwork.acceptsAny ha ⟨hy.valid, hy.desc, hy.dir, hy.dead⟩ with
      init := hi
      nonce := rfl
      legal := fun q hq => hlegal q (List.mem_append_right _ hq)
      room := hroom
      wire := hrest
      part := hhead }⟩

/-- What the deliveries `cuts` come to: the plaintext of `left`, no fatal status, the buffer empty and the nonce at the value
`v`. -/
def Received (s : State) (c : Nat) (D : Descriptor) (cuts left : List Bytes) (v : Nat) : Prop :=
  ∃ u y draws, receiveAll c cuts s = some (left.flatten, u) ∧ WorkedOn s u c y draws ∧
    y.nonce = nonceField D.method v ∧ y.rbuf = [] ∧ y.dead = false

/-- A delivery and then the others. -/
theorem Received.cons {s t : State} {c v draws : Nat} {D : Descriptor} {p : Bytes} {cuts done left : List Bytes} {y : Context}
    (hexec : exec (.tcpDecrypt c p) s = .next t)
    (hr : t.response = some { status := decryptStatus done.flatten, out := done.flatten }) (hwork : WorkedOn s t c y draws)
    (h : Received t c D cuts left v) : Received s c D (p :: cuts) (done ++ left) v := by
  obtain ⟨u, z, k, hrec, hrest, hz⟩ := h
  refine ⟨u, z, _, ?_, hwork.trans hrest, hz⟩
  rw [receiveAll_cons cuts hexec hr, hrec, List.flatten_append]
  rfl

/-- Deliveries to a context in STREAM, each with one draw to spare for a length header that is decrypted again
(44_tcp.md R213). -/
theorem receiveAll_streaming {c : Nat} {D : Descriptor} (cuts : List Bytes) {s : State} {x : Context} {left : List Bytes}
    {v : Nat} (h : Streaming s c x D cuts.flatten left v) (hq : s.env.quiet (2 * left.length + cuts.length)) :
    Received s c D cuts left (v + 2 * left.length) := by
  induction cuts generalizing s x left v with
  | nil =>
    obtain ⟨rfl, hbuf⟩ := h.finished
    exact ⟨s, x, 0, rfl, .refl h.inv h.accepts.slot, h.nonce, hbuf, h.accepts.live⟩
  | cons p cuts ih =>
    rw [List.length_cons] at hq
    obtain ⟨done, rest, t, z, draws, rfl, hdraws, hexec, hr, hwork, hstream⟩ := delivery_streams (i := 0)
      h.toAcceptsAny (.streaming (h.of_length p.length) h.init) rfl ⟨rfl, rfl, rfl, rfl⟩ h.init h.nonce h.legal h.room
      (hq.mono (by omega)) (by rw [List.append_assoc]; exact h.wire)
    rw [List.length_append, Nat.mul_add] at hq
    rw [List.length_append, Nat.mul_add, ← Nat.add_assoc]
    refine .cons hexec hr hwork (ih hstream ?_)
    rw [hwork.env]
    exact (quiet_add.1 (hq.mono (show draws + (2 * rest.length + cuts.length) ≤ _ by omega))).2

/-- Deliveries to a context that awaits its salt: of nothing, if no piece was sent, or of the salt and the chunks. -/
theorem receiveAll_awaiting {c : Nat} {D : Descriptor} {salt : Bytes} (hsalt : salt.length = keyLen D.method)
    {qs : List Bytes} (hlegal : ∀ q ∈ qs, 1 ≤ q.length ∧ q.length ≤ 0x3FFF)
    (hroom : 2 * qs.length ≤ 256 ^ nonceLen D.method - 2) (cuts : List Bytes) {s : State} {x : Context}
    (ha : AcceptsAny s c .decrypt x D) (hr : s.cfg.role = .client) (hi : x.init = false)
    (hwire : x.rbuf ++ cuts.flatten = streamWire s.cfg D salt qs) (hshort : x.rbuf.length < keyLen D.method)
    (hq : s.env.quiet (1 + 2 * qs.length + cuts.length)) : Received s c D cuts qs (2 * qs.length) := by
  induction cuts generalizing s x with
  | nil =>
    rw [List.flatten_nil, List.append_nil] at hwire
    obtain rfl : qs = [] := eq_nil_of_streamWire_short hsalt hwire hshort
    exact ⟨s, x, 0, rfl, .refl ha.inv ha.accepts.slot, ha.nonce_of_start hi, hwire, ha.accepts.live⟩
  | cons p cuts ih =>
    rw [List.flatten_cons, ← List.append_assoc] at hwire
    rw [List.length_cons] at hq
    have hacc := ha.of_length p.length
    by_cases hl : (x.rbuf ++ p).length < keyLen D.method
    · have hexec := hacc.decrypt_awaits hi hl
      have hwork := workedOn_of_exec ha.inv hexec
      exact .cons (done := []) hexec rfl hwork
        (ih (hwork.acceptsAny ha ⟨rfl, rfl, rfl, rfl⟩) hr hi hwire hl (hq.mono (by omega)))
    · have hle := Nat.not_lt.1 hl
      obtain ⟨htake, hdrop⟩ := streamWire_cut hsalt hwire hle
      obtain ⟨hprim, -⟩ : s.env.quiet (0 + 1) := hq.mono (by omega)
      obtain ⟨done, left, t, z, draws, rfl, hdraws, hexec, hresp, hwork, hstream⟩ := delivery_streams (i := 1) ha
        (.onAClient hacc hi hr hle htake hprim) rfl ⟨rfl, rfl, rfl, rfl⟩ rfl (nonceField_zero _).symm hlegal
        (by rwa [Nat.zero_add]) (hq.mono (by omega)) hdrop
      rw [List.length_append, Nat.mul_add] at hq ⊢
      have hrec := receiveAll_streaming cuts hstream (by
        rw [hwork.env]
        exact (quiet_add.1 (hq.mono (show draws + (2 * left.length + cuts.length) ≤ _ by omega))).2)
      rw [Nat.zero_add] at hrec
      exact .cons hexec hresp hwork hrec

/-! ### Both runs -/

/-- The bound of R223 on the number of chunks is the exhaustion point's. -/
theorem two_mul_le_point {m : Method} {n : Nat} (h : n ≤ 2 ^ (8 * nonceLen m - 1) - 1) : 2 * n ≤ 256 ^ nonceLen m - 2 := by
  have hpow : 256 ^ nonceLen m = 2 * 2 ^ (8 * nonceLen m - 1) := by
    have := nonceLen_pos m
    rw [← pow_succ', show 8 * nonceLen m - 1 + 1 = 8 * nonceLen m by omega, pow_mul]
    norm_num
  omega

/-- A fresh context accepts every command of its direction. -/
theorem FreshContext.acceptsAny {s : State} {c : Nat} {dir : Direction} {x : Context} {D : Descriptor}
    (h : FreshContext dir x) (hs : s.Inv) (hmax : s.cfg.maxIn = none) (hc : s.ctx[c]? = some x)
    (hD : s.desc[x.desc]? = some D) : AcceptsAny s c dir x D :=
  ⟨hs, hmax, hc, h.valid, h.dir_eq, h.dead, hD, fun _ _ => Nat.zero_le _⟩

/-- Two descriptors that live contexts refer to are the same when their method and key are. -/
theorem AcceptsAny.descriptor_eq {s : State} {c c' : Nat} {dir dir' : Direction} {x y : Context} {D E : Descriptor}
    (h : AcceptsAny s c dir x D) (h' : AcceptsAny s c' dir' y E) (hm : E.method = D.method)
    (hk : E.masterKey = D.masterKey) : E = D := by
  have hvalid : E.valid = D.valid :=
    (h'.accepts.boundTo h'.inv).1.desc_valid.trans (h.accepts.boundTo h.inv).1.desc_valid.symm
  cases D
  cases E
  simp_all

/-- Settles O60: the sender's wire is the salt and the chunks of all pieces, and the receiver, wherever the wire is cut, has
consumed the whole chunks of what arrived. -/
theorem tcpRoundTrip : Obligations.TcpRoundTrip := by
  intro s e r x y D E ps most hs hrole hmax hne hx hxf hy hyf hD hE hm hk hcount hq
  have hsend := hxf.acceptsAny hs hmax hx hD
  obtain rfl := hsend.descriptor_eq (hyf.acceptsAny hs hmax hy hE) hm hk
  have hroom := two_mul_le_point hcount
  obtain ⟨t, x', draws, hwire, hwork, hdraws, hnonce⟩ := sendAll_fresh hxf.init ps hsend hroom (hq.mono (by omega))
  refine ⟨_, t, hwire, fun cuts hcuts hmost => ?_⟩
  have hsalt : (x.liveSalt E.method).length = keyLen E.method :=
    take_keyLen_length (hsend.accepts.inv hs).1.salt_length
  have hready : AcceptsAny t r .decrypt y E :=
    hyf.acceptsAny hwork.inv (hwork.cfg ▸ hmax) ((hwork.getElem?_ne hne).trans hy) (hwork.desc ▸ hE)
  have hquiet : t.env.quiet (1 + 2 * (pieces ps).length + cuts.length) := by
    rw [hwork.env, length_pieces]
    exact (quiet_add.1 (hq.mono (show draws + (1 + 2 * chunkCount ps + cuts.length) ≤ _ by omega))).2
  obtain ⟨u, y', k, hrec, hwork', hnonce', hbuf, hdead⟩ := receiveAll_awaiting hsalt (fun q hq => length_of_mem_pieces hq)
    (by rwa [length_pieces]) cuts hready (hwork.cfg ▸ hrole) hyf.init
    (by rw [hyf.rbuf, List.nil_append, hcuts, hwork.cfg])
    (by rw [hyf.rbuf]; exact Nat.lt_of_lt_of_le (by decide) (keyLen_pos E.method)) hquiet
  rw [length_pieces] at hnonce'
  refine ⟨u, x', y', by rw [hrec, flatten_pieces], ?_, ?_, hwork'.getElem?_self hready.accepts.slot, ?_, hbuf, hdead⟩
  · rw [hwork'.getElem?_ne hne.symm, hwork.getElem?_self hx]
  · rw [hnonce, le_take_nonceField hroom]
  · rw [hnonce', le_take_nonceField hroom]

end Sys2Proof.Machine

/-! PROOFS. The family of 45_replay_filter.md: the contract of the filter's operations, and what a command makes of the filter's
content. -/

namespace Sys2Proof.Machine

/-! ### The contract of the operations -/

/-- The only draw on which a check answers `Absent` is the faithful one (45_replay_filter.md R241). -/
theorem not_mem_evict_of_checkAnswer_absent {s : State} {salt : Bytes} (h : s.checkAnswer salt = .absent) :
    salt ∉ s.evict.filter := by
  cases hd : s.evict.env.checkDraw with
  | faithful =>
    intro hmem
    cases h.symm.trans ((checkAnswer_faithful hd).2 hmem)
  | falsePositive => simp only [State.checkAnswer, hd, reduceCtorEq] at h
  | internalError => simp only [State.checkAnswer, hd, reduceCtorEq] at h

/-- Settles O59: an insertion leaves the evicted filter with or without the salt, and `Ok` is answered only with it. -/
theorem filterOperationsFollowTheContract : Obligations.FilterOperationsFollowTheContract := by
  intro s salt
  obtain ⟨F, hs, hF, hok⟩ := afterAdd_cases s salt
  have hfilter : (s.afterAdd salt).filter = F := congrArg State.filter hs
  refine ⟨fun u hu => mem_of_mem_evict hu, not_mem_evict_of_checkAnswer_absent, rfl, fun ha u => ?_, fun _ => ?_,
    State.afterAdd_desc s salt, State.afterAdd_ctx s salt, State.afterAdd_cfg s salt⟩
  · rw [hfilter, hok ha]
    exact mem_saltInsert
  · rw [hfilter]
    refine hF.imp_right fun hinserted u => ?_
    rw [hinserted]
    exact mem_saltInsert

/-! ### What a command makes of the filter -/

/-- The salt that a command brings to the replay filter: the first bytes of a stream that awaits its salt, and those of a
datagram (45_replay_filter.md R246). -/
inductive PresentsSalt (s : State) : Instr → Bytes → Prop where
  | stream {c : Nat} {arrived : Bytes} {x : Context} {D : Descriptor} : s.ctx[c]? = some x → x.init = false →
      s.desc[x.desc]? = some D → PresentsSalt s (.tcpDecrypt c arrived) ((x.rbuf ++ arrived).take (keyLen D.method))
  | datagram {d : Nat} {bytes : Bytes} {D : Descriptor} : s.desc[d]? = some D →
      PresentsSalt s (.udpDecrypt d bytes) (bytes.take (keyLen D.method))

/-- What a command that comes to the state `t` makes of the filter (45_replay_filter.md R240, R242). -/
structure FilterEffect (i : Instr) (s t : State) : Prop where
  client : s.cfg.role = .client → t.filter = s.filter
  gain : ∀ u ∈ t.filter, u ∈ s.filter ∨ PresentsSalt s i u

theorem FilterEffect.of_eq {i : Instr} {s t : State} (h : t.filter = s.filter) : FilterEffect i s t :=
  ⟨fun _ => h, fun _ hu => .inl (h ▸ hu)⟩

theorem TcpAnswer.filter_eq {s t : State} {c : Nat} {x y : Context} {F : List Bytes} {st : Status} {out : Bytes}
    (h : TcpAnswer s c x t F y st out) : t.filter = F := by
  obtain ⟨e, rfl⟩ := h.shape
  rfl

/-- A running stream has its salt behind it, so only one that awaits it presents a salt. -/
theorem tcpDecrypt_filterEffect {s t : State} {c : Nat} {p : Bytes} (h : exec (.tcpDecrypt c p) s = .next t) :
    FilterEffect (.tcpDecrypt c p) s t := by
  rcases tcpDecrypt_cases h with rfl | ⟨x, D, F, y, st, out, hc, -, -, -, -, hD, ha, hd⟩
  · exact .of_eq rfl
  · obtain rfl := ha.filter_eq
    cases hi : x.init with
    | true => exact .of_eq (hd.running hi)
    | false => exact ⟨hd.client, fun u hu => (hd.gain u hu).imp_right (by rintro rfl; exact .stream hc hi hD)⟩

theorem udpDecrypt_filterEffect {s t : State} {d : Nat} {p : Bytes} (h : exec (.udpDecrypt d p) s = .next t) :
    FilterEffect (.udpDecrypt d p) s t := by
  rcases udpDecrypt_cases h with rfl | ⟨D, F, e, st, out, hD, -, -, rfl, -, hclient, hgain⟩
  · exact .of_eq rfl
  · exact ⟨hclient, fun u hu => (hgain u hu).imp_right (by rintro rfl; exact .datagram hD)⟩

/-- The two decode commands are the only ones that write the filter (45_replay_filter.md R246). -/
theorem exec_filterEffect {i : Instr} {s t : State} (h : exec i s = .next t) : FilterEffect i s t := by
  cases i with
  | cipherInit d m password =>
    rcases cipherInit_cases h with rfl | ⟨-, -, rfl | rfl⟩ <;> exact .of_eq rfl
  | cipherFree d =>
    rcases cipherFree_cases h with rfl | ⟨-, -, rfl⟩ <;> exact .of_eq rfl
  | ctxNew d c dir =>
    rcases ctxNew_cases h with rfl | ⟨-, -, rfl | ⟨e, salt, rfl⟩⟩ <;> exact .of_eq rfl
  | ctxFree c =>
    rcases ctxFree_cases h with rfl | ⟨-, rfl⟩ <;> exact .of_eq rfl
  | tcpEncrypt c p =>
    rcases tcpEncrypt_cases h with rfl | ⟨x, D, y, st, out, -, -, -, -, -, -, ha, -⟩
    · exact .of_eq rfl
    · exact .of_eq ha.filter_eq
  | tcpDecrypt c p => exact tcpDecrypt_filterEffect h
  | udpEncrypt d p =>
    rcases udpEncrypt_cases h with rfl | ⟨D, e, st, out, -, -, -, rfl, -⟩ <;> exact .of_eq rfl
  | udpDecrypt d p => exact udpDecrypt_filterEffect h

/-- Settles O41. -/
theorem clientNeverTouchesTheFilter : Obligations.ClientNeverTouchesTheFilter :=
  fun _ _ _ hr h => (exec_filterEffect h).client hr

/-- Settles O42. -/
theorem filterGainsOnlyThePresentedSalt : Obligations.FilterGainsOnlyThePresentedSalt := by
  intro i s t h u hu
  refine ((exec_filterEffect h).gain u hu).imp_right fun hsalt => ?_
  cases hsalt with
  | stream hc hi hD => exact ⟨_, _, hc, hi, hD, rfl⟩
  | datagram hD => exact ⟨_, hD, rfl⟩

end Sys2Proof.Machine

/-! PROOFS. The family of 46_lifecycle.md: when each lifecycle command is accepted, what its new slot holds, and the exact state
that it leaves. -/

namespace Sys2Proof.Machine

/-! ### When a lifecycle command is accepted -/

section
variable {s : State} {d c : Nat} {D : Descriptor} {x : Context}

theorem exec_cipherInit {m : Method} {password : Bytes} (hD : s.desc[d]? = some D) (hv : D.valid = false)
    (hf : fits s.cfg.maxPw password.length = true) :
    exec (.cipherInit d m password) s = .next (cipherInitAccepted d m password s) := by
  simp only [exec, execCipherInit, descEmpty_iff.2 ⟨D, hD, hv⟩, hf, Bool.and_self, if_true]

theorem exec_cipherFree_of_unreferenced (hD : s.desc[d]? = some D) (hv : D.valid = true) (href : s.refs d = 0) :
    exec (.cipherFree d) s = .next ((s.setDesc d Descriptor.empty).respond .ok []) := by
  simp [exec, execCipherFree, validDesc_eq_some.2 ⟨hD, hv⟩, href]

theorem exec_cipherFree_of_referenced (href : s.refs d ≠ 0) : exec (.cipherFree d) s = .next s.refuse := by
  simp [exec, execCipherFree, href]

theorem exec_ctxNew {dir : Direction} (hD : s.desc[d]? = some D) (hv : D.valid = true) (hc : s.ctx[c]? = some x)
    (hx : x.valid = false) : exec (.ctxNew d c dir) s = .next (ctxNewAccepted d c dir D.method s) := by
  simp only [exec, execCtxNew, validDesc_eq_some.2 ⟨hD, hv⟩, ctxEmpty_iff.2 ⟨x, hc, hx⟩, if_true]

theorem exec_ctxFree (hc : s.ctx[c]? = some x) (hx : x.valid = true) :
    exec (.ctxFree c) s = .next ((s.setCtx c Context.empty).respond .ok []) := by
  simp only [exec, execCtxFree, ctxValid_iff.2 ⟨x, hc, hx⟩, if_true]

/-- Dead contexts count as references (10_state.md R25, 46_lifecycle.md R260). -/
theorem refs_ne_zero_of_mem (hx : x ∈ s.ctx) (hv : x.valid = true) (hd : x.desc = d) : s.refs d ≠ 0 :=
  fun h => refs_eq_zero.1 h x hx hv hd

end

/-! ### The new slots -/

/-- A key or a salt of `key_len` bytes in its stored field (10_state.md R22, R27). -/
theorem fit_keyLen {m : Method} {k : Bytes} (h : k.length = keyLen m) : fit 32 k = k ++ zeros (32 - keyLen m) := by
  rw [fit_of_length_le (h ▸ keyLen_le m), h]

theorem newDescriptor_eq (m : Method) (password : Bytes) : newDescriptor m password =
    { valid := true, method := m, masterKey := deriveMaster password (keyLen m) ++ zeros (32 - keyLen m) } := by
  have hlen : (deriveMaster password (keyLen m)).length = keyLen m :=
    deriveMaster_length password ((keyLen_le m).trans (by decide))
  rw [newDescriptor, fit_keyLen hlen]

theorem rngBytes_length (e : Env) (n : Nat) : (e.rngBytes n).length = n := by simp [Env.rngBytes]

theorem newContext_encrypt_eq {m : Method} {salt : Bytes} (d : Nat) (h : salt.length = keyLen m) :
    newContext d .encrypt salt =
      { valid := true, desc := d, dir := .encrypt, init := false, dead := false, salt := salt ++ zeros (32 - keyLen m),
        subkey := zeros 32, nonce := zeros 24, rbuf := [] } := by
  rw [newContext, fit_keyLen h]
  rfl

/-! ### The commands complete -/

/-- Settles O12: the slot is written exactly when the one draw is quiet. -/
theorem cipherInitFillsTheSlot : Obligations.CipherInitFillsTheSlot := by
  intro s d m password D hD hv hpw
  rw [exec_cipherInit hD hv (fits_of_bound hpw), cipherInitAccepted, newDescriptor_eq]
  rfl

/-- Settles O13: the two clauses are `refs(d) = 0` and its negation. -/
theorem cipherFreeWipesAnUnreferencedSlot : Obligations.CipherFreeWipesAnUnreferencedSlot := by
  intro s d D hD hv
  refine ⟨fun hfree => exec_cipherFree_of_unreferenced hD hv (refs_eq_zero.2 hfree), ?_⟩
  rintro ⟨x, hx, hxv, hxd⟩
  exact exec_cipherFree_of_referenced (refs_ne_zero_of_mem hx hxv hxd)

/-- Settles O14: a decrypt context draws nothing; an encrypt context draws `PrimFail`, then its salt. -/
theorem ctxNewMakesAZeroedContext : Obligations.CtxNewMakesAZeroedContext := by
  intro s d c D x hD hv hc hx
  refine ⟨exec_ctxNew hD hv hc hx, ?_⟩
  rw [exec_ctxNew hD hv hc hx, ctxNewAccepted, newContext_encrypt_eq d (rngBytes_length _ _)]
  rfl

/-- Settles O15: acceptance asks for a valid slot only, whatever its phase. -/
theorem ctxFreeWipesTheSlot : Obligations.CtxFreeWipesTheSlot :=
  fun _ _ _ hc hx => exec_ctxFree hc hx

end Sys2Proof.Machine

/-! PROOFS. The family of 60_exceptions.md: which commands are accepted, which status an accepted one can answer, and the
statements about refusal, the table of statuses, fatal entry and dead contexts. -/

namespace Sys2Proof.Machine

/-! ### A state of the invariant answers every command -/

/-- A context that a TCP command may work on is bound to a descriptor slot (46_lifecycle.md R263d). -/
theorem State.Inv.tcpAccepts {s : State} (hs : s.Inv) {c n : Nat} {dir : Direction} {x : Context}
    (h : s.liveCtx c dir n = some x) : ∃ D, TcpAccepts s c dir n x D := by
  obtain ⟨hc, hv, hdir, hx, hf⟩ := liveCtx_eq_some.1 h
  obtain ⟨D, hD, -⟩ := (hs.ctx_inv x (List.mem_of_getElem? hc)).live hv
  exact ⟨D, tcpAccepts_of_fits hc hv hdir hx hD hf⟩

/-- The one fault of the model is the dangling descriptor of a TCP command, which the invariant shuts out. -/
theorem State.Inv.exec_next {s : State} (hs : s.Inv) (i : Instr) : ∃ t, exec i s = .next t := by
  cases i with
  | cipherInit d m password => exact ⟨_, rfl⟩
  | cipherFree d => exact ⟨_, rfl⟩
  | ctxNew d c dir =>
    simp only [exec, execCtxNew]
    cases s.validDesc d with
    | none => exact ⟨_, rfl⟩
    | some D => exact ⟨_, rfl⟩
  | ctxFree c => exact ⟨_, rfl⟩
  | tcpEncrypt c p =>
    cases hx : s.liveCtx c .encrypt p.length with
    | none => exact ⟨s.refuse, by simp only [exec, execTcpEncrypt, hx]⟩
    | some x =>
      obtain ⟨D, hacc⟩ := hs.tcpAccepts hx
      exact ⟨_, hacc.exec_encrypt⟩
  | tcpDecrypt c p =>
    cases hx : s.liveCtx c .decrypt p.length with
    | none => exact ⟨s.refuse, by simp only [exec, execTcpDecrypt, hx]⟩
    | some x =>
      obtain ⟨D, hacc⟩ := hs.tcpAccepts hx
      exact ⟨_, hacc.exec_decrypt⟩
  | udpEncrypt d p =>
    simp only [exec, execUdpEncrypt]
    cases s.udpDesc d p.length with
    | none => exact ⟨_, rfl⟩
    | some D => exact ⟨_, rfl⟩
  | udpDecrypt d p =>
    simp only [exec, execUdpDecrypt]
    cases s.udpDesc d p.length with
    | none => exact ⟨_, rfl⟩
    | some D => exact ⟨_, rfl⟩

/-- Settles O4: a step waits, resets, refuses a word or runs a command, and each answers a next state. -/
theorem invariantStatesNeverStop : Obligations.InvariantStatesNeverStop := by
  intro s hs
  cases hin : s.inbox with
  | nil => exact ⟨s, step_nil hin⟩
  | cons event later =>
    cases event with
    | reset => exact ⟨_, step_reset hin⟩
    | command w input =>
      rw [step_command hin, runCommand]
      cases decode w input with
      | error _ => exact ⟨_, rfl⟩
      | ok i => exact (hs.withInbox later).exec_next i

/-! ### When a command is accepted -/

/-- None of the refusal conditions 3 and 5 to 12 of 60_exceptions.md R296 holds for the command. -/
def Accepted (s : State) : Instr → Prop
  | .cipherInit d _ password =>
    (∃ D, s.desc[d]? = some D ∧ D.valid = false) ∧ fits s.cfg.maxPw password.length = true
  | .cipherFree d => (∃ D, s.desc[d]? = some D ∧ D.valid = true) ∧ s.refs d = 0
  | .ctxNew d c _ => (∃ D, s.desc[d]? = some D ∧ D.valid = true) ∧ ∃ x, s.ctx[c]? = some x ∧ x.valid = false
  | .ctxFree c => ∃ x, s.ctx[c]? = some x ∧ x.valid = true
  | .tcpEncrypt c p => ∃ x, s.liveCtx c .encrypt p.length = some x
  | .tcpDecrypt c p => ∃ x, s.liveCtx c .decrypt p.length = some x
  | .udpEncrypt d p | .udpDecrypt d p => ∃ D, s.udpDesc d p.length = some D

/-- A command that is not refused is accepted, read off the inversion lemma of each. -/
theorem refused_or_accepted {i : Instr} {s t : State} (h : exec i s = .next t) : t = s.refuse ∨ Accepted s i := by
  cases i with
  | cipherInit d m password => exact (cipherInit_cases h).imp_right fun ⟨hD, hf, _⟩ => ⟨hD, hf⟩
  | cipherFree d => exact (cipherFree_cases h).imp_right fun ⟨hD, href, _⟩ => ⟨hD, href⟩
  | ctxNew d c dir => exact (ctxNew_cases h).imp_right fun ⟨hD, hx, _⟩ => ⟨hD, hx⟩
  | ctxFree c => exact (ctxFree_cases h).imp_right fun ⟨hx, _⟩ => hx
  | tcpEncrypt c p => exact (tcpEncrypt_accepted h).imp_right fun ⟨x, _, hacc, _⟩ => ⟨x, hacc.liveCtx⟩
  | tcpDecrypt c p => exact (tcpDecrypt_accepted h).imp_right fun ⟨x, _, hacc, _⟩ => ⟨x, hacc.liveCtx⟩
  | udpEncrypt d p =>
    exact (udpEncrypt_cases h).imp_right fun ⟨D, _, _, _, hD, hv, hf, _⟩ => ⟨D, udpDesc_eq_some.2 ⟨hD, hv, hf⟩⟩
  | udpDecrypt d p =>
    exact (udpDecrypt_cases h).imp_right fun ⟨D, _, _, _, _, hD, hv, hf, _⟩ => ⟨D, udpDesc_eq_some.2 ⟨hD, hv, hf⟩⟩

/-! ### What an accepted command answers -/

/-- The rows of 60_exceptions.md R288 without the last column: the statuses of an accepted command, for each role. -/
def MayAnswer (role : Role) : Instr → Status → Prop
  | .cipherInit _ _ _, st | .ctxNew _ _ _, st | .udpEncrypt _ _, st => st = .ok ∨ st = .internal
  | .cipherFree _, st | .ctxFree _, st => st = .ok
  | .tcpEncrypt _ _, st => st = .ok ∨ st = .internal ∨ st = .nonceExhausted
  | .tcpDecrypt _ _, st => (st ≠ .tooShort ∧ st ≠ .refused) ∧ (st = .replayDetected → role = .server)
  | .udpDecrypt _ _, st =>
    st = .ok ∨ st = .internal ∨ st = .authFail ∨ st = .tooShort ∨ st = .replayDetected ∧ role = .server

theorem MayAnswer.ne_refused {role : Role} {i : Instr} {st : Status} (h : MayAnswer role i st) : st ≠ .refused := by
  rintro rfl
  cases i <;> simp [MayAnswer] at h

theorem cipherInitAccepted_answers (d : Nat) (m : Method) (password : Bytes) (s : State) :
    ∃ r, (cipherInitAccepted d m password s).response = some r ∧ (r.status = .ok ∨ r.status = .internal) := by
  simp only [cipherInitAccepted]
  split
  · exact ⟨_, rfl, .inr rfl⟩
  · exact ⟨_, rfl, .inl rfl⟩

theorem ctxNewAccepted_answers (d c : Nat) (dir : Direction) (m : Method) (s : State) :
    ∃ r, (ctxNewAccepted d c dir m s).response = some r ∧ (r.status = .ok ∨ r.status = .internal) := by
  cases dir with
  | decrypt => exact ⟨_, rfl, .inl rfl⟩
  | encrypt =>
    simp only [ctxNewAccepted]
    split
    · exact ⟨_, rfl, .inr rfl⟩
    · exact ⟨_, rfl, .inl rfl⟩

theorem udpEncryptAccepted_answers (D : Descriptor) (plain : Bytes) (s : State) :
    ∃ r, (udpEncryptAccepted D plain s).response = some r ∧ (r.status = .ok ∨ r.status = .internal) := by
  simp only [udpEncryptAccepted]
  split
  · exact ⟨_, rfl, .inr rfl⟩
  · split
    · exact ⟨_, rfl, .inr rfl⟩
    · exact ⟨_, rfl, .inl rfl⟩

/-- From the verification on, a body longer than a tag (43_udp.md R183). -/
theorem udpOpen_answers (s : State) (D : Descriptor) (salt : Bytes) {body : Bytes} (hb : 16 < body.length) :
    ∃ r, (udpOpen D salt body s).response = some r ∧ (r.status = .ok ∨ r.status = .internal ∨ r.status = .authFail) := by
  obtain ⟨F, e, st, out, ht, hst, -⟩ := udpOpen_cases s D salt body hb
  rw [ht]
  exact ⟨_, rfl, hst.imp And.left (Or.imp And.left And.left)⟩

theorem udpDecryptAccepted_answers (d : Nat) (D : Descriptor) (g : Bytes) (s : State) :
    ∃ r, (udpDecryptAccepted D g s).response = some r ∧ MayAnswer s.cfg.role (.udpDecrypt d g) r.status := by
  rcases Nat.lt_or_ge (keyLen D.method + tagLen) g.length with hl | hl
  · have hb : 16 < (g.drop (keyLen D.method)).length := by
      simp only [List.length_drop, tagLen] at hl ⊢
      omega
    have opened (u : State) : ∃ r, (udpOpen D (g.take (keyLen D.method)) (g.drop (keyLen D.method)) u).response = some r ∧
        MayAnswer s.cfg.role (.udpDecrypt d g) r.status := by
      obtain ⟨r, hr, hst⟩ := udpOpen_answers u D (g.take (keyLen D.method)) hb
      exact ⟨r, hr, hst.imp_right (Or.imp_right .inl)⟩
    cases hrole : s.cfg.role with
    | client =>
      rw [udpDecryptAccepted_client hl hrole, ← hrole]
      exact opened s
    | server =>
      cases hc : s.checkAnswer (g.take (keyLen D.method)) with
      | present =>
        rw [udpDecryptAccepted_present hl hrole hc]
        exact ⟨_, rfl, by simp [MayAnswer]⟩
      | internalError =>
        rw [udpDecryptAccepted_checkFailed hl hrole hc]
        exact ⟨_, rfl, by simp [MayAnswer]⟩
      | absent =>
        rw [udpDecryptAccepted_absent hl hrole hc, ← hrole]
        exact opened s.afterCheck
  · rw [udpDecryptAccepted_tooShort hl]
    exact ⟨_, rfl, by simp [MayAnswer]⟩

/-- An accepted command answers a status of its row in the table of R288. -/
theorem Accepted.answers {i : Instr} {s t : State} (hacc : Accepted s i) (h : exec i s = .next t) :
    ∃ r, t.response = some r ∧ MayAnswer s.cfg.role i r.status := by
  cases i with
  | cipherInit d m password =>
    obtain ⟨⟨D, hD, hv⟩, hf⟩ := hacc
    cases (exec_cipherInit hD hv hf).symm.trans h
    exact cipherInitAccepted_answers d m password s
  | cipherFree d =>
    obtain ⟨⟨D, hD, hv⟩, href⟩ := hacc
    cases (exec_cipherFree_of_unreferenced hD hv href).symm.trans h
    exact ⟨_, rfl, rfl⟩
  | ctxNew d c dir =>
    obtain ⟨⟨D, hD, hv⟩, x, hc, hx⟩ := hacc
    cases (exec_ctxNew hD hv hc hx).symm.trans h
    exact ctxNewAccepted_answers d c dir D.method s
  | ctxFree c =>
    obtain ⟨x, hc, hx⟩ := hacc
    cases (exec_ctxFree hc hx).symm.trans h
    exact ⟨_, rfl, rfl⟩
  | tcpEncrypt c p =>
    obtain ⟨x, hl⟩ := hacc
    obtain ⟨hc, -, -, hx, -⟩ := liveCtx_eq_some.1 hl
    simp only [exec, execTcpEncrypt, hl] at h
    split at h <;> cases h
    next D _ =>
    obtain ⟨y, st, out, ha, hst⟩ := tcpEncryptAccepted_answer (p := p) (D := D) hc hx
    obtain ⟨e, ht⟩ := ha.shape
    exact ⟨⟨st, out⟩, congrArg State.response ht, hst.imp_left And.left⟩
  | tcpDecrypt c p =>
    obtain ⟨x, hl⟩ := hacc
    obtain ⟨-, -, -, hx, -⟩ := liveCtx_eq_some.1 hl
    simp only [exec, execTcpDecrypt, hl] at h
    split at h <;> cases h
    next D _ =>
    obtain ⟨F, y, st, out, ha, hst⟩ := tcpDecryptAccepted_answer (s := s) (c := c) (p := p) (D := D) hx
    obtain ⟨e, ht⟩ := ha.shape
    exact ⟨⟨st, out⟩, congrArg State.response ht, hst.status, hst.replay⟩
  | udpEncrypt d p =>
    obtain ⟨D, hD⟩ := hacc
    cases (exec_udpEncrypt hD).symm.trans h
    exact udpEncryptAccepted_answers D p s
  | udpDecrypt d p =>
    obtain ⟨D, hD⟩ := hacc
    cases (exec_udpDecrypt hD).symm.trans h
    exact udpDecryptAccepted_answers d D p s

/-- Settles O48: a refused command answers the last column of the table, an accepted one a status of its row. -/
theorem statusesPerCommand : Obligations.StatusesPerCommand := by
  intro i s t h
  rcases refused_or_accepted h with rfl | hacc
  · exact ⟨_, rfl, by cases i <;> simp⟩
  · obtain ⟨r, hr, hmay⟩ := hacc.answers h
    refine ⟨r, hr, ?_⟩
    cases i with
    | cipherInit d m password => exact hmay.imp_right .inl
    | cipherFree d => exact .inl hmay
    | ctxNew d c dir => exact hmay.imp_right .inl
    | ctxFree c => exact .inl hmay
    | tcpEncrypt c p => exact hmay.imp_right (Or.imp_right .inl)
    | tcpDecrypt c p => exact ⟨hmay.1.1, hmay.2⟩
    | udpEncrypt d p => exact hmay.imp_right .inl
    | udpDecrypt d p => rcases hmay with h | h | h | h | ⟨h, hrole⟩ <;> simp [*]

/-! ### Refusal -/

theorem Accepted.ne_refused {i : Instr} {s t : State} {r : Response} (hacc : Accepted s i) (h : exec i s = .next t)
    (hr : t.response = some r) : r.status ≠ .refused := by
  obtain ⟨_, hr', hmay⟩ := hacc.answers h
  obtain rfl := Option.some.inj (hr.symm.trans hr')
  exact hmay.ne_refused

/-- Settles O52. -/
theorem refusedMeansUnchanged : Obligations.RefusedMeansUnchanged :=
  fun _ _ _ _ h hr hst => (refused_or_accepted h).resolve_right fun hacc => hacc.ne_refused h hr hst

theorem status_refused_iff {i : Instr} {s t : State} {r : Response} (h : exec i s = .next t)
    (hr : t.response = some r) : r.status = .refused ↔ ¬ Accepted s i := by
  refine ⟨fun hst hacc => hacc.ne_refused h hr hst, fun hnot => ?_⟩
  obtain rfl := (refused_or_accepted h).resolve_right hnot
  obtain rfl := Option.some.inj hr
  rfl

/-- No entry of a list at this index has a property: the index is too large, or the entry lacks it. -/
theorem not_exists_getElem?_and {α : Type} {l : List α} {k : Nat} {P : α → Prop} :
    (¬ ∃ a, l[k]? = some a ∧ P a) ↔ l.length ≤ k ∨ ∃ a, l[k]? = some a ∧ ¬ P a := by
  rw [← List.getElem?_eq_none_iff]
  cases l[k]? <;> simp

theorem not_fits_iff {bound : Option Nat} {n : Nat} : ¬ fits bound n = true ↔ ∃ b, bound = some b ∧ b < n := by
  cases bound <;> simp [fits]

/-- Condition 8 of 60_exceptions.md R296. -/
theorem not_refs_eq_zero_iff {s : State} {d : Nat} : ¬ s.refs d = 0 ↔ ∃ x ∈ s.ctx, x.valid = true ∧ x.desc = d := by
  simp [refs_eq_zero]

/-- Conditions 3, 5 and 10 to 12 of 60_exceptions.md R296. -/
theorem not_exists_liveCtx {s : State} {c n : Nat} {dir : Direction} : (¬ ∃ x, s.liveCtx c dir n = some x) ↔
    s.ctx.length ≤ c ∨ (∃ b, s.cfg.maxIn = some b ∧ b < n) ∨
      ∃ x, s.ctx[c]? = some x ∧ (x.valid = false ∨ x.dir ≠ dir ∨ x.dead = true) := by
  have hacc : (∃ x, s.liveCtx c dir n = some x) ↔
      (∃ x, s.ctx[c]? = some x ∧ x.valid = true ∧ x.dir = dir ∧ x.dead = false) ∧ fits s.cfg.maxIn n = true := by
    simp only [liveCtx_eq_some, ← exists_and_right, and_assoc]
  rw [hacc, not_and_or, not_exists_getElem?_and, not_fits_iff, or_assoc, or_comm (b := ∃ b, _)]
  simp only [not_and_or, Bool.not_eq_true, Bool.not_eq_false, ne_eq]

/-- Conditions 3, 5 and 7 of 60_exceptions.md R296. -/
theorem not_exists_udpDesc {s : State} {d n : Nat} : (¬ ∃ D, s.udpDesc d n = some D) ↔
    s.desc.length ≤ d ∨ (∃ b, s.cfg.maxDgram = some b ∧ b < n) ∨ ∃ D, s.desc[d]? = some D ∧ D.valid = false := by
  have hacc : (∃ D, s.udpDesc d n = some D) ↔
      (∃ D, s.desc[d]? = some D ∧ D.valid = true) ∧ fits s.cfg.maxDgram n = true := by
    simp only [udpDesc_eq_some, ← exists_and_right, and_assoc]
  rw [hacc, not_and_or, not_exists_getElem?_and, not_fits_iff, or_assoc, or_comm (b := ∃ b, _)]
  simp only [Bool.not_eq_true]

/-- Settles O51: each conjunct of the acceptance test, negated, is one of the listed conditions. -/
theorem refusedExactlyWhenListed : Obligations.RefusedExactlyWhenListed := by
  intro i s t r h hr
  rw [status_refused_iff h hr]
  cases i with
  | cipherInit d m password =>
    simp only [Accepted, not_and_or, not_exists_getElem?_and, not_fits_iff, Bool.not_eq_false]
    rw [or_assoc, or_comm (b := ∃ b, _)]
  | cipherFree d =>
    simp only [Accepted, not_and_or, not_exists_getElem?_and, not_refs_eq_zero_iff, Bool.not_eq_true, or_assoc]
  | ctxNew d c dir =>
    simp only [Accepted, not_and_or, not_exists_getElem?_and, Bool.not_eq_true, Bool.not_eq_false]
    rw [or_assoc, or_left_comm (b := s.ctx.length ≤ c)]
  | ctxFree c => simp only [Accepted, not_exists_getElem?_and, Bool.not_eq_true]
  | tcpEncrypt c p =>
    have hdir (x : Context) : x.dir ≠ .encrypt ↔ x.dir = .decrypt := by cases x.dir <;> decide
    simp only [Accepted, not_exists_liveCtx, hdir]
  | tcpDecrypt c p =>
    have hdir (x : Context) : x.dir ≠ .decrypt ↔ x.dir = .encrypt := by cases x.dir <;> decide
    simp only [Accepted, not_exists_liveCtx, hdir]
  | udpEncrypt d p => exact not_exists_udpDesc
  | udpDecrypt d p => exact not_exists_udpDesc

/-- Settles O34: the length is tested before anything is drawn. -/
theorem udpDecryptTooShort : Obligations.UdpDecryptTooShort := by
  intro s d g D hD hv hf hl
  rw [exec_udpDecrypt (udpDesc_of_bound hD hv hf), udpDecryptAccepted_tooShort hl]
  rfl

/-! ### Fatal entry and dead contexts -/

/-- 60_exceptions.md R290. -/
theorem killsContext_iff {st : Status} :
    killsContext st = true ↔ st = .authFail ∨ st = .replayDetected ∨ st = .nonceExhausted ∨ st = .internal := by
  cases st <;> decide

/-- A TCP command is refused, or answers on the context its slot holds. -/
theorem tcp_refused_or_answers {i : Instr} {s t : State} {c : Nat} {p : Bytes}
    (hi : i = .tcpEncrypt c p ∨ i = .tcpDecrypt c p) (h : exec i s = .next t) :
    t = s.refuse ∨ ∃ x F y st out, s.ctx[c]? = some x ∧ TcpAnswer s c x t F y st out := by
  rcases hi with rfl | rfl
  · exact (tcpEncrypt_cases h).imp_right fun ⟨x, _, y, st, out, hc, _, _, _, _, _, ha, _⟩ => ⟨x, _, y, st, out, hc, ha⟩
  · exact (tcpDecrypt_cases h).imp_right fun ⟨x, _, F, y, st, out, hc, _, _, _, _, _, ha, _⟩ => ⟨x, F, y, st, out, hc, ha⟩

/-- Settles O50. -/
theorem fatalStatusKillsTheContext : Obligations.FatalStatusKillsTheContext := by
  rintro i s t c p x st out hi hc hx ⟨h, hr⟩
  rw [← killsContext_iff]
  rcases tcp_refused_or_answers hi h with rfl | ⟨x', F, y, st', out', hc', ha⟩
  · cases hr
    exact ⟨x, hc, rfl, by simp [hx, killsContext]⟩
  · obtain rfl := Option.some.inj (hc.symm.trans hc')
    obtain ⟨e, rfl⟩ := ha.shape
    cases hr
    exact ⟨y, List.getElem?_set_self (List.getElem?_eq_some_iff.1 hc).1, ha.valid, ha.dead⟩

/-- A command that writes a valid dead context's slot is its `CTX_FREE`: `CTX_NEW` wants an empty slot and a TCP command a
live context. -/
theorem ctx_of_dead {i : Instr} {s t : State} {c : Nat} {x : Context} (hc : s.ctx[c]? = some x) (hv : x.valid = true)
    (hx : x.dead = true) (h : exec i s = .next t) (hne : i ≠ .ctxFree c) : t.ctx[c]? = some x := by
  rw [← hc]
  by_contra hwritten
  have heff := (exec_effect h).ctx
  generalize t.ctx = l at heff hwritten
  cases heff with
  | kept => exact hwritten rfl
  | made _ hz hzv =>
    obtain rfl := eq_of_getElem?_set_ne hwritten
    obtain rfl := Option.some.inj (hc.symm.trans hz)
    simp [hzv] at hv
  | wiped hi =>
    obtain rfl := eq_of_getElem?_set_ne hwritten
    exact hne hi
  | ran _ hz hzx =>
    obtain rfl := eq_of_getElem?_set_ne hwritten
    obtain rfl := Option.some.inj (hc.symm.trans hz)
    simp [hzx] at hx

/-- Settles O47. -/
theorem deadContextsAcceptOnlyFree : Obligations.DeadContextsAcceptOnlyFree := by
  intro i s t c x hc hv hx h hne
  refine ⟨ctx_of_dead hc hv hx h hne, ?_⟩
  have hlive (dir : Direction) (n : Nat) : ¬ ∃ y, s.liveCtx c dir n = some y :=
    not_exists_liveCtx.2 (.inr (.inr ⟨x, hc, .inr (.inr hx)⟩))
  rintro ⟨p, rfl | rfl⟩
  · exact (refused_or_accepted h).resolve_right (hlive _ _)
  · exact (refused_or_accepted h).resolve_right (hlive _ _)

end Sys2Proof.Machine
